-- ==== Sys2Proof/Word.lean ====
section
/-! DEFINITION. The word types of the block, one per width of 00_scope.md rule R6. All are unsigned
(rule R9). -/

namespace Sys2Proof

/-- A symbol or an output byte: `SYMW` = `ACCW` = 8 bits. -/
abbrev Byte := BitVec 8

/-- One frequency count: `CW` = 32 bits. -/
abbrev Count := BitVec 32

/-- A node weight: `WW` = 40 bits. -/
abbrev Weight := BitVec 40

/-- A node index: `IDXW` = 9 bits, legal values 0 to 510. -/
abbrev NodeIndex := BitVec 9

/-- A command word: `CMDW` = 64 bits. -/
abbrev CmdWord := BitVec 64

/-- A response word: `RSPW` = 64 bits. -/
abbrev RspWord := BitVec 64

end Sys2Proof
end

