-- ==== Sys2Proof/Config.lean ====
section
/-! DEFINITION. What the spec leaves open, as constants with no body, so that nothing in Lean can
evaluate them or prove a value of them. The argument is the number of the draw, `Env.draws`. -/

namespace Sys2Proof.Config

/-- `ACC` after a `SINK_FAIL` fault: any value (60_exceptions.md rule R181; log 4). -/
opaque sinkFailAcc : Nat → BitVec 8

/-- `NHELD` after a `SINK_FAIL` fault: any value (60_exceptions.md rule R181; log 4). -/
opaque sinkFailNheld : Nat → BitVec 3

/-- `BITCNT` after a `SINK_FAIL` fault: any value (60_exceptions.md rule R181; log 4). -/
opaque sinkFailBitcnt : Nat → BitVec 64

/-- `INLEN` after a `SINK_FAIL` fault: any value (60_exceptions.md rule R181; log 4). -/
opaque sinkFailInlen : Nat → BitVec 64

/-- `OUTLEN` after a `SINK_FAIL` fault: any value (60_exceptions.md rule R181; log 4). -/
opaque sinkFailOutlen : Nat → BitVec 64

/-- `PADBITS` after a `SINK_FAIL` fault: any value (60_exceptions.md rule R181; log 4). -/
opaque sinkFailPadbits : Nat → BitVec 3

/-- How many of a command's bytes the sink has accepted when a reset cuts the command: any number;
the model takes at most all of them (70_reset_and_hazards.md rule R202; log 7). -/
opaque resetPrefix : Nat → Nat

end Sys2Proof.Config
end

