-- ==== Sys2Proof/Syntax.lean ====
section
/-! DEFINITION. The twelve commands (30_encoding.md rule R83), one constructor per row of
spec/opcode_table.json, with the operands of rule R82. -/

namespace Sys2Proof

/-- The nine status registers that `RDREG` names (10_state.md rule R34, names of 30_encoding.md
rule R89). Numbers 9 to 255 are reserved and name nothing. -/
inductive StatusReg where
  | status
  | finfo
  | nsym
  | totalw
  | root
  | inlen
  | bitcnt
  | outlen
  | packst
  deriving DecidableEq, Repr

/-- A command. An operand has the width of its field (30_encoding.md rules R81 and R82). -/
inductive Instr where
  /-- `CLEAR` (rule R160). -/
  | clear
  /-- `COUNT sym` (rule R100). -/
  | count (sym : Byte)
  /-- `LDFREQ sym, count` (rule R101). -/
  | ldfreq (sym : Byte) (cnt : Count)
  /-- `BUILD` (rule R111). -/
  | build
  /-- `GEN` (rule R126). -/
  | gen
  /-- `PACK sym` (rule R140). -/
  | pack (sym : Byte)
  /-- `FLUSH` (rule R143). -/
  | flush
  /-- `RDREG reg` (rule R161). -/
  | rdreg (reg : StatusReg)
  /-- `RDFREQ sym` (rule R102). -/
  | rdfreq (sym : Byte)
  /-- `RDNODE idx` (rule R116); the value 511 is not an index. -/
  | rdnode (idx : NodeIndex)
  /-- `RDCLEN sym` (rule R130). -/
  | rdclen (sym : Byte)
  /-- `RDCODE sym, chunk` (rule R131). -/
  | rdcode (sym : Byte) (chunk : BitVec 2)
  deriving DecidableEq, Repr

end Sys2Proof
end

