-- ==== Sys2Proof/WellFormed.lean ====
section
/-! DEFINITION. Which terms of `Instr` stand for a command of the block (30_encoding.md rules R81 to
R84). Every operand but one fills its type: a symbol, a count, a chunk number of two bits and a
named status register are always legal; a 9-bit node index is not legal when it is 511. -/

namespace Sys2Proof

/-- The largest node index, `NNODES` - 1 (00_scope.md rule R6). -/
abbrev maxNodeIndex : NodeIndex := 510#9

/-- `i` is a command of the block. -/
def Instr.wellFormed : Instr → Bool
  | .clear => true
  | .count _ => true
  | .ldfreq _ _ => true
  | .build => true
  | .gen => true
  | .pack _ => true
  | .flush => true
  | .rdreg _ => true
  | .rdfreq _ => true
  | .rdnode idx => decide (idx ≤ maxNodeIndex)
  | .rdclen _ => true
  | .rdcode _ _ => true

end Sys2Proof
end

