-- ==== Sys2Proof/Decode.lean ====
section
/-! DEFINITION. The command word and its decoder and encoder (30_encoding.md rules R80 to R86), and
the opcode map of rule R83 as the spec prints it. `PHASE` plays no part here (rule R86). -/

namespace Sys2Proof

/-- `OP`, bits [63:56] (rule R80). -/
def fieldOp (w : CmdWord) : BitVec 8 := w.extractLsb' 56 8

/-- `A`, bits [55:48] (rule R80). -/
def fieldA (w : CmdWord) : BitVec 8 := w.extractLsb' 48 8

/-- `Z`, bits [47:32] (rule R80). -/
def fieldZ (w : CmdWord) : BitVec 16 := w.extractLsb' 32 16

/-- `IMM`, bits [31:0] (rule R80). -/
def fieldImm (w : CmdWord) : BitVec 32 := w.extractLsb' 0 32

/-- The command word with the given fields and `Z` = 0 (rules R80 and R89). -/
def commandWord (op a : BitVec 8) (imm : BitVec 32) : CmdWord := op ++ a ++ 0#16 ++ imm

/-- Why a word is malformed (rule R84). The block tells none of these apart: every one is
`ILLEGAL_CMD`. -/
inductive Malformed where
  /-- `OP` is 0x00 or 0x0D to 0xFF. -/
  | reservedOpcode
  /-- `Z` is not 0. -/
  | reservedZ
  /-- `A` is not 0 in format Z or I. -/
  | reservedA
  /-- `IMM` is not 0 in format Z, S or R. -/
  | reservedImm
  /-- `RDREG` with `A` of 9 or more. -/
  | reservedRegister
  /-- `RDNODE` with `IMM` of 511 or more. -/
  | nodeIndexOutOfRange
  /-- `RDCODE` with `IMM` of 4 or more. -/
  | chunkOutOfRange
  deriving DecidableEq, Repr

/-- The number of a status register (10_state.md rule R34). -/
def StatusReg.number : StatusReg → Byte
  | .status => 0
  | .finfo => 1
  | .nsym => 2
  | .totalw => 3
  | .root => 4
  | .inlen => 5
  | .bitcnt => 6
  | .outlen => 7
  | .packst => 8

/-- The status register a number names, if any (10_state.md rule R34). -/
def StatusReg.ofNumber (n : Byte) : Option StatusReg :=
  match n.toNat with
  | 0 => some .status
  | 1 => some .finfo
  | 2 => some .nsym
  | 3 => some .totalw
  | 4 => some .root
  | 5 => some .inlen
  | 6 => some .bitcnt
  | 7 => some .outlen
  | 8 => some .packst
  | _ => none

/-- Format `Z`: no operand (rule R81). -/
def decodeZ (w : CmdWord) (i : Instr) : Except Malformed Instr :=
  if fieldZ w ≠ 0 then .error .reservedZ
  else if fieldA w ≠ 0 then .error .reservedA
  else if fieldImm w ≠ 0 then .error .reservedImm
  else .ok i

/-- Format `S`: a symbol in `A` (rule R81). -/
def decodeS (w : CmdWord) (mk : Byte → Instr) : Except Malformed Instr :=
  if fieldZ w ≠ 0 then .error .reservedZ
  else if fieldImm w ≠ 0 then .error .reservedImm
  else .ok (mk (fieldA w))

/-- Format `SI` of `LDFREQ`: a symbol in `A`, a count in `IMM` (rules R81 and R82). -/
def decodeLdfreq (w : CmdWord) : Except Malformed Instr :=
  if fieldZ w ≠ 0 then .error .reservedZ
  else .ok (.ldfreq (fieldA w) (fieldImm w))

/-- Format `SI` of `RDCODE`: a symbol in `A`, a chunk number of 0 to 3 in `IMM` (rules R81 and R82). -/
def decodeRdcode (w : CmdWord) : Except Malformed Instr :=
  if fieldZ w ≠ 0 then .error .reservedZ
  else if 4 ≤ (fieldImm w).toNat then .error .chunkOutOfRange
  else .ok (.rdcode (fieldA w) ((fieldImm w).extractLsb' 0 2))

/-- Format `I`: a node index of 0 to 510 in `IMM` (rules R81 and R82). -/
def decodeRdnode (w : CmdWord) : Except Malformed Instr :=
  if fieldZ w ≠ 0 then .error .reservedZ
  else if fieldA w ≠ 0 then .error .reservedA
  else if 511 ≤ (fieldImm w).toNat then .error .nodeIndexOutOfRange
  else .ok (.rdnode ((fieldImm w).extractLsb' 0 9))

/-- Format `R`: a register number of 0 to 8 in `A` (rules R81 and R82). -/
def decodeRdreg (w : CmdWord) : Except Malformed Instr :=
  if fieldZ w ≠ 0 then .error .reservedZ
  else if fieldImm w ≠ 0 then .error .reservedImm
  else match StatusReg.ofNumber (fieldA w) with
    | some r => .ok (.rdreg r)
    | none => .error .reservedRegister

/-- The command a word stands for, or why it stands for none: total on every 64-bit word
(rules R83 and R84). -/
def decode (w : CmdWord) : Except Malformed Instr :=
  match (fieldOp w).toNat with
  | 0x01 => decodeZ w .clear
  | 0x02 => decodeS w .count
  | 0x03 => decodeLdfreq w
  | 0x04 => decodeZ w .build
  | 0x05 => decodeZ w .gen
  | 0x06 => decodeS w .pack
  | 0x07 => decodeZ w .flush
  | 0x08 => decodeRdreg w
  | 0x09 => decodeS w .rdfreq
  | 0x0A => decodeRdnode w
  | 0x0B => decodeS w .rdclen
  | 0x0C => decodeRdcode w
  | _ => .error .reservedOpcode

/-- The opcode of a command (rule R83). -/
def Instr.opcode : Instr → BitVec 8
  | .clear => 0x01
  | .count _ => 0x02
  | .ldfreq _ _ => 0x03
  | .build => 0x04
  | .gen => 0x05
  | .pack _ => 0x06
  | .flush => 0x07
  | .rdreg _ => 0x08
  | .rdfreq _ => 0x09
  | .rdnode _ => 0x0A
  | .rdclen _ => 0x0B
  | .rdcode _ _ => 0x0C

/-- The mnemonic of a command (rule R83). -/
def Instr.mnemonic : Instr → String
  | .clear => "CLEAR"
  | .count _ => "COUNT"
  | .ldfreq _ _ => "LDFREQ"
  | .build => "BUILD"
  | .gen => "GEN"
  | .pack _ => "PACK"
  | .flush => "FLUSH"
  | .rdreg _ => "RDREG"
  | .rdfreq _ => "RDFREQ"
  | .rdnode _ => "RDNODE"
  | .rdclen _ => "RDCLEN"
  | .rdcode _ _ => "RDCODE"

/-- What a command puts into field `A` (rules R81 and R82). -/
def Instr.operandA : Instr → BitVec 8
  | .clear => 0
  | .count sym => sym
  | .ldfreq sym _ => sym
  | .build => 0
  | .gen => 0
  | .pack sym => sym
  | .flush => 0
  | .rdreg reg => reg.number
  | .rdfreq sym => sym
  | .rdnode _ => 0
  | .rdclen sym => sym
  | .rdcode sym _ => sym

/-- What a command puts into field `IMM` (rules R81 and R82). -/
def Instr.operandImm : Instr → BitVec 32
  | .clear => 0
  | .count _ => 0
  | .ldfreq _ cnt => cnt
  | .build => 0
  | .gen => 0
  | .pack _ => 0
  | .flush => 0
  | .rdreg _ => 0
  | .rdfreq _ => 0
  | .rdnode idx => idx.zeroExtend 32
  | .rdclen _ => 0
  | .rdcode _ chunk => chunk.zeroExtend 32

/-- The word of a command (rules R83 and R89: `OP << 56 | A << 48 | IMM`). -/
def encode (i : Instr) : CmdWord := commandWord i.opcode i.operandA i.operandImm

/-- The extra constraint of an opcode-map row, beside mask and match (rule R83). -/
inductive ExtraConstraint where
  | nothing
  | registerAtMost8
  | immNot511
  deriving DecidableEq, Repr

/-- Whether a word meets an extra constraint (rule R83). -/
def ExtraConstraint.holds (c : ExtraConstraint) (w : CmdWord) : Bool :=
  match c with
  | .nothing => true
  | .registerAtMost8 => decide ((fieldA w).toNat ≤ 8)
  | .immNot511 => decide (fieldImm w ≠ 511)

/-- One row of the opcode map (rule R83). -/
structure OpcodeRow where
  mnemonic : String
  mask : CmdWord
  pattern : CmdWord
  extra : ExtraConstraint
  deriving DecidableEq, Repr

/-- `w` is an instance of the row: `w & mask = match`, and the extra constraint holds (rule R83). -/
def OpcodeRow.covers (r : OpcodeRow) (w : CmdWord) : Bool :=
  w &&& r.mask == r.pattern && r.extra.holds w

/-- The opcode map as rule R83 prints it. -/
def opcodeMap : List OpcodeRow :=
  [ ⟨"CLEAR", 0xFFFFFFFFFFFFFFFF, 0x0100000000000000, .nothing⟩,
    ⟨"COUNT", 0xFF00FFFFFFFFFFFF, 0x0200000000000000, .nothing⟩,
    ⟨"LDFREQ", 0xFF00FFFF00000000, 0x0300000000000000, .nothing⟩,
    ⟨"BUILD", 0xFFFFFFFFFFFFFFFF, 0x0400000000000000, .nothing⟩,
    ⟨"GEN", 0xFFFFFFFFFFFFFFFF, 0x0500000000000000, .nothing⟩,
    ⟨"PACK", 0xFF00FFFFFFFFFFFF, 0x0600000000000000, .nothing⟩,
    ⟨"FLUSH", 0xFFFFFFFFFFFFFFFF, 0x0700000000000000, .nothing⟩,
    ⟨"RDREG", 0xFF00FFFFFFFFFFFF, 0x0800000000000000, .registerAtMost8⟩,
    ⟨"RDFREQ", 0xFF00FFFFFFFFFFFF, 0x0900000000000000, .nothing⟩,
    ⟨"RDNODE", 0xFFFFFFFFFFFFFE00, 0x0A00000000000000, .immNot511⟩,
    ⟨"RDCLEN", 0xFF00FFFFFFFFFFFF, 0x0B00000000000000, .nothing⟩,
    ⟨"RDCODE", 0xFF00FFFFFFFFFFFC, 0x0C00000000000000, .nothing⟩ ]

/-- The instruction the decoder reads from a command of `nbits` bits that are `w`: the command is
one 64-bit word, so the bits above `nbits` are 0. -/
def tableWord (nbits w : Nat) : CmdWord := BitVec.ofNat 64 (w % 2 ^ nbits)

/-- The decoder's answer on an opcode-table word. -/
def decodeTableWord (nbits w : Nat) : Option Instr := (decode (tableWord nbits w)).toOption

end Sys2Proof
end

