-- ==== Sys2Proof/Machine/State.lean ====
section
/-! DEFINITION. The state: `Arch` is the tuple of 10_state.md rule R20, nothing more and nothing
less; `Env` is what stands beside it, the host's and the sink's coming actions and the two output
histories (rules R41 and R43). -/

namespace Sys2Proof.Machine

/-- `PHASE` (10_state.md rule R23); no other value exists. -/
inductive Phase where
  /-- 0: the frequency table is being built. -/
  | table
  /-- 1: the tree is in the arena. -/
  | tree
  /-- 2: the code map is valid; packing may run. -/
  | codes
  /-- 3: the packed stream is closed. -/
  | done
  deriving DecidableEq, Repr

/-- `CAUSE` (60_exceptions.md rule R170); codes 7 to 15 are never written. -/
inductive Cause where
  /-- 0 `NONE`: no fault. -/
  | noFault
  /-- 1 `ILLEGAL_CMD`. -/
  | illegalCmd
  /-- 2 `BAD_PHASE`. -/
  | badPhase
  /-- 3 `FREQ_OVF`. -/
  | freqOvf
  /-- 4 `NO_CODE`. -/
  | noCode
  /-- 5 `SINK_FAIL`. -/
  | sinkFail
  /-- 6 `CNT_OVF`. -/
  | cntOvf
  deriving DecidableEq, Repr

/-- A present arena entry (10_state.md rule R27). -/
inductive Node where
  | leaf (weight : Weight) (sym : Byte)
  | internal (weight : Weight) (left right : NodeIndex)
  deriving DecidableEq, Repr

/-- A code-map entry (10_state.md rule R30): `clen` and `cbits`, the first code bit at bit 255;
`len` = 0 stands for an absent code. -/
structure Code where
  len : BitVec 8
  bits : BitVec 256
  deriving DecidableEq, Repr

/-- The entry of a symbol with no code (10_state.md rule R30). -/
def Code.absent : Code := ⟨0, 0⟩

/-- The bit-packer's registers (10_state.md rules R32 and R33). -/
structure Packer where
  /-- `ACC`. -/
  acc : BitVec 8
  /-- `NHELD`. -/
  nheld : BitVec 3
  /-- `BITCNT`. -/
  bitcnt : BitVec 64
  /-- `INLEN`. -/
  inlen : BitVec 64
  /-- `OUTLEN`. -/
  outlen : BitVec 64
  /-- `PADBITS`. -/
  padbits : BitVec 3
  deriving DecidableEq, Repr

/-- All packer registers zero (10_state.md rule R42). -/
def Packer.zero : Packer := ⟨0, 0, 0, 0, 0, 0⟩

/-- The frequency table `freq[0..255]` (10_state.md rule R25). -/
abbrev FreqTable := Vector Count 256

/-- The node arena `node[0..510]` (10_state.md rule R27). -/
abbrev Arena := Vector (Option Node) 511

/-- The code map `cmap[0..255]` (10_state.md rule R30). -/
abbrev CodeMap := Vector Code 256

/-- Every count 0: no keys (10_state.md rule R42). -/
def FreqTable.empty : FreqTable := Vector.replicate 256 0

/-- Every entry absent (10_state.md rule R42). -/
def Arena.empty : Arena := Vector.replicate 511 none

/-- Every code absent (10_state.md rule R42). -/
def CodeMap.empty : CodeMap := Vector.replicate 256 Code.absent

/-- The architectural state: exactly the tuple of 10_state.md rule R20. -/
structure Arch where
  /-- `PHASE`. -/
  phase : Phase
  /-- `FAULT`. -/
  fault : Bool
  /-- `CAUSE`. -/
  cause : Cause
  /-- `FINFO`. -/
  finfo : CmdWord
  /-- `freq[0..255]`. -/
  freq : FreqTable
  /-- `node[0..510]`. -/
  node : Arena
  /-- `root`. -/
  root : Option NodeIndex
  /-- `cmap[0..255]`. -/
  cmap : CodeMap
  /-- `ACC`, `NHELD`, `BITCNT`, `INLEN`, `OUTLEN`, `PADBITS`. -/
  pk : Packer
  deriving DecidableEq, Repr

/-- What the host does next at the block's ports (10_state.md rule R39). -/
inductive HostEvent where
  /-- The host presents a command word. -/
  | command (w : CmdWord)
  /-- The host asserts and releases `rst` between two commands (70_reset_and_hazards.md rule R200). -/
  | reset
  /-- The host presents a command word and asserts `rst` while that command is executing
  (70_reset_and_hazards.md rule R202). -/
  | cutShort (w : CmdWord)
  deriving DecidableEq, Repr

/-- The sink's answer to one `SinkWrite` (00_scope.md rule R12; 93_implementation_defined.md U6 and
U13). -/
inductive SinkAnswer where
  | ok
  | fail
  /-- `sink_ready` is never raised. -/
  | never
  deriving DecidableEq, Repr

/-- The host's answer to one response word offered (70_reset_and_hazards.md rules R207 and R214). -/
inductive TakerAnswer where
  | taken
  /-- `rsp_ready` is never raised. -/
  | never
  deriving DecidableEq, Repr

/-- The environment beside the block's state. -/
structure Env where
  /-- The host's actions not yet taken, the next one first (log 1). -/
  inputs : List HostEvent
  /-- The sink's coming answers, the next one first; past its end every write is answered `ok`
  (log 2). -/
  sink : List SinkAnswer
  /-- The host's coming answers to responses, the next one first; past its end every response is
  taken (log 3). -/
  taker : List TakerAnswer
  /-- `OUT`: the bytes the sink has accepted, oldest first (10_state.md rule R41). -/
  out : List Byte
  /-- `RSP`: the response words taken, oldest first (10_state.md rule R41). -/
  rsp : List RspWord
  /-- How many free values have been drawn (log 6). -/
  draws : Nat
  deriving DecidableEq, Repr

/-- The block and its environment. -/
structure State where
  arch : Arch
  env : Env
  deriving DecidableEq, Repr

/-- Why the model stops: the block waits for ever at one of its ports
(93_implementation_defined.md U13; log 3 and log 8). No command stops on every path. -/
inductive Fault where
  /-- Raised by `PACK` and `FLUSH` when the sink never takes a byte that they offer; `accepted` is
  what the sink had taken of this command's bytes before. Safe: the model stops where the hardware
  waits for ever. -/
  | sinkNeverReady (accepted : List Byte)
  /-- Raised by the five read commands when the host never takes the response word. Safe: the model
  stops where the hardware waits for ever. -/
  | responseNeverTaken (word : RspWord)
  deriving DecidableEq, Repr

/-- Why the model declines to run an instruction. -/
inductive Refusal where
  /-- Raised by an arm of `exec` whose instruction has no meaning yet; no arm raises it now. Safe:
  the model stops. -/
  | notModelled (mnemonic : String)
  deriving DecidableEq, Repr

/-- The outcome of a step or of a command. -/
abbrev Result := Host.Outcome State Fault Refusal

/-- Every piece of the block's state at its reset value (10_state.md rule R42). -/
def Arch.reset : Arch where
  phase := .table
  fault := false
  cause := .noFault
  finfo := 0
  freq := FreqTable.empty
  node := Arena.empty
  root := none
  cmap := CodeMap.empty
  pk := Packer.zero

/-- An environment with nothing pending and empty histories (DESIGN CHOICE; log 1, 2, 3, 5, 6). -/
def Env.initial : Env where
  inputs := []
  sink := []
  taker := []
  out := []
  rsp := []
  draws := 0

/-- The machine right after reset (10_state.md rule R42), before the host has done anything. -/
def State.reset : State := ⟨Arch.reset, Env.initial⟩

end Sys2Proof.Machine
end

