-- ==== Sys2Proof/Machine/Ops.lean ====
section
/-! DEFINITION. The named operations every command is written with: table access, `Respond`,
`SinkWrite`, `raise Fault` (00_scope.md rule R12, 60_exceptions.md rule R172), and the one way back,
reset (60_exceptions.md rule R183). -/

namespace Sys2Proof.Machine

/-! ### The four index spaces (10_state.md rule R37): whole entries by index -/

/-- `freq[sym]`. -/
def Arch.freqAt (a : Arch) (sym : Byte) : Count := a.freq[sym.toNat]'sym.isLt

/-- `freq[sym] <- count`. -/
def Arch.setFreq (a : Arch) (sym : Byte) (cnt : Count) : Arch :=
  { a with freq := a.freq.set sym.toNat cnt sym.isLt }

/-- `node[n]`; 511 is not an index and holds nothing. -/
def Arena.at (nodes : Arena) (n : NodeIndex) : Option Node := (nodes[n.toNat]?).join

/-- `cmap[sym]`, as `clen` and `cbits`. -/
def Arch.codeAt (a : Arch) (sym : Byte) : Code := a.cmap[sym.toNat]'sym.isLt

/-- `clen[sym]`. -/
def Arch.clen (a : Arch) (sym : Byte) : BitVec 8 := (a.codeAt sym).len

/-- `cbits[sym]`. -/
def Arch.cbits (a : Arch) (sym : Byte) : BitVec 256 := (a.codeAt sym).bits

/-! ### Taking a fault -/

/-- `raise Fault(c)` by the command word `w` (60_exceptions.md rule R172): exactly these three
writes. -/
def raiseFault (c : Cause) (w : CmdWord) (s : State) : State :=
  { s with arch := { s.arch with fault := true, cause := c, finfo := w } }

/-- The packer registers after a failed sink write: six free values (60_exceptions.md rule R181;
log 4). -/
def unspecifiedPacker (n : Nat) : Packer where
  acc := Config.sinkFailAcc n
  nheld := Config.sinkFailNheld n
  bitcnt := Config.sinkFailBitcnt n
  inlen := Config.sinkFailInlen n
  outlen := Config.sinkFailOutlen n
  padbits := Config.sinkFailPadbits n

/-- `raise Fault(SINK_FAIL)` by the command word `w`, the environment having become `e` at the
failed write (60_exceptions.md rules R180 and R181). -/
def raiseSinkFail (w : CmdWord) (e : Env) (s : State) : State :=
  raiseFault .sinkFail w
    { arch := { s.arch with pk := unspecifiedPacker e.draws }
      env := { e with draws := e.draws + 1 } }

/-- What the block does with a malformed word (30_encoding.md rule R91, 60_exceptions.md rules R173
and R175): `ILLEGAL_CMD`, or nothing at all once a fault is recorded. -/
def takeMalformed (w : CmdWord) (s : State) : Result :=
  if s.arch.fault then .next s else .next (raiseFault .illegalCmd w s)

/-! ### The two outputs -/

/-- `Respond(v)` (00_scope.md rule R12): the word joins `RSP` once the host takes it; a host that
never takes it blocks the block for ever (70_reset_and_hazards.md rules R207 and R214). -/
def respond (v : RspWord) (s : State) : Result :=
  match s.env.taker with
  | [] => .next { s with env := { s.env with rsp := s.env.rsp ++ [v] } }
  | .taken :: rest =>
    .next { s with env := { s.env with rsp := s.env.rsp ++ [v], taker := rest } }
  | .never :: _ => .fault (.responseNeverTaken v)

/-- `SinkWrite(b)` (00_scope.md rule R12): the sink's answer, and the environment after it; the byte
joins `OUT` exactly when the answer is `ok`. -/
def sinkWrite (b : Byte) (e : Env) : SinkAnswer × Env :=
  match e.sink with
  | [] => (.ok, { e with out := e.out ++ [b] })
  | .ok :: rest => (.ok, { e with out := e.out ++ [b], sink := rest })
  | .fail :: rest => (.fail, { e with sink := rest })
  | .never :: rest => (.never, { e with sink := rest })

/-! ### Reset, the only return from a fault -/

/-- The host asserts and releases `rst` between commands (70_reset_and_hazards.md rule R200): the
block is in its reset state; the histories are not retracted (10_state.md rule R41). -/
def hostReset (s : State) : State := { s with arch := Arch.reset }

/-- The bytes the sink took while a command ran from `s` to the given result. -/
def acceptedBytes (s : State) (r : Result) : List Byte :=
  match r with
  | .next t => t.env.out.drop s.env.out.length
  | .fault (.sinkNeverReady accepted) => accepted
  | .fault (.responseNeverTaken _) => []
  | .refused _ => []

/-- `rst` rises while a command runs that, left alone, would go from `s` to `r`
(70_reset_and_hazards.md rule R202): the reset state, no response, and in `OUT` a prefix of the
bytes, of a length that is a free value (log 7). -/
def cutByReset (s : State) (r : Result) : State :=
  let kept := (acceptedBytes s r).take (Config.resetPrefix s.env.draws)
  { arch := Arch.reset
    env := { s.env with
      out := s.env.out ++ kept
      sink := s.env.sink.drop kept.length
      draws := s.env.draws + 1 } }

end Sys2Proof.Machine
end

