-- ==== Sys2Proof/Machine/Flags.lean ====
section
/-! DEFINITION. The phase machine and the fault flag: the codes of `PHASE` and `CAUSE`, the phase
acceptance table (30_encoding.md rule R88), and the order of checks every command passes
(30_encoding.md rule R91, 60_exceptions.md rule R174). There are no other flags (10_state.md rule
R24). -/

namespace Sys2Proof.Machine

/-- The value of `PHASE` (10_state.md rule R23). -/
def Phase.code : Phase → BitVec 2
  | .table => 0
  | .tree => 1
  | .codes => 2
  | .done => 3

/-- The value of `CAUSE` (60_exceptions.md rule R170). -/
def Cause.code : Cause → BitVec 4
  | .noFault => 0
  | .illegalCmd => 1
  | .badPhase => 2
  | .freqOvf => 3
  | .noCode => 4
  | .sinkFail => 5
  | .cntOvf => 6

/-- The level of the `fault` pin: `FAULT` at all times (10_state.md rule R39). -/
def State.faultPin (s : State) : Bool := s.arch.fault

/-- Whether a phase accepts a command: the table of 30_encoding.md rule R88, row by row. -/
def accepts (i : Instr) (p : Phase) : Bool :=
  match i with
  | .clear => true
  | .count _ => p == .table
  | .ldfreq _ _ => p == .table
  | .build => p == .table
  | .gen => p == .tree
  | .pack _ => p == .codes
  | .flush => p == .codes
  | .rdreg _ => true
  | .rdfreq _ => true
  | .rdnode _ => p == .tree
  | .rdclen _ => p == .codes || p == .done
  | .rdcode _ _ => p == .codes || p == .done

/-- Whether a command executes while `FAULT` = 1: `RDREG` alone (60_exceptions.md rule R173). -/
def runsWhileFaulted : Instr → Bool
  | .clear => false
  | .count _ => false
  | .ldfreq _ _ => false
  | .build => false
  | .gen => false
  | .pack _ => false
  | .flush => false
  | .rdreg _ => true
  | .rdfreq _ => false
  | .rdnode _ => false
  | .rdclen _ => false
  | .rdcode _ _ => false

/-- The checks of 30_encoding.md rule R91 in their order, and then the command's own rule. A term
of `Instr` that is no command (only `rdnode` of 511) is treated as the malformed word it encodes to
(log 11). -/
def checked (i : Instr) (s : State) (own : Result) : Result :=
  if s.arch.fault then
    if i.wellFormed && runsWhileFaulted i then own else .next s
  else if !i.wellFormed then .next (raiseFault .illegalCmd (encode i) s)
  else if !accepts i s.arch.phase then .next (raiseFault .badPhase (encode i) s)
  else own

end Sys2Proof.Machine
end

