-- ==== Sys2Proof/Machine/Operands.lean ====
section
/-! DEFINITION. What an operand selects (30_encoding.md rule R82): the status register of a register
number with its layout (10_state.md rules R34 and R35), the response word of an arena entry
(41_tree.md rule R116), the code bits of a chunk (42_codegen.md rule R131). -/

namespace Sys2Proof.Machine

/-- `NSYM`: the number of keys (10_state.md rules R26 and R35). -/
def nsym (freq : FreqTable) : BitVec 9 :=
  BitVec.ofNat 9 (freq.toList.countP fun c => c != 0)

/-- `TOTALW`: the sum of the counts (10_state.md rules R26 and R35). -/
def totalw (freq : FreqTable) : Weight :=
  BitVec.ofNat 40 (freq.toList.map BitVec.toNat).sum

/-- Register 0: `PHASE` [1:0], `FAULT` [2], zero [3], `CAUSE` [7:4]. -/
def statusWord (a : Arch) : BitVec 8 :=
  a.cause.code ++ 0#1 ++ BitVec.ofBool a.fault ++ a.phase.code

/-- Register 4: `INDEX` [8:0], `VALID` [9]; both 0 when there is no root. -/
def rootWord (root : Option NodeIndex) : BitVec 10 :=
  match root with
  | none => 0
  | some n => 1#1 ++ n

/-- Register 8: `ACC` [7:0], `NHELD` [10:8], zero [11], `PADBITS` [14:12]. -/
def packstWord (pk : Packer) : BitVec 15 := pk.padbits ++ 0#1 ++ pk.nheld ++ pk.acc

/-- The 64-bit value of a status register (10_state.md rule R34); bits not listed read as 0. -/
def statusReg (r : StatusReg) (a : Arch) : RspWord :=
  match r with
  | .status => (statusWord a).zeroExtend 64
  | .finfo => a.finfo
  | .nsym => (nsym a.freq).zeroExtend 64
  | .totalw => (totalw a.freq).zeroExtend 64
  | .root => (rootWord a.root).zeroExtend 64
  | .inlen => a.pk.inlen
  | .bitcnt => a.pk.bitcnt
  | .outlen => a.pk.outlen
  | .packst => (packstWord a.pk).zeroExtend 64

/-- The response word of an arena entry (41_tree.md rule R116): `PRESENT` [63], `KIND` [62], zero
[61:58], `WEIGHT` [57:18], `LEFT` [17:9], `RIGHT_OR_SYM` [8:0]; 0 when absent. -/
def nodeWord (n : Option Node) : RspWord :=
  match n with
  | none => 0
  | some (.leaf weight sym) => 1#1 ++ 0#1 ++ 0#4 ++ weight ++ 0#9 ++ sym.zeroExtend 9
  | some (.internal weight left right) => 1#1 ++ 1#1 ++ 0#4 ++ weight ++ left ++ right

/-- `cbits[255 - 64*chunk : 192 - 64*chunk]` (42_codegen.md rule R131). -/
def codeChunk (bits : BitVec 256) (chunk : BitVec 2) : RspWord :=
  bits.extractLsb' (192 - 64 * chunk.toNat) 64

end Sys2Proof.Machine
end

