-- ==== Sys2Proof/Machine/CodeGen.lean ====
section
/-! DEFINITION. The code-map generator, `GEN`, `RDCLEN` and `RDCODE` (42_codegen.md). A code is a
list of bits, first bit first; left is `false`, right is `true` (00_scope.md rule R10). -/

namespace Sys2Proof.Machine

/-- `cbits` of a code: code bit i at bit 255 - i, every other bit 0 (10_state.md rule R30). -/
def packBits : List Bool → BitVec 256
  | [] => 0
  | b :: rest => (BitVec.ofBool b).zeroExtend 256 <<< 255 ||| packBits rest >>> 1

/-- A code as the code map stores it (10_state.md rule R30). -/
def Code.ofList (code : List Bool) : Code := ⟨BitVec.ofNat 8 code.length, packBits code⟩

/-- The bits of a stored code, first bit first (10_state.md rule R30). -/
def Code.toList (c : Code) : List Bool :=
  (List.range c.len.toNat).map fun i => c.bits.getLsbD (255 - i)

/-- The number of nodes on the longest path of any tree `BUILD` makes: `CLEN_MAX` + 1 (rule
R132). -/
def walkDepth : Nat := 256

/-- `Walk(n, code)` (rule R126): the bindings in the order they are made, left subtree first; a leaf
reached with the empty code gets the one-bit code 0 (rule R127). The first argument bounds the
depth; an entry that is absent, or deeper than the bound, binds nothing (log 12). -/
def walk (nodes : Arena) : Nat → NodeIndex → List Bool → List (Byte × List Bool)
  | 0, _, _ => []
  | depth + 1, n, code =>
    match nodes.at n with
    | none => []
    | some (.leaf _ sym) => [(sym, if code.isEmpty then [false] else code)]
    | some (.internal _ left right) =>
      walk nodes depth left (code ++ [false]) ++ walk nodes depth right (code ++ [true])

/-- The bindings `GEN` makes: none for an absent root (rule R126). -/
def bindings (a : Arch) : List (Byte × List Bool) :=
  match a.root with
  | none => []
  | some n => walk a.node walkDepth n []

/-- `cmap[sym] <- code` (rule R126). -/
def bindCode (cmap : CodeMap) (b : Byte × List Bool) : CodeMap :=
  cmap.set b.1.toNat (Code.ofList b.2) b.1.isLt

/-- What `GEN` does to the block: the code map from the tree, and the tree discarded (rules R126 and
R129). -/
def generateCodes (a : Arch) : Arch :=
  { a with
    cmap := (bindings a).foldl bindCode CodeMap.empty
    node := Arena.empty
    root := none
    phase := .codes }

/-- `GEN` (rule R126). -/
def execGen (s : State) : Result :=
  checked .gen s <| .next { s with arch := generateCodes s.arch }

/-- `RDCLEN sym` (rule R130). -/
def execRdclen (sym : Byte) (s : State) : Result :=
  checked (.rdclen sym) s <| respond ((s.arch.clen sym).zeroExtend 64) s

/-- `RDCODE sym, chunk` (rule R131). -/
def execRdcode (sym : Byte) (chunk : BitVec 2) (s : State) : Result :=
  checked (.rdcode sym chunk) s <| respond (codeChunk (s.arch.cbits sym) chunk) s

end Sys2Proof.Machine
end

