-- ==== Sys2Proof/Machine/Frequency.lean ====
section
/-! DEFINITION. The frequency-table commands `COUNT`, `LDFREQ`, `RDFREQ` (40_frequency.md). -/

namespace Sys2Proof.Machine

/-- `COUNT sym` (40_frequency.md rule R100). -/
def execCount (sym : Byte) (s : State) : Result :=
  checked (.count sym) s <|
    if s.arch.freqAt sym = BitVec.allOnes 32 then
      .next (raiseFault .freqOvf (encode (.count sym)) s)
    else .next { s with arch := s.arch.setFreq sym (s.arch.freqAt sym + 1) }

/-- `LDFREQ sym, count` (40_frequency.md rule R101). -/
def execLdfreq (sym : Byte) (cnt : Count) (s : State) : Result :=
  checked (.ldfreq sym cnt) s <| .next { s with arch := s.arch.setFreq sym cnt }

/-- `RDFREQ sym` (40_frequency.md rule R102). -/
def execRdfreq (sym : Byte) (s : State) : Result :=
  checked (.rdfreq sym) s <| respond ((s.arch.freqAt sym).zeroExtend 64) s

end Sys2Proof.Machine
end

