-- ==== Sys2Proof/Machine/Pack.lean ====
section
/-! DEFINITION. The bit-packer, `PACK` and `FLUSH` (43_pack.md). -/

namespace Sys2Proof.Machine

/-- How far the packer has come after some bits. -/
inductive Packing where
  /-- Every write so far was answered `ok`. -/
  | going (pk : Packer) (e : Env)
  /-- A write was answered `fail`; the environment at that point. -/
  | failed (e : Env)
  /-- The sink never takes the byte offered; the environment at that point. -/
  | stuck (e : Env)
  deriving DecidableEq, Repr

/-- `(ACC << 1) | b` in 8 bits (rule R141). -/
def shiftedAcc (b : Bool) (pk : Packer) : BitVec 8 :=
  pk.acc <<< 1 ||| (BitVec.ofBool b).zeroExtend 8

/-- `ShiftIn(b)` (rule R141). -/
def shiftIn (b : Bool) (pk : Packer) (e : Env) : Packing :=
  if pk.nheld = 7 then
    match sinkWrite (shiftedAcc b pk) e with
    | (.ok, e') =>
      .going { pk with acc := 0, nheld := 0, bitcnt := pk.bitcnt + 1, outlen := pk.outlen + 1 } e'
    | (.fail, e') => .failed e'
    | (.never, e') => .stuck e'
  else
    .going { pk with acc := shiftedAcc b pk, nheld := pk.nheld + 1, bitcnt := pk.bitcnt + 1 } e

/-- `ShiftIn` for each bit in order, stopping at the first write that does not succeed (rule
R140). -/
def shiftAll : List Bool → Packer → Env → Packing
  | [], pk, e => .going pk e
  | b :: rest, pk, e =>
    match shiftIn b pk e with
    | .going pk' e' => shiftAll rest pk' e'
    | .failed e' => .failed e'
    | .stuck e' => .stuck e'

/-- The bytes that have joined `OUT` between two environments. -/
def bytesSince (e e' : Env) : List Byte := e'.out.drop e.out.length

/-- Whether `PACK` of a code would carry a counter past 2^64 - 1 (rule R140). -/
def counterOverflow (pk : Packer) (len : BitVec 8) : Bool :=
  pk.inlen == BitVec.allOnes 64 || decide (2 ^ 64 - 1 < pk.bitcnt.toNat + len.toNat)

/-- How `PACK` ends, by how its bits went in (rules R140, R180 and R181). -/
def finishPack (w : CmdWord) (s : State) : Packing → Result
  | .going pk e =>
    .next { arch := { s.arch with pk := { pk with inlen := pk.inlen + 1 } }, env := e }
  | .failed e => .next (raiseSinkFail w e s)
  | .stuck e => .fault (.sinkNeverReady (bytesSince s.env e))

/-- `PACK sym` (rule R140). -/
def execPack (sym : Byte) (s : State) : Result :=
  checked (.pack sym) s <|
    if s.arch.clen sym = 0 then .next (raiseFault .noCode (encode (.pack sym)) s)
    else if counterOverflow s.arch.pk (s.arch.clen sym) then
      .next (raiseFault .cntOvf (encode (.pack sym)) s)
    else
      finishPack (encode (.pack sym)) s
        (shiftAll (s.arch.codeAt sym).toList s.arch.pk s.env)

/-- `8 - NHELD`, the number of padding bits when `NHELD` is 1 to 7 (rule R143). -/
def padCount (pk : Packer) : Nat := 8 - pk.nheld.toNat

/-- The last byte: the held bits in the high positions, zeros below (rule R143). -/
def paddedByte (pk : Packer) : Byte := pk.acc <<< padCount pk

/-- The packer registers after `FLUSH` has written its byte (rule R143). -/
def flushedPacker (pk : Packer) : Packer :=
  { pk with
    acc := 0
    nheld := 0
    outlen := pk.outlen + 1
    padbits := BitVec.ofNat 3 (padCount pk) }

/-- `FLUSH` (rule R143). -/
def execFlush (s : State) : Result :=
  checked .flush s <|
    if s.arch.pk.nheld = 0 then
      .next { s with arch := { s.arch with pk := { s.arch.pk with padbits := 0 }, phase := .done } }
    else
      match sinkWrite (paddedByte s.arch.pk) s.env with
      | (.ok, e) =>
        .next { arch := { s.arch with pk := flushedPacker s.arch.pk, phase := .done }, env := e }
      | (.fail, e) => .next (raiseSinkFail (encode .flush) e s)
      | (.never, e) => .fault (.sinkNeverReady (bytesSince s.env e))

end Sys2Proof.Machine
end

