-- ==== Sys2Proof/Machine/System.lean ====
section
/-! DEFINITION. The system commands `CLEAR` and `RDREG` (44_system.md). -/

namespace Sys2Proof.Machine

/-- What `CLEAR` does to the block: everything but `FAULT`, `CAUSE`, `FINFO` to its reset value
(rule R160). -/
def clearArch (a : Arch) : Arch :=
  { a with
    freq := FreqTable.empty
    cmap := CodeMap.empty
    node := Arena.empty
    root := none
    pk := Packer.zero
    phase := .table }

/-- `CLEAR` (rule R160). -/
def execClear (s : State) : Result :=
  checked .clear s <| .next { s with arch := clearArch s.arch }

/-- `RDREG reg` (rule R161). -/
def execRdreg (reg : StatusReg) (s : State) : Result :=
  checked (.rdreg reg) s <| respond (statusReg reg s.arch) s

end Sys2Proof.Machine
end

