-- ==== Sys2Proof/Machine/Tree.lean ====
section
/-! DEFINITION. The tree builder, `BUILD` and `RDNODE` (41_tree.md). -/

namespace Sys2Proof.Machine

/-- An element of the priority collection `Q`: a node index n together with `node[n].weight`, the
pair that rule R113 compares. A node's weight never changes while it is in `Q`. -/
abbrev QItem := Weight × NodeIndex

/-- `x` comes before `y` in the order of rule R113: by weight, and at equal weight by index
(`TIEBREAK` = `INDEX_ASC`; log 9). -/
def QItem.before (x y : QItem) : Bool :=
  decide (x.1 < y.1) || (x.1 == y.1 && decide (x.2 < y.2))

/-- The first element, in the order of rule R113, of `x` and the elements of `q`. -/
def leastOf (x : QItem) (q : List QItem) : QItem :=
  q.foldl (fun best y => if y.before best then y else best) x

/-- `ExtractMin(Q)` (rule R113): the element removed and what is left, or nothing when `Q` is
empty. -/
def extractMin (q : List QItem) : Option (QItem × List QItem) :=
  match q with
  | [] => none
  | x :: rest => some (leastOf x rest, (x :: rest).erase (leastOf x rest))

/-- Every symbol, 0 to 255. -/
def allSymbols : List Byte := (List.range 256).map (BitVec.ofNat 8)

/-- The index of the leaf of a symbol: the symbol (10_state.md rule R27). -/
def leafIndex (sym : Byte) : NodeIndex := sym.zeroExtend 9

/-- The weight of the leaf of a symbol, `zext_40(freq[sym])` (rule R111). -/
def leafWeight (a : Arch) (sym : Byte) : Weight := (a.freqAt sym).zeroExtend 40

/-- `node[sym]` as the seed loop leaves it: a leaf exactly for a key (rule R111, step 1). -/
def leafEntry (a : Arch) (sym : Byte) : Option Node :=
  if a.freqAt sym = 0 then none else some (.leaf (leafWeight a sym) sym)

/-- Every symbol with its count, in the order of the seed loop (rule R111, step 1). -/
def countedSymbols (a : Arch) : List (Byte × Count) := allSymbols.zip a.freq.toList

/-- `Q` as the seed loop leaves it: the leaf of every key with its weight (rule R111, step 1). -/
def seedQ (a : Arch) : List QItem :=
  ((countedSymbols a).filter fun p => p.2 != 0).map fun p => (p.2.zeroExtend 40, leafIndex p.1)

/-- The index of the internal node made by the k-th merge (10_state.md rule R27). -/
def mergeIndex (k : Nat) : NodeIndex := BitVec.ofNat 9 (256 + k)

/-- The merge loop (rule R111, steps 2 and 3), from merge number `k` on: the internal nodes made, in
order, and the root. Each merge takes two elements out of `Q` and puts one in, so a first argument
of at least `|Q|` runs the loop to its end. -/
def mergeLoop : Nat → Nat → List QItem → List Node × Option NodeIndex
  | 0, _, _ => ([], none)
  | fuel + 1, k, q =>
    match extractMin q with
    | none => ([], none)
    | some (x, q1) =>
      match extractMin q1 with
      | none => ([], some x.2)
      | some (y, q2) =>
        let rest := mergeLoop fuel (k + 1) ((x.1 + y.1, mergeIndex k) :: q2)
        (.internal (x.1 + y.1) x.2 y.2 :: rest.1, rest.2)

/-- Entry i of the arena with the leaves of the frequency table at 0 to 255 and the given internal
nodes from 256 on (10_state.md rule R27). -/
def arenaEntry (a : Arch) (internals : List Node) (i : Nat) : Option Node :=
  if i < 256 then leafEntry a (BitVec.ofNat 8 i) else internals[i - 256]?

/-- The whole arena, entry by entry; what no leaf and no internal node fills is absent. -/
def arenaOf (a : Arch) (internals : List Node) : Arena :=
  ⟨((List.range 511).map (arenaEntry a internals)).toArray, by simp⟩

/-- What `BUILD` does to the block (rule R111). -/
def buildTree (a : Arch) : Arch :=
  let merged := mergeLoop (seedQ a).length 0 (seedQ a)
  { a with node := arenaOf a merged.1, root := merged.2, phase := .tree }

/-- `BUILD` (rule R111). -/
def execBuild (s : State) : Result :=
  checked .build s <| .next { s with arch := buildTree s.arch }

/-- `RDNODE idx` (rule R116). -/
def execRdnode (idx : NodeIndex) (s : State) : Result :=
  checked (.rdnode idx) s <| respond (nodeWord (s.arch.node.at idx)) s

end Sys2Proof.Machine
end

