-- ==== Sys2Proof/Machine/Dispatch.lean ====
section
/-! DEFINITION. One arm per command (30_encoding.md rule R83). -/

namespace Sys2Proof.Machine

def exec (i : Instr) (s : State) : Host.Outcome State Fault Refusal :=
  match i with
  | .clear => Sys2Proof.Machine.execClear s
  | .count sym => Sys2Proof.Machine.execCount sym s
  | .ldfreq sym cnt => Sys2Proof.Machine.execLdfreq sym cnt s
  | .build => Sys2Proof.Machine.execBuild s
  | .gen => Sys2Proof.Machine.execGen s
  | .pack sym => Sys2Proof.Machine.execPack sym s
  | .flush => Sys2Proof.Machine.execFlush s
  | .rdreg reg => Sys2Proof.Machine.execRdreg reg s
  | .rdfreq sym => Sys2Proof.Machine.execRdfreq sym s
  | .rdnode idx => Sys2Proof.Machine.execRdnode idx s
  | .rdclen sym => Sys2Proof.Machine.execRdclen sym s
  | .rdcode sym chunk => Sys2Proof.Machine.execRdcode sym chunk s

end Sys2Proof.Machine
end

