-- ==== Sys2Proof/Machine/Step.lean ====
section
/-! DEFINITION. One step: the block takes the host's next action at its ports. There is no program
counter and no instruction memory (10_state.md rule R22); the next command is the next word the host
presents. -/

namespace Sys2Proof.Machine

/-- The state with the given host actions still to come. -/
def State.withInputs (s : State) (inputs : List HostEvent) : State :=
  { s with env := { s.env with inputs := inputs } }

/-- One command word taken from the port (30_encoding.md rule R91). -/
def takeWord (w : CmdWord) (s : State) : Host.Outcome State Fault Refusal :=
  match decode w with
  | .ok i => exec i s
  | .error _ => takeMalformed w s

/-- One step. With nothing presented the block waits (60_exceptions.md rule R191). -/
def step (s : State) : Host.Outcome State Fault Refusal :=
  match s.env.inputs with
  | [] => .next s
  | .command w :: rest => takeWord w (s.withInputs rest)
  | .reset :: rest => .next (hostReset (s.withInputs rest))
  | .cutShort w :: rest =>
    .next (cutByReset (s.withInputs rest) (takeWord w (s.withInputs rest)))

/-- The state with one more command word presented, ahead of all the host's other actions, so that
the very next step takes it (log 13). -/
def State.withFetchWord (s : State) (nbits w : Nat) : State :=
  s.withInputs (.command (tableWord nbits w) :: s.env.inputs)

end Sys2Proof.Machine
end

