-- ==== Sys2Proof/Safety.lean ====
section
/-! DEFINITION. The words the claims are made in: what the spec says always holds of the block
between commands (10_state.md rules R24, R28 to R30, 41_tree.md rule R112, 42_codegen.md rule R128,
43_pack.md rule R146), what the environment does during a command that completes
(70_reset_and_hazards.md rule R214), and the bit stream of the output (20_memory.md rule R61). -/

namespace Sys2Proof.Machine

/-- No fault is recorded and the phase is `p`. -/
def State.ready (s : State) (p : Phase) : Prop := s.arch.fault = false ∧ s.arch.phase = p

/-- The five read commands (20_memory.md rule R65). -/
def isRead : Instr → Bool
  | .clear => false
  | .count _ => false
  | .ldfreq _ _ => false
  | .build => false
  | .gen => false
  | .pack _ => false
  | .flush => false
  | .rdreg _ => true
  | .rdfreq _ => true
  | .rdnode _ => true
  | .rdclen _ => true
  | .rdcode _ _ => true

/-- The faults a well-formed command can raise (60_exceptions.md rule R171). -/
def mayRaise : Instr → List Cause
  | .clear => []
  | .count _ => [.badPhase, .freqOvf]
  | .ldfreq _ _ => [.badPhase]
  | .build => [.badPhase]
  | .gen => [.badPhase]
  | .pack _ => [.badPhase, .noCode, .cntOvf, .sinkFail]
  | .flush => [.badPhase, .sinkFail]
  | .rdreg _ => []
  | .rdfreq _ => []
  | .rdnode _ => [.badPhase]
  | .rdclen _ => [.badPhase]
  | .rdcode _ _ => [.badPhase]

/-- The phase a command leaves when it executes without a fault (30_encoding.md rule R88). -/
def phaseAfter (i : Instr) (p : Phase) : Phase :=
  match i with
  | .clear => .table
  | .count _ => p
  | .ldfreq _ _ => p
  | .build => .tree
  | .gen => .codes
  | .pack _ => p
  | .flush => .done
  | .rdreg _ => p
  | .rdfreq _ => p
  | .rdnode _ => p
  | .rdclen _ => p
  | .rdcode _ _ => p

/-- What becomes of the malformed words of one opcode, in a state: dropped once a fault is recorded,
`ILLEGAL_CMD` otherwise (30_encoding.md rule R91, 60_exceptions.md rule R175). -/
def malformedRefused (op : BitVec 8) (s : State) : Prop :=
  ∀ (w : CmdWord) (e : Malformed), fieldOp w = op → decode w = .error e →
    takeWord w s =
      if s.arch.fault = true then .next s else .next (raiseFault .illegalCmd w s)

/-! ### What the environment does -/

/-- The host takes the next response word offered (70_reset_and_hazards.md rule R207). -/
def Env.takesNext (e : Env) : Bool := e.taker.head? != some TakerAnswer.never

/-- The sink answers `ok` to each of the next `n` writes (93_implementation_defined.md U6). -/
def Env.sinkAccepts (e : Env) (n : Nat) : Bool := (e.sink.take n).all fun x => x == SinkAnswer.ok

/-- The environment once a response word has been taken. -/
def Env.afterResponse (e : Env) (v : RspWord) : Env :=
  { e with rsp := e.rsp ++ [v], taker := e.taker.tail }

/-- The environment once some bytes have been accepted by the sink. -/
def Env.afterBytes (e : Env) (bytes : List Byte) : Env :=
  { e with out := e.out ++ bytes, sink := e.sink.drop bytes.length }

/-- What the outside can observe, and nothing else: `OUT`, `RSP`, the level of the fault pin
(10_state.md rule R41). -/
structure Observation where
  out : List Byte
  rsp : List RspWord
  pin : Bool
  deriving DecidableEq, Repr

/-- The observation of a state (10_state.md rule R41). -/
def State.observe (s : State) : Observation := ⟨s.env.out, s.env.rsp, s.faultPin⟩

/-- Commands one after another, stopping at the first that does not complete (20_memory.md rule
R68). -/
def execAll : List Instr → State → Result
  | [], s => .next s
  | i :: rest, s =>
    match exec i s with
    | .next t => execAll rest t
    | .fault r => .fault r
    | .refused r => .refused r

/-! ### The fault registers and the phases -/

/-- `CAUSE` and `FINFO` are 0 while `FAULT` = 0, and `CAUSE` is not 0 while `FAULT` = 1
(10_state.md rule R24). -/
structure FaultRecord (a : Arch) : Prop where
  clean : a.fault = false → a.cause = .noFault ∧ a.finfo = 0
  faulted : a.fault = true → a.cause ≠ .noFault

/-- What each phase has yet to make or has already discarded (10_state.md rules R23, R28, R30;
42_codegen.md rule R129; 43_pack.md rule R146, last point). -/
structure PhaseDiscipline (a : Arch) : Prop where
  noTree : a.phase ≠ .tree → a.node = Arena.empty ∧ a.root = none
  noCodes : a.phase = .table ∨ a.phase = .tree → a.cmap = CodeMap.empty
  noPacking : a.phase = .table ∨ a.phase = .tree → a.pk = Packer.zero

/-! ### The bit-packer and its stream -/

/-- The bits of a byte, earliest packed first: bit 7 first (20_memory.md rule R61). -/
def byteBits (b : Byte) : List Bool := (List.range 8).map fun i => b.getLsbD (7 - i)

/-- The bits held in `ACC`, oldest first: `ACC[NHELD-1]` down to `ACC[0]` (10_state.md rule R32). -/
def heldBits (pk : Packer) : List Bool :=
  (List.range pk.nheld.toNat).map fun i => pk.acc.getLsbD (pk.nheld.toNat - 1 - i)

/-- `bytes` is the encoded bit sequence `bits` packed as 20_memory.md rule R61 says: bit 8j + i of
the sequence at bit 7 - i of byte j, and zeros beyond the end. -/
structure PackedAs (bytes : List Byte) (bits : List Bool) : Prop where
  count : bytes.length = (bits.length + 7) / 8
  placed : ∀ j i : Nat, i < 8 →
    (bytes.getD j 0).getLsbD (7 - i) = bits.getD (8 * j + i) false

/-- The code of a symbol, first bit first (10_state.md rule R30). -/
def codeBits (a : Arch) (sym : Byte) : List Bool := (a.codeAt sym).toList

/-- The encoded bit sequence of some input bytes (43_pack.md rule R147). -/
def encodedBits (a : Arch) (input : List Byte) : List Bool := input.flatMap (codeBits a)

/-- 43_pack.md rule R146, for a state whose packer registers are exact: `NHELD`, `ACC` and `OUTLEN`
follow from `BITCNT` in phase `CODES`; `NHELD` and `ACC` are 0 in the other phases; `OUTLEN` and
`PADBITS` are those of rules R144 and R145 in phase `DONE`. -/
structure PackerExact (a : Arch) : Prop where
  held : a.pk.nheld.toNat = if a.phase = .codes then a.pk.bitcnt.toNat % 8 else 0
  accSmall : a.pk.acc.toNat < 2 ^ a.pk.nheld.toNat
  written : a.pk.outlen.toNat =
    if a.phase = .done then (a.pk.bitcnt.toNat + 7) / 8 else a.pk.bitcnt.toNat / 8
  padding : a.pk.padbits.toNat =
    if a.phase = .done then (8 - a.pk.bitcnt.toNat % 8) % 8 else 0
  early : a.phase = .table ∨ a.phase = .tree → a.pk = Packer.zero

/-- The packer registers mean something: no sink write has failed since reset (43_pack.md rule R146,
60_exceptions.md rule R181). -/
def packerTrusted (a : Arch) : Prop := ¬(a.fault = true ∧ a.cause = .sinkFail)

/-! ### The frequency table and the tree -/

/-- `N`: the number of keys (10_state.md rule R26). -/
def keyCount (a : Arch) : Nat := a.freq.toList.countP fun c => c != 0

/-- The keys in the order of symbol (10_state.md rule R26). -/
def keys (a : Arch) : List Byte := allSymbols.filter fun sym => a.freqAt sym != 0

/-- `TotalW`: the sum of the counts (10_state.md rule R26). -/
def totalWeight (a : Arch) : Nat := (a.freq.toList.map BitVec.toNat).sum

/-- The weight of a node (10_state.md rule R27). -/
def Node.weight : Node → Weight
  | .leaf weight _ => weight
  | .internal weight _ _ => weight

/-- `n` is a child of `m`, and `m` is a present internal node. -/
def childOf (nodes : Arena) (n m : NodeIndex) : Prop :=
  ∃ w l r, nodes.at m = some (.internal w l r) ∧ (n = l ∨ n = r)

/-- The present internal entry of merge `k`: its children are two different earlier nodes, its
weight is the sum of theirs with nothing lost, and the left one is no heavier. The order of two
children of equal weight is left open, as 41_tree.md rule R114 leaves it. -/
structure MergedFrom (nodes : Arena) (k : Nat) (w : Weight) (l r : NodeIndex) : Prop where
  earlier : l.toNat < 256 + k ∧ r.toNat < 256 + k
  children : ∃ nl nr, nodes.at l = some nl ∧ nodes.at r = some nr ∧
    w.toNat = nl.weight.toNat + nr.weight.toNat ∧
    l ≠ r ∧ nl.weight.toNat ≤ nr.weight.toNat

/-- Of two children of equal weight the left one has the smaller index: `TIEBREAK` = `INDEX_ASC`, this
hardware's resolution of ties (41_tree.md rule R112, last point, and rule R113; log 9). -/
def TiesByIndex (nodes : Arena) : Prop :=
  ∀ n w l r nl nr, nodes.at n = some (.internal w l r) → nodes.at l = some nl →
    nodes.at r = some nr → nl.weight = nr.weight → l.toNat < r.toNat

/-- `n` is in the priority collection when merge `k` begins: present, made before, and not yet the
child of an earlier merge (41_tree.md rule R111). -/
def inQueueAt (nodes : Arena) (k : Nat) (n : NodeIndex) (x : Node) : Prop :=
  n.toNat < 256 + k ∧ nodes.at n = some x ∧
    ∀ j < k, ¬childOf nodes n (mergeIndex j)

/-- The symbols of the leaves below a node, left to right (42_codegen.md rule R125). -/
def leavesBelow (nodes : Arena) (n : NodeIndex) : List Byte := (walk nodes walkDepth n []).map Prod.fst

/-- The root as 41_tree.md rule R115 gives it from the number of keys. -/
def RootOf (a : Arch) : Prop :=
  (keyCount a = 0 → a.root = none) ∧
  (keyCount a = 1 → ∃ sym, a.freqAt sym ≠ 0 ∧ a.root = some (leafIndex sym)) ∧
  (2 ≤ keyCount a → a.root = some (mergeIndex (keyCount a - 2)))

/-- What holds of the arena after `BUILD` under every resolution of ties (41_tree.md rules R112 and
R114, 10_state.md rule R29). -/
structure TreeShape (a : Arch) : Prop where
  leaves : ∀ sym : Byte, a.node.at (leafIndex sym) = leafEntry a sym
  merged : ∀ k, k + 1 < keyCount a → ∃ w l r,
    a.node.at (mergeIndex k) = some (.internal w l r) ∧ MergedFrom a.node k w l r
  absent : ∀ k, k < 255 → keyCount a ≤ k + 1 → a.node.at (mergeIndex k) = none
  oneParent : ∀ n, (a.node.at n).isSome = true → a.root ≠ some n → ∃! m, childOf a.node n m
  noParent : ∀ n m, a.root = some n → ¬childOf a.node n m
  root : RootOf a
  total : ∀ n x, a.root = some n → a.node.at n = some x → x.weight.toNat = totalWeight a

/-- Follow some choices down from a node, `false` to the left and `true` to the right (00_scope.md
rule R10). -/
def follow (nodes : Arena) : NodeIndex → List Bool → Option NodeIndex
  | n, [] => some n
  | n, b :: rest =>
    match nodes.at n with
    | none => none
    | some (.leaf _ _) => none
    | some (.internal _ l r) => follow nodes (if b then r else l) rest

/-- Whether every node reached from `n` by `depth` or fewer choices, on every path, ends in leaves:
no absent entry and no path longer than `depth` (42_codegen.md rule R132). -/
def fullyWalked (nodes : Arena) : Nat → NodeIndex → Bool
  | 0, _ => false
  | depth + 1, n =>
    match nodes.at n with
    | none => false
    | some (.leaf _ _) => true
    | some (.internal _ l r) => fullyWalked nodes depth l && fullyWalked nodes depth r

/-! ### The code map -/

/-- Every bit of `cbits` beyond the length is 0 (10_state.md rule R30). -/
def Code.canonical (c : Code) : Prop := ∀ j, c.len.toNat ≤ j → j < 256 → c.bits.getLsbD (255 - j) = false

/-- Every code of the map is stored in canonical form. -/
def CodesCanonical (a : Arch) : Prop := ∀ sym, (a.codeAt sym).canonical

/-- The sum over the keys of 2 to the power 255 - length, that is 2^255 times the sum of
42_codegen.md rule R128, last point. -/
def kraftSum (a : Arch) : Nat :=
  (allSymbols.map fun sym =>
    if a.freqAt sym = 0 then 0 else 2 ^ (255 - (a.clen sym).toNat)).sum

/-- What holds of the code map after `GEN` (42_codegen.md rule R128): coverage, prefix-freedom and
completeness. -/
structure CodeMapValid (a : Arch) : Prop where
  coverage : ∀ sym, a.clen sym ≠ 0 ↔ a.freqAt sym ≠ 0
  prefixFree : ∀ x y, x ≠ y → a.clen x ≠ 0 → a.clen y ≠ 0 → ¬codeBits a x <+: codeBits a y
  complete : 2 ≤ keyCount a → kraftSum a = 2 ^ 255
  single : keyCount a = 1 → kraftSum a = 2 ^ 254

/-- In phase `TREE` the arena is a tree of the table with its ties resolved by index; in phases `CODES`
and `DONE` the code map is a code of the table. -/
structure CodingSound (a : Arch) : Prop where
  tree : a.phase = .tree → TreeShape a
  ties : a.phase = .tree → TiesByIndex a.node
  codes : a.phase = .codes ∨ a.phase = .done → CodeMapValid a

/-- Everything the spec says holds between commands. -/
structure Inv (a : Arch) : Prop where
  fault : FaultRecord a
  phase : PhaseDiscipline a
  canonical : CodesCanonical a
  packer : packerTrusted a → PackerExact a
  coding : CodingSound a

end Sys2Proof.Machine
end

