-- ==== Sys2Proof/Certificates/Slice0/Obligations.lean ====
section
/-! DEFINITION. The statements for the provers, from the numbered rules of spec/. Where a statement
rests on a choice of the model, its docstring names the log entry. -/

open Sys2Proof Sys2Proof.Machine

/-! ### Encoding -/

/-- Words written out from 30_encoding.md rule R80 (95_test_vectors.md V-E1) decode to the commands
they stand for. -/
def Obligations.SpecWordsDecode : Prop :=
  decode 0x0100000000000000 = .ok .clear ∧
  decode 0x02FF000000000000 = .ok (.count 0xFF) ∧
  decode 0x03FF0000FFFFFFFF = .ok (.ldfreq 0xFF 0xFFFFFFFF) ∧
  decode 0x0400000000000000 = .ok .build ∧
  decode 0x0500000000000000 = .ok .gen ∧
  decode 0x0662000000000000 = .ok (.pack 0x62) ∧
  decode 0x0700000000000000 = .ok .flush ∧
  decode 0x0808000000000000 = .ok (.rdreg .packst) ∧
  decode 0x097A000000000000 = .ok (.rdfreq 0x7A) ∧
  decode 0x0A000000000001FE = .ok (.rdnode 510) ∧
  decode 0x0B61000000000000 = .ok (.rdclen 0x61) ∧
  decode 0x0C62000000000003 = .ok (.rdcode 0x62 3)

/-- Decoding the word of a command gives the command back, every operand at every value the encoding
admits. -/
def Obligations.DecodeOfEncodeIsTheCommand : Prop :=
  ∀ i : Instr, i.wellFormed = true → decode (encode i) = .ok i

/-- A word that decodes is the word of what it decodes to, which is well-formed: the decoder drops
no bit. -/
def Obligations.EncodeOfDecodeIsTheWord : Prop :=
  ∀ (w : CmdWord) (i : Instr), decode w = .ok i → encode i = w ∧ i.wellFormed = true

/-- The decoder reads the row of the opcode map that covers the word, and the operands from the
fields that rules R81 and R82 name. -/
def Obligations.DecoderFollowsTheOpcodeMap : Prop :=
  ∀ (w : CmdWord) (i : Instr), decode w = .ok i →
    (∃ r ∈ opcodeMap, r.mnemonic = i.mnemonic ∧ r.covers w = true) ∧
    fieldOp w = i.opcode ∧ fieldA w = i.operandA ∧ fieldZ w = 0 ∧ fieldImm w = i.operandImm

/-- 30_encoding.md rule R84 and 60_exceptions.md rule R175: a word is well-formed when exactly one
row of the map covers it; the malformed words are those the rule lists; one raises `ILLEGAL_CMD`
with `FINFO` the word and has no other effect; the all-zero and all-ones words are malformed. -/
def Obligations.MalformedWordsAreIllegal : Prop :=
  (∀ w : CmdWord, (∃ i, decode w = .ok i) ↔ ∃! r : OpcodeRow, r ∈ opcodeMap ∧ r.covers w = true) ∧
  (∀ w : CmdWord, (∃ e, decode w = .error e) ↔
    let op := (fieldOp w).toNat
    op = 0x00 ∨ 0x0D ≤ op ∨ fieldZ w ≠ 0 ∨
    (fieldA w ≠ 0 ∧ op ∈ [0x01, 0x04, 0x05, 0x07, 0x0A]) ∨
    (fieldImm w ≠ 0 ∧ op ∈ [0x01, 0x04, 0x05, 0x07, 0x02, 0x06, 0x09, 0x0B, 0x08]) ∨
    (op = 0x08 ∧ 9 ≤ (fieldA w).toNat) ∨
    (op = 0x0A ∧ 511 ≤ (fieldImm w).toNat) ∨
    (op = 0x0C ∧ 4 ≤ (fieldImm w).toNat)) ∧
  (∀ (w : CmdWord) (e : Malformed) (s : State), decode w = .error e → s.arch.fault = false →
    takeWord w s =
      .next { s with arch := { s.arch with fault := true, cause := .illegalCmd, finfo := w } }) ∧
  (∃ e, decode 0 = .error e) ∧ (∃ e, decode (BitVec.allOnes 64) = .error e)

/-! ### The step -/

/-- A step whose next host action is a command word that decodes runs that command on the state
without the word, and nothing else happens around it; that the host's words arrive through
`env.inputs` is the model's choice (log 1). -/
def Obligations.StepRunsTheDecodedCommand : Prop :=
  ∀ (s : State) (w : CmdWord) (rest : List HostEvent) (i : Instr),
    s.env.inputs = .command w :: rest → decode w = .ok i →
    step s = exec i { s with env := { s.env with inputs := rest } }

/-- A step with no command to run: with nothing presented the block waits (60_exceptions.md
section 8); a malformed word is dropped or raises `ILLEGAL_CMD`; a reset between commands gives the
reset state and retracts no output (70_reset_and_hazards.md section 1). That the host's words and
resets arrive through `env.inputs` is the model's choice (log 1). -/
def Obligations.StepWithoutACommand : Prop :=
  ∀ s : State,
    (s.env.inputs = [] → step s = .next s) ∧
    (∀ w rest e, s.env.inputs = .command w :: rest → decode w = .error e →
      step s =
        if s.arch.fault = true then .next { s with env := { s.env with inputs := rest } }
        else .next
          { arch := { s.arch with fault := true, cause := .illegalCmd, finfo := w }
            env := { s.env with inputs := rest } }) ∧
    (∀ rest, s.env.inputs = .reset :: rest →
      step s = .next { arch := Arch.reset, env := { s.env with inputs := rest } })

/-- 30_encoding.md rule R91: the order of checks on every word taken from the port. -/
def Obligations.OrderOfChecks : Prop :=
  ∀ (w : CmdWord) (s : State),
    (s.arch.fault = true →
      (∀ r, decode w = .ok (.rdreg r) → takeWord w s = respond (statusReg r s.arch) s) ∧
      ((∀ r, decode w ≠ .ok (.rdreg r)) → takeWord w s = .next s)) ∧
    (s.arch.fault = false → ∀ e, decode w = .error e →
      takeWord w s =
        .next { s with arch := { s.arch with fault := true, cause := .illegalCmd, finfo := w } }) ∧
    (s.arch.fault = false → ∀ i, decode w = .ok i → accepts i s.arch.phase = false →
      takeWord w s =
        .next { s with arch := { s.arch with fault := true, cause := .badPhase, finfo := w } }) ∧
    (s.arch.fault = false → ∀ i, decode w = .ok i → accepts i s.arch.phase = true →
      takeWord w s = exec i s ∧
      ∀ t, exec i s = .next t → t.arch.cause = s.arch.cause ∨
        t.arch.cause ∈ [.freqOvf, .noCode, .cntOvf, .sinkFail])

/-- 30_encoding.md rule R88: the acceptance table, cell by cell; a `BAD` cell raises `BAD_PHASE` and
changes nothing else; an accepted command that raises no fault leaves the phase the table gives. -/
def Obligations.PhaseAcceptanceTable : Prop :=
  (∀ p, accepts .clear p = true) ∧
  (∀ p sym, accepts (.count sym) p = true ↔ p = .table) ∧
  (∀ p sym cnt, accepts (.ldfreq sym cnt) p = true ↔ p = .table) ∧
  (∀ p, accepts .build p = true ↔ p = .table) ∧
  (∀ p, accepts .gen p = true ↔ p = .tree) ∧
  (∀ p sym, accepts (.pack sym) p = true ↔ p = .codes) ∧
  (∀ p, accepts .flush p = true ↔ p = .codes) ∧
  (∀ p reg, accepts (.rdreg reg) p = true) ∧
  (∀ p sym, accepts (.rdfreq sym) p = true) ∧
  (∀ p idx, accepts (.rdnode idx) p = true ↔ p = .tree) ∧
  (∀ p sym, accepts (.rdclen sym) p = true ↔ p = .codes ∨ p = .done) ∧
  (∀ p sym chunk, accepts (.rdcode sym chunk) p = true ↔ p = .codes ∨ p = .done) ∧
  (∀ (i : Instr) (s : State), i.wellFormed = true → s.arch.fault = false →
    accepts i s.arch.phase = false →
    exec i s =
      .next { s with arch := { s.arch with fault := true, cause := .badPhase, finfo := encode i } }) ∧
  (∀ (i : Instr) (s t : State), exec i s = .next t → s.arch.fault = false →
    t.arch.fault = false → t.arch.phase = phaseAfter i s.arch.phase)

/-! ### Faults -/

/-- 60_exceptions.md rule R173: while `FAULT` = 1 a well-formed `RDREG` responds and every other word
is dropped; `CAUSE` and `FINFO` keep the first fault's values. -/
def Obligations.FaultedBlockDropsEveryOtherWord : Prop :=
  ∀ (w : CmdWord) (s : State), s.arch.fault = true →
    (∀ r, decode w = .ok (.rdreg r) → takeWord w s = respond (statusReg r s.arch) s) ∧
    ((∀ r, decode w ≠ .ok (.rdreg r)) → takeWord w s = .next s) ∧
    (∀ t, takeWord w s = .next t → t.arch = s.arch ∧ t.env.out = s.env.out)

/-- 60_exceptions.md rule R172: a command that ends with a fault it raised has made exactly the three
writes, and nothing else has changed; after `SINK_FAIL` only the packer registers and the bytes the
sink had accepted differ besides; no response; the pin rises; no later command but `RDREG` has any
effect. -/
def Obligations.FaultEntryIsPrecise : Prop :=
  ∀ (i : Instr) (s t : State), s.arch.fault = false → exec i s = .next t → t.arch.fault = true →
    (t.arch.cause ≠ .sinkFail →
      t = { s with arch := { s.arch with fault := true, cause := t.arch.cause, finfo := encode i } }) ∧
    (t.arch.cause = .sinkFail →
      t.arch = { s.arch with
        fault := true, cause := .sinkFail, finfo := encode i, pk := t.arch.pk } ∧
      t.env.rsp = s.env.rsp ∧ t.env.inputs = s.env.inputs ∧ t.env.taker = s.env.taker ∧
      s.env.out <+: t.env.out) ∧
    t.faultPin = true ∧
    (∀ j, runsWhileFaulted j = false → exec j t = .next t)

/-- 60_exceptions.md rule R183: no step but a reset leaves the faulted state, a reset puts every
piece of state back to its reset value, and bytes already accepted remain in `OUT`. -/
def Obligations.OnlyResetLeavesTheFaultedState : Prop :=
  ∀ s t : State, s.arch.fault = true → step s = .next t →
    s.env.out <+: t.env.out ∧
    (t.arch = s.arch ∨
      (t.arch = Arch.reset ∧
        ((∃ rest, s.env.inputs = .reset :: rest) ∨ ∃ w rest, s.env.inputs = .cutShort w :: rest))) ∧
    (∀ rest, s.env.inputs = .reset :: rest → t.arch = Arch.reset)

/-- What the packer registers hold in a faulted block, free values after `SINK_FAIL` (log 4), matters
only to a host that reads registers 5 to 8 (60_exceptions.md section 6): with any other values, a
step that is no such read shows the outside the same and leaves everything else the same. -/
def Obligations.PackerOfAFaultedBlockIsSeenOnlyInItsRegisters : Prop :=
  ∀ (s t : State) (pk : Packer), s.arch.fault = true → step s = .next t →
    (∀ w rest r, s.env.inputs = .command w :: rest → decode w = .ok (.rdreg r) →
      r ∈ [.status, .finfo, .nsym, .totalw, .root]) →
    ∃ u, step { s with arch := { s.arch with pk := pk } } = .next u ∧ u.observe = t.observe ∧
      u.env = t.env ∧ u.arch = { t.arch with pk := u.arch.pk }

/-- 60_exceptions.md rule R171: a command raises only the faults its row lists; a malformed word, of
a reserved opcode or not, always raises `ILLEGAL_CMD`. -/
def Obligations.FaultsEachCommandCanRaise : Prop :=
  (∀ (i : Instr) (s t : State), i.wellFormed = true → s.arch.fault = false →
    exec i s = .next t → t.arch.fault = true → t.arch.cause ∈ mayRaise i) ∧
  (∀ (w : CmdWord) (e : Malformed) (s t : State), decode w = .error e → s.arch.fault = false →
    takeWord w s = .next t → t.arch.fault = true ∧ t.arch.cause = .illegalCmd)

/-- 60_exceptions.md rule R178: `PACK` of a symbol with no code raises `NO_CODE`, whatever the
counters hold; nothing is written and no packer register
changes; `FINFO.A` is the uncovered byte. -/
def Obligations.PackWithoutACodeRaisesNoCode : Prop :=
  ∀ (sym : Byte) (s : State), s.ready .codes → s.arch.clen sym = 0 →
    exec (.pack sym) s =
      .next { s with arch := { s.arch with
        fault := true, cause := .noCode, finfo := encode (.pack sym) } } ∧
    fieldA (encode (.pack sym)) = sym

/-- `PACK` that would carry `INLEN` or `BITCNT` past 2^64 - 1 raises `CNT_OVF` before any bit is
shifted in (60_exceptions.md section 6). -/
def Obligations.PackPastTheCountersRaisesCntOvf : Prop :=
  ∀ (sym : Byte) (s : State), s.ready .codes → s.arch.clen sym ≠ 0 →
    (s.arch.pk.inlen.toNat = 2 ^ 64 - 1 ∨
      2 ^ 64 - 1 < s.arch.pk.bitcnt.toNat + (s.arch.clen sym).toNat) →
    exec (.pack sym) s =
      .next { s with arch := { s.arch with
        fault := true, cause := .cntOvf, finfo := encode (.pack sym) } }

/-- 60_exceptions.md rules R180 and R181. For `PACK`: the sink accepts `m` bytes of the command and
fails the next; those bytes are in `OUT` and no more; no further byte is offered. For `FLUSH`: the
one byte is failed and `OUT` is unchanged. The packer registers are the free values (log 4);
everything else is exact, the phase still `CODES`. The sink's answers stand in `env.sink` (log 2). -/
def Obligations.FailedWriteStopsTheCommand : Prop :=
  (∀ (sym : Byte) (s : State) (m : Nat) (later : List SinkAnswer), s.ready .codes →
    s.arch.clen sym ≠ 0 → s.arch.pk.inlen.toNat ≠ 2 ^ 64 - 1 →
    s.arch.pk.bitcnt.toNat + (s.arch.clen sym).toNat ≤ 2 ^ 64 - 1 →
    m < (s.arch.pk.nheld.toNat + (s.arch.clen sym).toNat) / 8 →
    s.env.sink = List.replicate m .ok ++ .fail :: later →
    ∃ bytes : List Byte, bytes.length = m ∧
      bytes.flatMap byteBits = (heldBits s.arch.pk ++ codeBits s.arch sym).take (8 * m) ∧
      exec (.pack sym) s =
        .next
          { arch := { s.arch with
              fault := true, cause := .sinkFail, finfo := encode (.pack sym)
              pk := unspecifiedPacker s.env.draws }
            env := { s.env with
              out := s.env.out ++ bytes, sink := later, draws := s.env.draws + 1 } }) ∧
  (∀ (s : State) (later : List SinkAnswer), s.ready .codes → s.arch.pk.nheld ≠ 0 →
    s.env.sink = .fail :: later →
    exec .flush s =
      .next
        { arch := { s.arch with
            fault := true, cause := .sinkFail, finfo := encode .flush
            pk := unspecifiedPacker s.env.draws }
          env := { s.env with sink := later, draws := s.env.draws + 1 } })

/-- The block waits for ever at a port that is never answered (70_reset_and_hazards.md rule R214;
that the model then stops with a named fault is its choice, log 3 and log 8): a read command whose
response is never taken, a `FLUSH` or a `PACK` one of whose bytes is never taken. -/
def Obligations.UnansweredPortIsStuck : Prop :=
  (∀ (i : Instr) (s : State), isRead i = true → i.wellFormed = true → s.arch.fault = false →
    accepts i s.arch.phase = true → s.env.takesNext = false →
    ∃ v, exec i s = .fault (.responseNeverTaken v)) ∧
  (∀ (s : State) (later : List SinkAnswer), s.ready .codes → s.arch.pk.nheld ≠ 0 →
    s.env.sink = .never :: later → exec .flush s = .fault (.sinkNeverReady [])) ∧
  (∀ (sym : Byte) (s : State) (m : Nat) (later : List SinkAnswer), s.ready .codes →
    s.arch.clen sym ≠ 0 → s.arch.pk.inlen.toNat ≠ 2 ^ 64 - 1 →
    s.arch.pk.bitcnt.toNat + (s.arch.clen sym).toNat ≤ 2 ^ 64 - 1 →
    m < (s.arch.pk.nheld.toNat + (s.arch.clen sym).toNat) / 8 →
    s.env.sink = List.replicate m .ok ++ .never :: later →
    ∃ bytes : List Byte, bytes.length = m ∧
      exec (.pack sym) s = .fault (.sinkNeverReady bytes))

/-! ### Frequency table -/

/-- 40_frequency.md rule R100: the word of `COUNT sym`; in phase `TABLE` below the maximum it adds one
to the count of its symbol and changes nothing else, so that `TOTALW` reads one more, and `NSYM` one
more exactly when the count was 0; at the maximum it raises `FREQ_OVF`; in another phase
`BAD_PHASE`; a malformed word of its opcode is `ILLEGAL_CMD`. -/
def Obligations.CountAddsOne : Prop :=
  ∀ (sym : Byte) (s : State),
    (encode (.count sym)).toNat = 0x02 * 2 ^ 56 + sym.toNat * 2 ^ 48 ∧
    (s.ready .table → (s.arch.freqAt sym).toNat < 2 ^ 32 - 1 →
      ∃ t, exec (.count sym) s = .next t ∧
        (t.arch.freqAt sym).toNat = (s.arch.freqAt sym).toNat + 1 ∧
        (∀ x, x ≠ sym → t.arch.freqAt x = s.arch.freqAt x) ∧
        t = { s with arch := { s.arch with freq := t.arch.freq } } ∧
        (statusReg .totalw t.arch).toNat = (statusReg .totalw s.arch).toNat + 1 ∧
        (statusReg .nsym t.arch).toNat =
          (statusReg .nsym s.arch).toNat + (if s.arch.freqAt sym = 0 then 1 else 0)) ∧
    (s.ready .table → (s.arch.freqAt sym).toNat = 2 ^ 32 - 1 →
      exec (.count sym) s = .next (raiseFault .freqOvf (encode (.count sym)) s)) ∧
    (s.arch.fault = false → s.arch.phase ≠ .table →
      exec (.count sym) s = .next (raiseFault .badPhase (encode (.count sym)) s)) ∧
    malformedRefused 0x02 s

/-- 40_frequency.md rule R101: the word of `LDFREQ sym, count`; in phase `TABLE` it sets the count of
its symbol, count 0 included (the symbol is then no key), and changes nothing else, whatever the
count was; in another phase `BAD_PHASE`; a malformed word of its opcode is `ILLEGAL_CMD`. -/
def Obligations.LdfreqSetsTheCount : Prop :=
  ∀ (sym : Byte) (cnt : Count) (s : State),
    (encode (.ldfreq sym cnt)).toNat = 0x03 * 2 ^ 56 + sym.toNat * 2 ^ 48 + cnt.toNat ∧
    (s.ready .table →
      ∃ t, exec (.ldfreq sym cnt) s = .next t ∧
        t.arch.freqAt sym = cnt ∧
        (∀ x, x ≠ sym → t.arch.freqAt x = s.arch.freqAt x) ∧
        t = { s with arch := { s.arch with freq := t.arch.freq } }) ∧
    (s.arch.fault = false → s.arch.phase ≠ .table →
      exec (.ldfreq sym cnt) s = .next (raiseFault .badPhase (encode (.ldfreq sym cnt)) s)) ∧
    malformedRefused 0x03 s

/-- 40_frequency.md rule R102: the word of `RDFREQ sym`; it responds with the count in every phase,
bits 63 to 32 zero, and changes no state; a malformed word of its opcode is `ILLEGAL_CMD`. -/
def Obligations.RdfreqResponds : Prop :=
  ∀ (sym : Byte) (s : State),
    (encode (.rdfreq sym)).toNat = 0x09 * 2 ^ 56 + sym.toNat * 2 ^ 48 ∧
    (s.arch.fault = false → s.env.takesNext = true →
      ∃ v : RspWord, exec (.rdfreq sym) s = .next { s with env := s.env.afterResponse v } ∧
        v.toNat = (s.arch.freqAt sym).toNat) ∧
    malformedRefused 0x09 s

/-- 10_state.md section 8: `NSYM` and `TOTALW` are the number of keys and the sum of the counts,
exactly, in every state. -/
def Obligations.DerivedRegistersAreExact : Prop :=
  ∀ a : Arch,
    (statusReg .nsym a).toNat = keyCount a ∧ keyCount a ≤ 256 ∧
    (statusReg .totalw a).toNat = totalWeight a ∧ totalWeight a ≤ 256 * (2 ^ 32 - 1) ∧
    keyCount a = (allSymbols.filter fun sym => a.freqAt sym != 0).length ∧
    totalWeight a = (allSymbols.map fun sym => (a.freqAt sym).toNat).sum

/-- The frequency-table builder (40_frequency.md section 1): counting some bytes, in any order, adds
to each count the number of times its symbol occurs, and changes nothing else. -/
def Obligations.CountingBytesAddsTheirOccurrences : Prop :=
  ∀ (input : List Byte) (s : State), s.ready .table →
    (∀ sym, (s.arch.freqAt sym).toNat + input.count sym < 2 ^ 32) →
    ∃ t, execAll (input.map .count) s = .next t ∧
      (∀ sym, (t.arch.freqAt sym).toNat = (s.arch.freqAt sym).toNat + input.count sym) ∧
      t = { s with arch := { s.arch with freq := t.arch.freq } }

/-! ### Tree builder -/

/-- 41_tree.md rule R113: `ExtractMin` removes and returns the element least by weight and then by
index; it answers whenever `Q` is not empty; and so `BUILD` is a function of the table. -/
def Obligations.ExtractMinIsLeast : Prop :=
  (∀ q : List QItem, q ≠ [] → ∃ x rest, extractMin q = some (x, rest)) ∧
  (∀ (q rest : List QItem) (x : QItem), extractMin q = some (x, rest) →
    x ∈ q ∧ q.Perm (x :: rest) ∧
    ∀ y ∈ q, y = x ∨ x.1.toNat < y.1.toNat ∨ (x.1 = y.1 ∧ x.2.toNat < y.2.toNat)) ∧
  (∀ a b : Arch, a.freq = b.freq →
    (buildTree a).node = (buildTree b).node ∧ (buildTree a).root = (buildTree b).root)

/-- `BUILD` completes on every table and leaves the tree of that table, of two children of equal weight
the one of smaller index on the left (41_tree.md rules R111 and R112), changing only the arena, the
root and the phase. -/
def Obligations.BuildMakesTheTree : Prop :=
  ∀ s : State, s.ready .table →
    ∃ t, exec .build s = .next t ∧ TreeShape t.arch ∧ TiesByIndex t.arch.node ∧
      t = { s with arch := { s.arch with
        node := t.arch.node, root := t.arch.root, phase := .tree } }

/-- Each merge of `BUILD` takes the two least nodes then in the priority collection, the first as
the left child (41_tree.md rules R111 and R113). -/
def Obligations.BuildMergesTheTwoLeast : Prop :=
  ∀ (a : Arch) (k : Nat) (w : Weight) (l r : NodeIndex), k + 1 < keyCount a →
    (buildTree a).node.at (mergeIndex k) = some (.internal w l r) →
    ∃ nl nr, inQueueAt (buildTree a).node k l nl ∧ inQueueAt (buildTree a).node k r nr ∧
      ∀ n x, inQueueAt (buildTree a).node k n x →
        (n ≠ l → QItem.before (nl.weight, l) (x.weight, n) = true) ∧
        (n ≠ l → n ≠ r → QItem.before (nr.weight, r) (x.weight, n) = true)

/-- 41_tree.md rule R115: the arena and the root after `BUILD` of an empty table, of one key, of two
or more keys; no fault for any number of keys. -/
def Obligations.BuildEdgeCases : Prop :=
  ∀ s t : State, s.ready .table → exec .build s = .next t →
    t.arch.fault = false ∧
    (keyCount s.arch = 0 → (∀ n, t.arch.node.at n = none) ∧ t.arch.root = none ∧
      statusReg .root t.arch = 0) ∧
    (∀ sym, keyCount s.arch = 1 → s.arch.freqAt sym ≠ 0 →
      (∀ n, t.arch.node.at n =
        if n = leafIndex sym then some (.leaf (leafWeight s.arch sym) sym) else none) ∧
      t.arch.root = some (leafIndex sym) ∧ (statusReg .root t.arch).toNat = 512 + sym.toNat) ∧
    (2 ≤ keyCount s.arch →
      (∀ sym, (t.arch.node.at (leafIndex sym)).isSome = true ↔ s.arch.freqAt sym ≠ 0) ∧
      (∀ k, k < 255 → ((t.arch.node.at (mergeIndex k)).isSome = true ↔ k + 2 ≤ keyCount s.arch)) ∧
      t.arch.root = some (mergeIndex (keyCount s.arch - 2)) ∧
      (statusReg .root t.arch).toNat = 512 + (256 + (keyCount s.arch - 2)))

/-- In a tree of the table, the weight of every internal node is the sum of the weights of the
leaves below it, and the leaves below the root are the keys, each once (41_tree.md section 2). -/
def Obligations.WeightIsTheSumOfTheLeavesBelow : Prop :=
  ∀ a : Arch, TreeShape a →
    (∀ n w l r, a.node.at n = some (.internal w l r) →
      w.toNat = ((leavesBelow a.node n).map fun sym => (a.freqAt sym).toNat).sum) ∧
    (∀ n, a.root = some n → (leavesBelow a.node n).Perm (keys a))

/-- 41_tree.md rule R116: the word of `RDNODE idx`; in phase `TREE` it responds with the fields of the
entry at their places, 0 for an absent entry, and changes no state; the symbol of a leaf is its
index; in another phase `BAD_PHASE`; a malformed word of its opcode is `ILLEGAL_CMD`. -/
def Obligations.RdnodeResponds : Prop :=
  ∀ (idx : NodeIndex) (s : State), idx.toNat ≤ 510 →
    (encode (.rdnode idx)).toNat = 0x0A * 2 ^ 56 + idx.toNat ∧
    (s.ready .tree → s.env.takesNext = true →
      ∃ v : RspWord, exec (.rdnode idx) s = .next { s with env := s.env.afterResponse v } ∧
        (s.arch.node.at idx = none → v = 0) ∧
        (∀ w sym, s.arch.node.at idx = some (.leaf w sym) →
          v.toNat = 2 ^ 63 + w.toNat * 2 ^ 18 + sym.toNat) ∧
        (∀ w l r, s.arch.node.at idx = some (.internal w l r) →
          v.toNat = 2 ^ 63 + 2 ^ 62 + w.toNat * 2 ^ 18 + l.toNat * 2 ^ 9 + r.toNat)) ∧
    (TreeShape s.arch → ∀ w sym, s.arch.node.at idx = some (.leaf w sym) →
      sym.toNat = idx.toNat) ∧
    (s.arch.fault = false → s.arch.phase ≠ .tree →
      exec (.rdnode idx) s = .next (raiseFault .badPhase (encode (.rdnode idx)) s)) ∧
    malformedRefused 0x0A s

/-! ### Code-map generator -/

/-- 42_codegen.md rule R129: `GEN` completes in phase `TREE`, writes the code map, discards the tree,
and changes nothing else; `RDNODE` is then refused with `BAD_PHASE`. -/
def Obligations.GenDiscardsTheTree : Prop :=
  ∀ s : State, s.ready .tree →
    ∃ t, exec .gen s = .next t ∧
      t = { s with arch := { s.arch with
        cmap := t.arch.cmap, node := Arena.empty, root := none, phase := .codes } } ∧
      (∀ n, t.arch.node.at n = none) ∧
      ∀ idx : NodeIndex, idx.toNat ≤ 510 →
        exec (.rdnode idx) t = .next (raiseFault .badPhase (encode (.rdnode idx)) t)

/-- 42_codegen.md rule R127: the code of the only key is the single bit 0; with more keys every code
is a path of at least one choice; so no key has an empty code, and a symbol that is no key has no
code. -/
def Obligations.SingleKeyGetsTheCodeZero : Prop :=
  ∀ s t : State, s.ready .tree → TreeShape s.arch → exec .gen s = .next t →
    (∀ sym, s.arch.freqAt sym ≠ 0 → keyCount s.arch = 1 →
      codeBits t.arch sym = [false] ∧ t.arch.clen sym = 1 ∧ t.arch.cbits sym = 0) ∧
    (∀ sym, s.arch.freqAt sym ≠ 0 → 1 ≤ (t.arch.clen sym).toNat) ∧
    (∀ sym, s.arch.freqAt sym = 0 → t.arch.codeAt sym = Code.absent)

/-- 42_codegen.md rule R128 for every tree of the table, however ties were resolved: the code map covers exactly the keys, as many
as the tree has leaves; it is prefix-free and fills the binary tree (sum 1 for two or more keys, 1/2
for one); with two or more keys the codes are exactly the paths from the root to the leaves, left 0
and right 1, so the length of a code is the depth of its leaf, and it is 1 when there is one key. -/
def Obligations.GenMakesAPrefixFreeCode : Prop :=
  ∀ s t : State, s.ready .tree → TreeShape s.arch → exec .gen s = .next t →
    CodeMapValid t.arch ∧
    (∀ n, s.arch.root = some n → (leavesBelow s.arch.node n).length = keyCount s.arch) ∧
    (∀ sym n path, 2 ≤ keyCount s.arch → s.arch.root = some n →
      (follow s.arch.node n path = some (leafIndex sym) ↔
        t.arch.clen sym ≠ 0 ∧ codeBits t.arch sym = path)) ∧
    (∀ sym, (codeBits t.arch sym).length = (t.arch.clen sym).toNat) ∧
    (∀ sym, s.arch.freqAt sym ≠ 0 → keyCount s.arch = 1 → t.arch.clen sym = 1)

/-- 42_codegen.md rule R132: a code has at most N - 1 bits when there are N keys, N at least 2, and
the walk's bound on the depth is never met (so the case of log 12 does not arise). -/
def Obligations.CodeLengthBound : Prop :=
  ∀ s t : State, s.ready .tree → TreeShape s.arch → exec .gen s = .next t →
    (2 ≤ keyCount s.arch → ∀ sym, (t.arch.clen sym).toNat ≤ keyCount s.arch - 1) ∧
    (∀ n, s.arch.root = some n → fullyWalked s.arch.node walkDepth n = true)

/-- 42_codegen.md rule R130: the word of `RDCLEN sym`; in phases `CODES` and `DONE` it responds with
the length, bits 63 to 8 zero, and changes no state; in the other phases `BAD_PHASE`; a malformed
word of its opcode is `ILLEGAL_CMD`. -/
def Obligations.RdclenResponds : Prop :=
  ∀ (sym : Byte) (s : State),
    (encode (.rdclen sym)).toNat = 0x0B * 2 ^ 56 + sym.toNat * 2 ^ 48 ∧
    (s.ready .codes ∨ s.ready .done → s.env.takesNext = true →
      ∃ v : RspWord, exec (.rdclen sym) s = .next { s with env := s.env.afterResponse v } ∧
        v.toNat = (s.arch.clen sym).toNat) ∧
    (s.ready .table ∨ s.ready .tree →
      exec (.rdclen sym) s = .next (raiseFault .badPhase (encode (.rdclen sym)) s)) ∧
    malformedRefused 0x0B s

/-- 42_codegen.md rule R131: the word of `RDCODE sym, chunk`; in phases `CODES` and `DONE` it responds
with the chunk of `cbits` and changes no state; bit 63 - j is code bit 64*chunk + j, and 0 past the
end of the code; in the other phases `BAD_PHASE`; a malformed word of its opcode is
`ILLEGAL_CMD`. -/
def Obligations.RdcodeResponds : Prop :=
  ∀ (sym : Byte) (chunk : BitVec 2) (s : State),
    (encode (.rdcode sym chunk)).toNat = 0x0C * 2 ^ 56 + sym.toNat * 2 ^ 48 + chunk.toNat ∧
    (s.ready .codes ∨ s.ready .done → s.env.takesNext = true →
      ∃ v : RspWord, exec (.rdcode sym chunk) s = .next { s with env := s.env.afterResponse v } ∧
        (∀ j < 64, v.getLsbD j = (s.arch.cbits sym).getLsbD (192 - 64 * chunk.toNat + j)) ∧
        ((s.arch.codeAt sym).canonical →
          ∀ j < 64, v.getLsbD (63 - j) = (codeBits s.arch sym).getD (64 * chunk.toNat + j) false)) ∧
    (s.ready .table ∨ s.ready .tree →
      exec (.rdcode sym chunk) s = .next (raiseFault .badPhase (encode (.rdcode sym chunk)) s)) ∧
    malformedRefused 0x0C s

/-! ### Bit-packer -/

/-- 43_pack.md rule R141, the one-bit step: `ACC` shifted left by one with the bit at the low
position, one more bit counted; an eighth bit sends the byte of the eight most recent bits to the
sink and clears `ACC` and `NHELD`, and a failed write stops it. -/
def Obligations.ShiftInStep : Prop :=
  ∀ (b : Bool) (pk : Packer) (e : Env),
    (shiftedAcc b pk).toNat = (2 * pk.acc.toNat + b.toNat) % 256 ∧
    (pk.nheld ≠ 7 →
      shiftIn b pk e =
        .going { pk with
          acc := shiftedAcc b pk, bitcnt := pk.bitcnt + 1, nheld := pk.nheld + 1 } e) ∧
    (pk.nheld = 7 → byteBits (shiftedAcc b pk) = heldBits pk ++ [b]) ∧
    (pk.nheld = 7 → e.sinkAccepts 1 = true →
      shiftIn b pk e =
        .going { pk with acc := 0, nheld := 0, bitcnt := pk.bitcnt + 1, outlen := pk.outlen + 1 }
          (e.afterBytes [shiftedAcc b pk])) ∧
    (∀ later, pk.nheld = 7 → e.sink = .fail :: later →
      shiftIn b pk e = .failed { e with sink := later })

/-- `PACK` of a covered symbol, the sink accepting its bytes: the code is appended to the stream of
bits, whole bytes go to the sink, the counters advance, and nothing else changes (43_pack.md section
3). -/
def Obligations.PackAppendsTheCode : Prop :=
  ∀ (sym : Byte) (s : State), s.ready .codes → s.arch.clen sym ≠ 0 →
    s.arch.pk.inlen.toNat ≠ 2 ^ 64 - 1 →
    s.arch.pk.bitcnt.toNat + (s.arch.clen sym).toNat ≤ 2 ^ 64 - 1 →
    s.env.sinkAccepts ((s.arch.pk.nheld.toNat + (s.arch.clen sym).toNat) / 8) = true →
    ∃ (pk : Packer) (bytes : List Byte),
      exec (.pack sym) s =
        .next { arch := { s.arch with pk := pk }, env := s.env.afterBytes bytes } ∧
      bytes.length = (s.arch.pk.nheld.toNat + (s.arch.clen sym).toNat) / 8 ∧
      bytes.flatMap byteBits ++ heldBits pk = heldBits s.arch.pk ++ codeBits s.arch sym ∧
      pk.nheld.toNat = (s.arch.pk.nheld.toNat + (s.arch.clen sym).toNat) % 8 ∧
      (s.arch.pk.acc.toNat < 2 ^ s.arch.pk.nheld.toNat → pk.acc.toNat < 2 ^ pk.nheld.toNat) ∧
      pk.bitcnt.toNat = s.arch.pk.bitcnt.toNat + (s.arch.clen sym).toNat ∧
      pk.inlen.toNat = s.arch.pk.inlen.toNat + 1 ∧
      pk.outlen = s.arch.pk.outlen + BitVec.ofNat 64 bytes.length ∧
      pk.padbits = s.arch.pk.padbits

/-- 43_pack.md rule R143: the word of `FLUSH`; with no bit held nothing is written and `PADBITS` is 0;
with 1 to 7 held, one byte goes to the sink, the held bits oldest highest and zeros below, and
`PADBITS` is their number; either way `PHASE` is then `DONE` and `BITCNT` and `INLEN` keep their
values; a failed write raises `SINK_FAIL`; in another phase `BAD_PHASE`; a malformed word of its
opcode is `ILLEGAL_CMD`. -/
def Obligations.FlushPadsAndCloses : Prop :=
  encode .flush = 0x0700000000000000 ∧
  ∀ s : State,
    (s.ready .codes → s.arch.pk.nheld = 0 →
      exec .flush s =
        .next { s with arch := { s.arch with
          pk := { s.arch.pk with padbits := 0 }, phase := .done } }) ∧
    (s.ready .codes → s.arch.pk.nheld ≠ 0 → s.env.sinkAccepts 1 = true →
      ∃ byte : Byte,
        byteBits byte = heldBits s.arch.pk ++ List.replicate (8 - s.arch.pk.nheld.toNat) false ∧
        exec .flush s =
          .next
            { arch := { s.arch with
                pk := { s.arch.pk with
                  acc := 0, nheld := 0, outlen := s.arch.pk.outlen + 1
                  padbits := BitVec.ofNat 3 (8 - s.arch.pk.nheld.toNat) }
                phase := .done }
              env := s.env.afterBytes [byte] }) ∧
    (∀ later, s.ready .codes → s.arch.pk.nheld ≠ 0 → s.env.sink = .fail :: later →
      ∃ t, exec .flush s = .next t ∧ t.arch.cause = .sinkFail ∧ t.arch.phase = .codes) ∧
    (s.arch.fault = false → s.arch.phase ≠ .codes →
      exec .flush s = .next (raiseFault .badPhase (encode .flush) s)) ∧
    malformedRefused 0x07 s

/-- After `FLUSH` has closed a stream, `OUTLEN` is the number of bits divided by 8 rounded up and
`PADBITS` the distance to the byte boundary (43_pack.md section 5); the
padding bits of the last byte are 0. -/
def Obligations.OutputLengthAndPadding : Prop :=
  ∀ s t : State, s.ready .codes → PackerExact s.arch → exec .flush s = .next t →
    t.arch.fault = false →
    t.arch.pk.outlen.toNat = (t.arch.pk.bitcnt.toNat + 7) / 8 ∧
    t.arch.pk.padbits.toNat = (8 - t.arch.pk.bitcnt.toNat % 8) % 8 ∧
    (∀ b, t.env.out = s.env.out ++ [b] → ∀ j < t.arch.pk.padbits.toNat, b.getLsbD j = false)

/-- The output as a function of the input (43_pack.md section 5): packing some covered bytes from an
empty packer and flushing, every write answered `ok`, appends to `OUT` the encoded bit sequence
packed as 20_memory.md rule R61 says, and the registers count it. -/
def Obligations.PackedStreamIsTheEncoding : Prop :=
  ∀ (input : List Byte) (s : State), s.ready .codes → s.arch.pk = Packer.zero →
    (∀ x ∈ input, s.arch.clen x ≠ 0) → input.length < 2 ^ 64 →
    (encodedBits s.arch input).length < 2 ^ 64 →
    s.env.sinkAccepts (((encodedBits s.arch input).length + 7) / 8) = true →
    ∃ (pk : Packer) (bytes : List Byte),
      execAll (input.map .pack ++ [.flush]) s =
        .next { arch := { s.arch with pk := pk, phase := .done }, env := s.env.afterBytes bytes } ∧
      PackedAs bytes (encodedBits s.arch input) ∧
      pk.inlen.toNat = input.length ∧
      pk.bitcnt.toNat = (encodedBits s.arch input).length ∧
      pk.outlen.toNat = bytes.length ∧
      pk.padbits.toNat = (8 - (encodedBits s.arch input).length % 8) % 8 ∧
      pk.acc = 0 ∧ pk.nheld = 0

/-- The encoded bits together with the code map determine the input (43_pack.md section 5): two
inputs of covered bytes with the same encoding are the same. -/
def Obligations.EncodingIsUniquelyDecodable : Prop :=
  ∀ (a : Arch) (x y : List Byte), CodeMapValid a →
    (∀ c ∈ x, a.clen c ≠ 0) → (∀ c ∈ y, a.clen c ≠ 0) →
    encodedBits a x = encodedBits a y → x = y

/-- Empty input (40_frequency.md section 5): from a cleared table, `BUILD`, `GEN` and `FLUSH` write
nothing, raise no fault, and leave everything as it was but the phase. -/
def Obligations.EmptyInputIsNoFault : Prop :=
  ∀ s : State, s.ready .table → PhaseDiscipline s.arch → keyCount s.arch = 0 →
    execAll [.build, .gen, .flush] s = .next { s with arch := { s.arch with phase := .done } }

/-! ### System commands and reset -/

/-- 44_system.md rule R160: the word of `CLEAR`; in every phase, with `FAULT` = 0, it puts every piece
of state but the fault registers back to its reset value, and with the fault registers as they are
while `FAULT` = 0 that is the reset state; no output is touched; with `FAULT` = 1 it is dropped; a malformed word of its opcode is
`ILLEGAL_CMD`, dropped too with `FAULT` = 1. -/
def Obligations.ClearStartsOver : Prop :=
  encode .clear = 0x0100000000000000 ∧
  ∀ s : State,
    (s.arch.fault = false →
      exec .clear s =
        .next { s with arch := { Arch.reset with cause := s.arch.cause, finfo := s.arch.finfo } }) ∧
    (s.arch.fault = false → FaultRecord s.arch →
      exec .clear s = .next { s with arch := Arch.reset }) ∧
    (s.arch.fault = true → exec .clear s = .next s) ∧
    malformedRefused 0x01 s

/-- 44_system.md rule R161: the word of `RDREG reg`; it responds in every phase, and also while
`FAULT` = 1, with the register laid out as 10_state.md rule R34 says, and changes no state; a malformed
word of its opcode is `ILLEGAL_CMD`, and dropped while `FAULT` = 1. -/
def Obligations.RdregResponds : Prop :=
  ∀ (reg : StatusReg) (s : State),
    (encode (.rdreg reg)).toNat = 0x08 * 2 ^ 56 + reg.number.toNat * 2 ^ 48 ∧
    (s.env.takesNext = true →
    ∃ v : RspWord, exec (.rdreg reg) s = .next { s with env := s.env.afterResponse v } ∧
      match reg with
      | .status =>
        reg.number = 0 ∧ v.toNat =
          (match s.arch.phase with | .table => 0 | .tree => 1 | .codes => 2 | .done => 3) +
          4 * s.arch.fault.toNat +
          16 * (match s.arch.cause with
            | .noFault => 0 | .illegalCmd => 1 | .badPhase => 2 | .freqOvf => 3 | .noCode => 4
            | .sinkFail => 5 | .cntOvf => 6)
      | .finfo => reg.number = 1 ∧ v = s.arch.finfo
      | .nsym => reg.number = 2 ∧ v.toNat = keyCount s.arch
      | .totalw => reg.number = 3 ∧ v.toNat = totalWeight s.arch
      | .root =>
        reg.number = 4 ∧ v.toNat = (match s.arch.root with | none => 0 | some n => 512 + n.toNat)
      | .inlen => reg.number = 5 ∧ v = s.arch.pk.inlen
      | .bitcnt => reg.number = 6 ∧ v = s.arch.pk.bitcnt
      | .outlen => reg.number = 7 ∧ v = s.arch.pk.outlen
      | .packst =>
        reg.number = 8 ∧ v.toNat =
          s.arch.pk.acc.toNat + 256 * s.arch.pk.nheld.toNat + 4096 * s.arch.pk.padbits.toNat) ∧
    malformedRefused 0x08 s

/-- The reset values of 10_state.md section 12, every piece of state and every register. -/
def Obligations.ResetValues : Prop :=
  let a := State.reset.arch
  a.phase = .table ∧ a.fault = false ∧ a.cause = .noFault ∧ a.finfo = 0 ∧
  (∀ sym, a.freqAt sym = 0) ∧ (∀ n, a.node.at n = none) ∧ a.root = none ∧
  (∀ sym, a.clen sym = 0 ∧ a.cbits sym = 0) ∧
  a.pk.acc = 0 ∧ a.pk.nheld = 0 ∧ a.pk.bitcnt = 0 ∧ a.pk.inlen = 0 ∧ a.pk.outlen = 0 ∧
  a.pk.padbits = 0 ∧ State.reset.faultPin = false ∧ ∀ r, statusReg r a = 0

/-- Reset during a command (70_reset_and_hazards.md rule R202): the reset state, no response, and in
`OUT` some prefix of the bytes the command would have written (which one is a free value, log 7); a
read whose response is never taken writes none. -/
def Obligations.ResetCutsACommandShort : Prop :=
  ∀ (s : State) (w : CmdWord) (rest : List HostEvent), s.env.inputs = .cutShort w :: rest →
    ∃ t, step s = .next t ∧ t.arch = Arch.reset ∧ t.env.rsp = s.env.rsp ∧
      t.env.inputs = rest ∧ s.env.out <+: t.env.out ∧
      (∀ u, takeWord w { s with env := { s.env with inputs := rest } } = .next u →
        t.env.out <+: u.env.out) ∧
      (∀ bytes, takeWord w { s with env := { s.env with inputs := rest } } =
        .fault (.sinkNeverReady bytes) → t.env.out <+: s.env.out ++ bytes) ∧
      (∀ v, takeWord w { s with env := { s.env with inputs := rest } } =
        .fault (.responseNeverTaken v) → t.env.out = s.env.out)

/-! ### Invariants -/

/-- The reset state has every invariant. -/
def Obligations.InvariantsHoldAtReset : Prop := Inv State.reset.arch

/-- Every step keeps: `CAUSE` and `FINFO` are 0 exactly while no fault is recorded (10_state.md
section 3). -/
def Obligations.StepKeepsTheFaultRecord : Prop :=
  ∀ s t : State, FaultRecord s.arch → step s = .next t → FaultRecord t.arch

/-- Every step keeps: no tree outside phase `TREE`, no code and no packed bit before phase
`CODES`. -/
def Obligations.StepKeepsPhaseDiscipline : Prop :=
  ∀ s t : State, PhaseDiscipline s.arch → step s = .next t → PhaseDiscipline t.arch

/-- Every step keeps the packer's registers in step with the bit count (43_pack.md rule R146), as
long as no sink write has failed. -/
def Obligations.StepKeepsThePackerExact : Prop :=
  ∀ s t : State, (packerTrusted s.arch → PackerExact s.arch) → step s = .next t →
    packerTrusted t.arch → PackerExact t.arch

/-- Every step keeps the unused bits of every stored code 0 (10_state.md section 6). -/
def Obligations.StepKeepsCodesCanonical : Prop :=
  ∀ s t : State, CodesCanonical s.arch → step s = .next t → CodesCanonical t.arch

/-- Every step keeps: in phase `TREE` the arena is a tree of the table with its ties resolved by index
(log 9), and in phases `CODES` and
`DONE` the code map is a complete prefix-free code of exactly the keys. -/
def Obligations.StepKeepsCodingSound : Prop :=
  ∀ s t : State, CodingSound s.arch → step s = .next t → CodingSound t.arch

/-! ### Whole-machine rules -/

/-- Which command may write which structure (20_memory.md section 6, its last table); `PADBITS` only
as long as no sink write has failed, since it is unspecified after that (60_exceptions.md section
6). -/
def Obligations.WritersOfEachStructure : Prop :=
  ∀ (i : Instr) (s t : State), exec i s = .next t →
    (t.arch.freq ≠ s.arch.freq → i = .clear ∨
      (s.arch.phase = .table ∧ ((∃ sym, i = .count sym) ∨ ∃ sym cnt, i = .ldfreq sym cnt))) ∧
    (t.arch.node ≠ s.arch.node ∨ t.arch.root ≠ s.arch.root → i = .clear ∨
      (s.arch.phase = .table ∧ i = .build) ∨ (s.arch.phase = .tree ∧ i = .gen)) ∧
    (t.arch.cmap ≠ s.arch.cmap → i = .clear ∨ (s.arch.phase = .tree ∧ i = .gen)) ∧
    (t.arch.pk ≠ s.arch.pk → i = .clear ∨
      (s.arch.phase = .codes ∧ ((∃ sym, i = .pack sym) ∨ i = .flush))) ∧
    (t.arch.pk.padbits ≠ s.arch.pk.padbits → i = .clear ∨
      (s.arch.phase = .codes ∧ (i = .flush ∨ t.arch.cause = .sinkFail))) ∧
    (t.arch.phase ≠ s.arch.phase → i = .build ∨ i = .gen ∨ i = .flush ∨ i = .clear) ∧
    (t.arch.fault ≠ s.arch.fault ∨ t.arch.cause ≠ s.arch.cause ∨ t.arch.finfo ≠ s.arch.finfo →
      s.arch.fault = false ∧ t.arch.fault = true)

/-- 20_memory.md rule R65: a read command changes no state of the block and writes no byte, and
executed again it returns the same word; only `PACK` and `FLUSH` write to the sink, and only the
five reads respond, one word each. -/
def Obligations.ReadsHaveNoSideEffect : Prop :=
  (∀ (i : Instr) (s t : State), isRead i = true → i.wellFormed = true →
    accepts i s.arch.phase = true → exec i s = .next t →
    t.arch = s.arch ∧ t.env.out = s.env.out ∧
    (s.arch.fault = false → ∀ u, exec i t = .next u →
      ∃ v, t.env.rsp = s.env.rsp ++ [v] ∧ u.env.rsp = t.env.rsp ++ [v])) ∧
  (∀ (i : Instr) (s t : State), exec i s = .next t →
    (t.env.out ≠ s.env.out → (∃ sym, i = .pack sym) ∨ i = .flush) ∧
    (t.env.rsp ≠ s.env.rsp → isRead i = true ∧ ∃ v, t.env.rsp = s.env.rsp ++ [v]))

/-- Bytes and words already transferred are never retracted, by a reset or by anything else
(10_state.md section 11). -/
def Obligations.HistoriesOnlyGrow : Prop :=
  ∀ s t : State, step s = .next t → s.env.out <+: t.env.out ∧ s.env.rsp <+: t.env.rsp

/-- The bit order of the output (20_memory.md rule R61): bytes whose bits, read from bit 7 down to
bit 0 of each in order, are a sequence followed by fewer than 8 zeros are that sequence packed as
the rule says, and no other bytes are. -/
def Obligations.BitOrderOfTheOutput : Prop :=
  ∀ (bytes : List Byte) (bits : List Bool),
    PackedAs bytes bits ↔
      ∃ n < 8, bytes.flatMap byteBits = bits ++ List.replicate n false
end

