-- ==== Sys2Proof/Laws/State.lean ====
section
/-! SUPPORT. One lemma per field for each named update of the state, true by `rfl`, so that no later
proof unfolds a record update. -/

namespace Sys2Proof.Machine

/-! ### `raiseFault` -/

variable (c : Cause) (w : CmdWord) (s : State)

@[simp] theorem raiseFault_env : (raiseFault c w s).env = s.env := rfl
@[simp] theorem raiseFault_phase : (raiseFault c w s).arch.phase = s.arch.phase := rfl
@[simp] theorem raiseFault_fault : (raiseFault c w s).arch.fault = true := rfl
@[simp] theorem raiseFault_cause : (raiseFault c w s).arch.cause = c := rfl
@[simp] theorem raiseFault_finfo : (raiseFault c w s).arch.finfo = w := rfl
@[simp] theorem raiseFault_freq : (raiseFault c w s).arch.freq = s.arch.freq := rfl
@[simp] theorem raiseFault_node : (raiseFault c w s).arch.node = s.arch.node := rfl
@[simp] theorem raiseFault_root : (raiseFault c w s).arch.root = s.arch.root := rfl
@[simp] theorem raiseFault_cmap : (raiseFault c w s).arch.cmap = s.arch.cmap := rfl
@[simp] theorem raiseFault_pk : (raiseFault c w s).arch.pk = s.arch.pk := rfl

/-! ### `raiseSinkFail` -/

variable (e : Env)

@[simp] theorem raiseSinkFail_env :
    (raiseSinkFail w e s).env = { e with draws := e.draws + 1 } := rfl
@[simp] theorem raiseSinkFail_phase : (raiseSinkFail w e s).arch.phase = s.arch.phase := rfl
@[simp] theorem raiseSinkFail_fault : (raiseSinkFail w e s).arch.fault = true := rfl
@[simp] theorem raiseSinkFail_cause : (raiseSinkFail w e s).arch.cause = .sinkFail := rfl
@[simp] theorem raiseSinkFail_finfo : (raiseSinkFail w e s).arch.finfo = w := rfl
@[simp] theorem raiseSinkFail_freq : (raiseSinkFail w e s).arch.freq = s.arch.freq := rfl
@[simp] theorem raiseSinkFail_node : (raiseSinkFail w e s).arch.node = s.arch.node := rfl
@[simp] theorem raiseSinkFail_root : (raiseSinkFail w e s).arch.root = s.arch.root := rfl
@[simp] theorem raiseSinkFail_cmap : (raiseSinkFail w e s).arch.cmap = s.arch.cmap := rfl
@[simp] theorem raiseSinkFail_pk :
    (raiseSinkFail w e s).arch.pk = unspecifiedPacker e.draws := rfl

/-! ### `setFreq` -/

variable (a : Arch) (sym : Byte) (cnt : Count)

@[simp] theorem setFreq_phase : (a.setFreq sym cnt).phase = a.phase := rfl
@[simp] theorem setFreq_fault : (a.setFreq sym cnt).fault = a.fault := rfl
@[simp] theorem setFreq_cause : (a.setFreq sym cnt).cause = a.cause := rfl
@[simp] theorem setFreq_finfo : (a.setFreq sym cnt).finfo = a.finfo := rfl
@[simp] theorem setFreq_node : (a.setFreq sym cnt).node = a.node := rfl
@[simp] theorem setFreq_root : (a.setFreq sym cnt).root = a.root := rfl
@[simp] theorem setFreq_cmap : (a.setFreq sym cnt).cmap = a.cmap := rfl
@[simp] theorem setFreq_pk : (a.setFreq sym cnt).pk = a.pk := rfl

/-! ### `buildTree` -/

@[simp] theorem buildTree_phase : (buildTree a).phase = .tree := rfl
@[simp] theorem buildTree_fault : (buildTree a).fault = a.fault := rfl
@[simp] theorem buildTree_cause : (buildTree a).cause = a.cause := rfl
@[simp] theorem buildTree_finfo : (buildTree a).finfo = a.finfo := rfl
@[simp] theorem buildTree_freq : (buildTree a).freq = a.freq := rfl
@[simp] theorem buildTree_cmap : (buildTree a).cmap = a.cmap := rfl
@[simp] theorem buildTree_pk : (buildTree a).pk = a.pk := rfl

/-! ### `generateCodes` -/

@[simp] theorem generateCodes_phase : (generateCodes a).phase = .codes := rfl
@[simp] theorem generateCodes_fault : (generateCodes a).fault = a.fault := rfl
@[simp] theorem generateCodes_cause : (generateCodes a).cause = a.cause := rfl
@[simp] theorem generateCodes_finfo : (generateCodes a).finfo = a.finfo := rfl
@[simp] theorem generateCodes_freq : (generateCodes a).freq = a.freq := rfl
@[simp] theorem generateCodes_node : (generateCodes a).node = Arena.empty := rfl
@[simp] theorem generateCodes_root : (generateCodes a).root = none := rfl
@[simp] theorem generateCodes_pk : (generateCodes a).pk = a.pk := rfl

/-! ### `clearArch` -/

@[simp] theorem clearArch_phase : (clearArch a).phase = .table := rfl
@[simp] theorem clearArch_fault : (clearArch a).fault = a.fault := rfl
@[simp] theorem clearArch_cause : (clearArch a).cause = a.cause := rfl
@[simp] theorem clearArch_finfo : (clearArch a).finfo = a.finfo := rfl
@[simp] theorem clearArch_freq : (clearArch a).freq = FreqTable.empty := rfl
@[simp] theorem clearArch_node : (clearArch a).node = Arena.empty := rfl
@[simp] theorem clearArch_root : (clearArch a).root = none := rfl
@[simp] theorem clearArch_cmap : (clearArch a).cmap = CodeMap.empty := rfl
@[simp] theorem clearArch_pk : (clearArch a).pk = Packer.zero := rfl

/-! ### The environment -/

variable (inputs : List HostEvent) (v : RspWord) (bytes : List Byte)

@[simp] theorem withInputs_arch : (s.withInputs inputs).arch = s.arch := rfl
@[simp] theorem withInputs_inputs : (s.withInputs inputs).env.inputs = inputs := rfl
@[simp] theorem withInputs_sink : (s.withInputs inputs).env.sink = s.env.sink := rfl
@[simp] theorem withInputs_taker : (s.withInputs inputs).env.taker = s.env.taker := rfl
@[simp] theorem withInputs_out : (s.withInputs inputs).env.out = s.env.out := rfl
@[simp] theorem withInputs_rsp : (s.withInputs inputs).env.rsp = s.env.rsp := rfl
@[simp] theorem withInputs_draws : (s.withInputs inputs).env.draws = s.env.draws := rfl

@[simp] theorem afterResponse_inputs : (e.afterResponse v).inputs = e.inputs := rfl
@[simp] theorem afterResponse_sink : (e.afterResponse v).sink = e.sink := rfl
@[simp] theorem afterResponse_out : (e.afterResponse v).out = e.out := rfl
@[simp] theorem afterResponse_rsp : (e.afterResponse v).rsp = e.rsp ++ [v] := rfl
@[simp] theorem afterResponse_draws : (e.afterResponse v).draws = e.draws := rfl

@[simp] theorem afterBytes_inputs : (e.afterBytes bytes).inputs = e.inputs := rfl
@[simp] theorem afterBytes_sink : (e.afterBytes bytes).sink = e.sink.drop bytes.length := rfl
@[simp] theorem afterBytes_taker : (e.afterBytes bytes).taker = e.taker := rfl
@[simp] theorem afterBytes_out : (e.afterBytes bytes).out = e.out ++ bytes := rfl
@[simp] theorem afterBytes_rsp : (e.afterBytes bytes).rsp = e.rsp := rfl
@[simp] theorem afterBytes_draws : (e.afterBytes bytes).draws = e.draws := rfl

theorem afterBytes_nil : e.afterBytes [] = e := by simp [Env.afterBytes]

theorem afterBytes_append (more : List Byte) :
    (e.afterBytes bytes).afterBytes more = e.afterBytes (bytes ++ more) := by
  simp [Env.afterBytes, List.drop_drop, List.append_assoc]

@[simp] theorem hostReset_arch : (hostReset s).arch = Arch.reset := rfl
@[simp] theorem hostReset_env : (hostReset s).env = s.env := rfl

@[simp] theorem cutByReset_arch (r : Result) : (cutByReset s r).arch = Arch.reset := rfl
@[simp] theorem cutByReset_rsp (r : Result) : (cutByReset s r).env.rsp = s.env.rsp := rfl
@[simp] theorem cutByReset_inputs (r : Result) : (cutByReset s r).env.inputs = s.env.inputs := rfl

end Sys2Proof.Machine
end

