-- ==== Sys2Proof/Laws/Tables.lean ====
section
/-! SUPPORT. The four index spaces: a read after a write, every other entry unchanged, what an empty
table reads as, and the seed list of `BUILD` entry by entry. -/

namespace Sys2Proof.Machine

/-! ### The frequency table -/

theorem freqAt_setFreq_same (a : Arch) (sym : Byte) (cnt : Count) :
    (a.setFreq sym cnt).freqAt sym = cnt := by
  simp [Arch.freqAt, Arch.setFreq]

theorem freqAt_setFreq_other (a : Arch) (sym x : Byte) (cnt : Count) (h : x ≠ sym) :
    (a.setFreq sym cnt).freqAt x = a.freqAt x := by
  have hn : sym.toNat ≠ x.toNat := fun e => h (BitVec.eq_of_toNat_eq e.symm)
  simp [Arch.freqAt, Arch.setFreq, hn]

theorem freqAt_congr {a b : Arch} (h : a.freq = b.freq) (sym : Byte) :
    a.freqAt sym = b.freqAt sym := by
  simp [Arch.freqAt, h]

@[simp] theorem freqAt_reset (sym : Byte) : Arch.reset.freqAt sym = 0 := by
  simp [Arch.freqAt, Arch.reset, FreqTable.empty]

theorem length_allSymbols : allSymbols.length = 256 := by simp [allSymbols]

theorem getElem_allSymbols (i : Nat) (h : i < allSymbols.length) :
    allSymbols[i] = BitVec.ofNat 8 i := by
  simp [allSymbols]

theorem mem_allSymbols (sym : Byte) : sym ∈ allSymbols := by
  refine List.mem_map.2 ⟨sym.toNat, List.mem_range.2 sym.isLt, ?_⟩
  simp

theorem nodup_allSymbols : allSymbols.Nodup := by
  unfold allSymbols
  refine (List.nodup_map_iff_inj_on List.nodup_range).2 fun x hx y hy h => ?_
  have h' := congrArg BitVec.toNat h
  simp only [List.mem_range] at hx hy
  simpa [Nat.mod_eq_of_lt hx, Nat.mod_eq_of_lt hy] using h'

/-- The counts in the order of symbol. -/
theorem freq_toList (a : Arch) : a.freq.toList = allSymbols.map a.freqAt := by
  refine List.ext_getElem (by simp [length_allSymbols]) fun i h1 h2 => ?_
  have h : i < 256 := by simpa using h1
  simp [getElem_allSymbols, Arch.freqAt, Nat.mod_eq_of_lt h]

theorem countedSymbols_eq (a : Arch) :
    countedSymbols a = allSymbols.map fun sym => (sym, a.freqAt sym) := by
  rw [countedSymbols, freq_toList]
  refine List.ext_getElem (by simp) fun i h1 h2 => ?_
  simp

/-- The seed of `BUILD`: the leaf of every key, in the order of symbol. -/
theorem seedQ_eq (a : Arch) :
    seedQ a = (keys a).map fun sym => (leafWeight a sym, leafIndex sym) := by
  rw [seedQ, countedSymbols_eq, keys, List.filter_map, List.map_map]
  rfl

theorem mem_keys (a : Arch) (sym : Byte) : sym ∈ keys a ↔ a.freqAt sym ≠ 0 := by
  simp [keys, mem_allSymbols]

theorem nodup_keys (a : Arch) : (keys a).Nodup := nodup_allSymbols.filter _

theorem length_keys (a : Arch) : (keys a).length = keyCount a := by
  rw [keyCount, freq_toList, List.countP_map, keys, List.countP_eq_length_filter]
  rfl

theorem keyCount_le (a : Arch) : keyCount a ≤ 256 := by
  have h := List.countP_le_length (p := fun c : Count => c != 0) (l := a.freq.toList)
  simpa [keyCount] using h

theorem totalWeight_eq (a : Arch) :
    totalWeight a = (allSymbols.map fun sym => (a.freqAt sym).toNat).sum := by
  rw [totalWeight, freq_toList, List.map_map]
  rfl

theorem length_seedQ (a : Arch) : (seedQ a).length = keyCount a := by
  rw [seedQ_eq, List.length_map, length_keys]

/-! ### The arena -/

theorem at_of_lt (nodes : Arena) (n : NodeIndex) (h : n.toNat < 511) : nodes.at n = nodes[n.toNat] := by
  simp [Arena.at, h]

theorem arena_ext {x y : Arena} (h : ∀ n : NodeIndex, n.toNat ≤ 510 → x.at n = y.at n) : x = y := by
  refine Vector.ext fun i hi => ?_
  have hn : (BitVec.ofNat 9 i).toNat = i := by
    rw [BitVec.toNat_ofNat]
    exact Nat.mod_eq_of_lt (by omega)
  have h' := h (BitVec.ofNat 9 i) (by omega)
  rw [at_of_lt _ _ (by omega), at_of_lt _ _ (by omega)] at h'
  simpa only [hn] using h'

theorem at_511 (nodes : Arena) (n : NodeIndex) (h : 511 ≤ n.toNat) : nodes.at n = none := by
  simp [Arena.at, Nat.not_lt.2 h]

@[simp] theorem at_empty (n : NodeIndex) : Arena.empty.at n = none := by
  by_cases h : n.toNat < 511
  · rw [at_of_lt _ _ h]
    simp [Arena.empty]
  · exact at_511 _ _ (Nat.not_lt.1 h)

theorem toNat_leafIndex (sym : Byte) : (leafIndex sym).toNat = sym.toNat := by
  have h := sym.isLt
  simp only [leafIndex, BitVec.toNat_setWidth]
  exact Nat.mod_eq_of_lt (by omega)

theorem toNat_mergeIndex (k : Nat) (h : k < 255) : (mergeIndex k).toNat = 256 + k := by
  rw [mergeIndex, BitVec.toNat_ofNat]
  exact Nat.mod_eq_of_lt (by omega)

theorem leafIndex_inj {x y : Byte} (h : leafIndex x = leafIndex y) : x = y := by
  have h' := congrArg BitVec.toNat h
  rw [toNat_leafIndex, toNat_leafIndex] at h'
  exact BitVec.eq_of_toNat_eq h'

/-- Every node index but 511 is the leaf of a symbol or the node of a merge. -/
theorem index_cases (n : NodeIndex) :
    (∃ sym, n = leafIndex sym) ∨ (∃ k, k < 255 ∧ n = mergeIndex k) ∨ n.toNat = 511 := by
  have hn := n.isLt
  by_cases h : n.toNat < 256
  · refine Or.inl ⟨BitVec.ofNat 8 n.toNat, BitVec.eq_of_toNat_eq ?_⟩
    rw [toNat_leafIndex, BitVec.toNat_ofNat, Nat.mod_eq_of_lt h]
  · by_cases h' : n.toNat = 511
    · exact Or.inr (Or.inr h')
    · refine Or.inr (Or.inl ⟨n.toNat - 256, by omega, BitVec.eq_of_toNat_eq ?_⟩)
      rw [toNat_mergeIndex _ (by omega)]
      omega

/-- The entry of a symbol in an arena `BUILD` makes. -/
theorem arenaOf_leaf (a : Arch) (ns : List Node) (sym : Byte) :
    (arenaOf a ns).at (leafIndex sym) = leafEntry a sym := by
  have h := sym.isLt
  rw [at_of_lt _ _ (by rw [toNat_leafIndex]; omega)]
  simp only [arenaOf, toNat_leafIndex, Vector.getElem_mk, List.getElem_toArray, List.getElem_map,
    List.getElem_range, arenaEntry]
  rw [if_pos (by omega), BitVec.ofNat_toNat, BitVec.setWidth_eq]

/-- The entry of a merge in an arena `BUILD` makes. -/
theorem arenaOf_merge (a : Arch) (ns : List Node) (k : Nat) (h : k < 255) :
    (arenaOf a ns).at (mergeIndex k) = ns[k]? := by
  rw [at_of_lt _ _ (by rw [toNat_mergeIndex k h]; omega)]
  simp [arenaOf, toNat_mergeIndex k h, arenaEntry]

/-! ### The code map -/

@[simp] theorem codeAt_reset (sym : Byte) : Arch.reset.codeAt sym = Code.absent := by
  simp [Arch.codeAt, Arch.reset, CodeMap.empty]

theorem getElem_bindCode_same (m : CodeMap) (sym : Byte) (code : List Bool) :
    (bindCode m (sym, code))[sym.toNat]'sym.isLt = Code.ofList code := by
  simp [bindCode]

theorem getElem_bindCode_other (m : CodeMap) (b : Byte × List Bool) (sym : Byte) (h : b.1 ≠ sym) :
    (bindCode m b)[sym.toNat]'sym.isLt = m[sym.toNat]'sym.isLt := by
  have hn : b.1.toNat ≠ sym.toNat := fun e => h (BitVec.eq_of_toNat_eq e)
  simp [bindCode, hn]

/-- A symbol that no binding names keeps its entry. -/
theorem getElem_bindAll_none (bs : List (Byte × List Bool)) (m : CodeMap) (sym : Byte)
    (h : ∀ b ∈ bs, b.1 ≠ sym) :
    (bs.foldl bindCode m)[sym.toNat]'sym.isLt = m[sym.toNat]'sym.isLt := by
  induction bs generalizing m with
  | nil => rfl
  | cons b rest ih =>
    rw [List.foldl_cons, ih _ fun x hx => h x (List.mem_cons_of_mem _ hx)]
    exact getElem_bindCode_other m b sym (h b List.mem_cons_self)

/-- A symbol that exactly one binding names has that binding's code. -/
theorem getElem_bindAll_mem (bs : List (Byte × List Bool)) (m : CodeMap) (sym : Byte)
    (code : List Bool) (hmem : (sym, code) ∈ bs) (hnd : (bs.map Prod.fst).Nodup) :
    (bs.foldl bindCode m)[sym.toNat]'sym.isLt = Code.ofList code := by
  induction bs generalizing m with
  | nil => cases hmem
  | cons b rest ih =>
    rw [List.map_cons, List.nodup_cons] at hnd
    rw [List.foldl_cons]
    rcases List.mem_cons.1 hmem with h | h
    · subst h
      rw [getElem_bindAll_none _ _ _ fun x hx e => hnd.1 (List.mem_map.2 ⟨x, hx, e⟩)]
      exact getElem_bindCode_same m sym code
    · exact ih _ h hnd.2

end Sys2Proof.Machine
end

