-- ==== Sys2Proof/Laws/CodeGen.lean ====
section
/-! SUPPORT. A code as it is stored and as a list of bits: the two agree up to the longest code; and
what `walk` can bind. -/

namespace Sys2Proof.Machine

theorem getLsbD_packBits (code : List Bool) (j : Nat) (h : j < 256) :
    (packBits code).getLsbD (255 - j) = code.getD j false := by
  induction code generalizing j with
  | nil => simp [packBits]
  | cons b rest ih =>
    rw [packBits, BitVec.getLsbD_or, BitVec.getLsbD_shiftLeft, BitVec.getLsbD_ushiftRight]
    cases j with
    | zero =>
      simp
    | succ j =>
      have h1 : 1 + (255 - (j + 1)) = 255 - j := by omega
      rw [h1, ih j (by omega)]
      simp
      intros
      omega

theorem length_toList (c : Code) : c.toList.length = c.len.toNat := by simp [Code.toList]

theorem length_codeBits (a : Arch) (sym : Byte) :
    (codeBits a sym).length = (a.clen sym).toNat := length_toList _

theorem toNat_len_ofList {code : List Bool} (h : code.length ≤ 255) :
    (Code.ofList code).len.toNat = code.length := by
  rw [Code.ofList, BitVec.toNat_ofNat]
  exact Nat.mod_eq_of_lt (by omega)

/-- A code of at most 255 bits is stored without loss (10_state.md rule R30). -/
theorem toList_ofList {code : List Bool} (h : code.length ≤ 255) :
    (Code.ofList code).toList = code := by
  refine List.ext_getElem (by rw [length_toList, toNat_len_ofList h]) fun i h1 h2 => ?_
  simp only [Code.toList, List.getElem_map, List.getElem_range]
  rw [Code.ofList, getLsbD_packBits _ _ (by omega), List.getD_eq_getElem _ _ h2]

theorem canonical_ofList {code : List Bool} (h : code.length ≤ 255) :
    (Code.ofList code).canonical := by
  intro j hj h256
  rw [toNat_len_ofList h] at hj
  rw [Code.ofList, getLsbD_packBits _ _ h256, List.getD_eq_default _ _ hj]

theorem canonical_absent : Code.absent.canonical := by
  intro j _ _
  simp [Code.absent]

theorem codeBits_of_len_zero {a : Arch} {sym : Byte} (h : a.clen sym = 0) :
    codeBits a sym = [] := by
  have := length_codeBits a sym
  rw [h] at this
  exact List.length_eq_zero_iff.1 this

/-! ### The walk -/

/-- A binding's code is not empty and no longer than the depth allows. -/
theorem length_of_mem_walk {nodes : Arena} {depth : Nat} {n : NodeIndex} {code : List Bool}
    {b : Byte × List Bool} (h : b ∈ walk nodes depth n code) :
    1 ≤ b.2.length ∧ b.2.length ≤ max 1 (code.length + (depth - 1)) := by
  induction depth generalizing n code with
  | zero => simp [walk] at h
  | succ depth ih =>
    rw [walk] at h
    split at h
    · cases h
    · rw [List.mem_singleton] at h
      subst h
      cases code <;> simp
    · rcases List.mem_append.1 h with h | h
      all_goals
        have := ih h
        cases depth with
        | zero => simp [walk] at h
        | succ d =>
          rw [List.length_append, List.length_singleton] at this
          omega

theorem length_of_mem_bindings {a : Arch} {b : Byte × List Bool} (h : b ∈ bindings a) :
    1 ≤ b.2.length ∧ b.2.length ≤ 255 := by
  unfold bindings at h
  split at h
  · cases h
  · simpa [walkDepth] using length_of_mem_walk h

/-- Every stored code of the code map `GEN` makes is absent or a binding's code. -/
theorem codeAt_generate_cases (a : Arch) (sym : Byte) :
    ((generateCodes a).codeAt sym = Code.absent ∧ ∀ b ∈ bindings a, b.1 ≠ sym) ∨
    ∃ code, (sym, code) ∈ bindings a ∧ (generateCodes a).codeAt sym = Code.ofList code := by
  have key : ∀ (bs : List (Byte × List Bool)) (m : CodeMap),
      ((bs.foldl bindCode m)[sym.toNat]'sym.isLt = m[sym.toNat]'sym.isLt ∧
        ∀ b ∈ bs, b.1 ≠ sym) ∨
      ∃ code, (sym, code) ∈ bs ∧
        (bs.foldl bindCode m)[sym.toNat]'sym.isLt = Code.ofList code := by
    intro bs
    induction bs with
    | nil => exact fun m => .inl ⟨rfl, fun b hb => by cases hb⟩
    | cons b rest ih =>
      intro m
      rcases ih (bindCode m b) with ⟨h1, h2⟩ | ⟨code, h1, h2⟩
      · by_cases hb : b.1 = sym
        · subst hb
          exact .inr ⟨b.2, List.mem_cons_self, h1.trans (getElem_bindCode_same m b.1 b.2)⟩
        · refine .inl ⟨h1.trans (getElem_bindCode_other m b sym hb), fun x hx => ?_⟩
          rcases List.mem_cons.1 hx with rfl | hx
          · exact hb
          · exact h2 x hx
      · exact .inr ⟨code, List.mem_cons_of_mem _ h1, h2⟩
  rcases key (bindings a) CodeMap.empty with ⟨h1, h2⟩ | h
  · exact .inl ⟨h1.trans (by simp [CodeMap.empty]), h2⟩
  · exact .inr h

/-- The walk of an internal node is the walk of its left child and then of its right. -/
theorem walk_internal {nodes : Arena} {n : NodeIndex} {w : Weight} {l r : NodeIndex}
    (h : nodes.at n = some (.internal w l r)) (depth : Nat) (code : List Bool) :
    walk nodes (depth + 1) n code =
      walk nodes depth l (code ++ [false]) ++ walk nodes depth r (code ++ [true]) := by
  simp [walk, h]

theorem walk_leaf {nodes : Arena} {n : NodeIndex} {w : Weight} {sym : Byte}
    (h : nodes.at n = some (.leaf w sym)) (depth : Nat) (code : List Bool) :
    walk nodes (depth + 1) n code = [(sym, if code.isEmpty then [false] else code)] := by
  simp [walk, h]

/-- What the walk below the root binds is the code so far and then a path to a leaf of that symbol. -/
theorem path_of_mem_walk {nodes : Arena} {depth : Nat} {n : NodeIndex} {code : List Bool}
    {b : Byte × List Bool} (hcode : code ≠ []) (h : b ∈ walk nodes depth n code) :
    ∃ path m w, b.2 = code ++ path ∧ follow nodes n path = some m ∧
      nodes.at m = some (.leaf w b.1) := by
  induction depth generalizing n code with
  | zero => simp [walk] at h
  | succ depth ih =>
    rw [walk] at h
    split at h
    · cases h
    · rename_i w sym hn
      rw [List.mem_singleton] at h
      subst h
      have : code.isEmpty = false := by simpa using hcode
      exact ⟨[], n, w, by simp [this], rfl, hn⟩
    · rename_i w l r hn
      rcases List.mem_append.1 h with h | h
      · obtain ⟨path, m, w', h1, h2, h3⟩ := ih (by simp) h
        exact ⟨false :: path, m, w', by simpa using h1, by simpa [follow, hn] using h2, h3⟩
      · obtain ⟨path, m, w', h1, h2, h3⟩ := ih (by simp) h
        exact ⟨true :: path, m, w', by simpa using h1, by simpa [follow, hn] using h2, h3⟩

end Sys2Proof.Machine
end

