-- ==== Sys2Proof/Laws/Encoding.lean ====
section
/-! SUPPORT. The fields of a command word: a word is its four fields, and what each field of
`commandWord` is. -/

namespace Sys2Proof

theorem toNat_fieldOp (w : CmdWord) : (fieldOp w).toNat = w.toNat / 2 ^ 56 := by
  have := w.isLt
  simp only [fieldOp, BitVec.extractLsb'_toNat, Nat.shiftRight_eq_div_pow]
  omega

theorem toNat_fieldA (w : CmdWord) : (fieldA w).toNat = w.toNat / 2 ^ 48 % 2 ^ 8 := by
  simp only [fieldA, BitVec.extractLsb'_toNat, Nat.shiftRight_eq_div_pow]

theorem toNat_fieldZ (w : CmdWord) : (fieldZ w).toNat = w.toNat / 2 ^ 32 % 2 ^ 16 := by
  simp only [fieldZ, BitVec.extractLsb'_toNat, Nat.shiftRight_eq_div_pow]

theorem toNat_fieldImm (w : CmdWord) : (fieldImm w).toNat = w.toNat % 2 ^ 32 := by
  simp only [fieldImm, BitVec.extractLsb'_toNat, Nat.shiftRight_eq_div_pow]
  omega

/-- 30_encoding.md rule R89: `OP << 56 | A << 48 | IMM`. -/
theorem toNat_commandWord (op a : BitVec 8) (imm : BitVec 32) :
    (commandWord op a imm).toNat = op.toNat * 2 ^ 56 + a.toNat * 2 ^ 48 + imm.toNat := by
  have h1 := op.isLt
  have h2 := a.isLt
  have h3 := imm.isLt
  rw [commandWord, BitVec.toNat_append, BitVec.toNat_append, BitVec.toNat_append]
  rw [← Nat.shiftLeft_add_eq_or_of_lt h3, ← Nat.shiftLeft_add_eq_or_of_lt (by simp),
    ← Nat.shiftLeft_add_eq_or_of_lt h2]
  simp only [Nat.shiftLeft_eq, BitVec.toNat_ofNat]
  omega

@[simp] theorem fieldOp_commandWord (op a : BitVec 8) (imm : BitVec 32) :
    fieldOp (commandWord op a imm) = op := by
  refine BitVec.eq_of_toNat_eq ?_
  have h2 := a.isLt
  have h3 := imm.isLt
  rw [toNat_fieldOp, toNat_commandWord]
  omega

@[simp] theorem fieldA_commandWord (op a : BitVec 8) (imm : BitVec 32) :
    fieldA (commandWord op a imm) = a := by
  refine BitVec.eq_of_toNat_eq ?_
  have h2 := a.isLt
  have h3 := imm.isLt
  rw [toNat_fieldA, toNat_commandWord]
  omega

@[simp] theorem fieldZ_commandWord (op a : BitVec 8) (imm : BitVec 32) :
    fieldZ (commandWord op a imm) = 0 := by
  refine BitVec.eq_of_toNat_eq ?_
  have h3 := imm.isLt
  rw [toNat_fieldZ, toNat_commandWord]
  change _ = 0
  omega

@[simp] theorem fieldImm_commandWord (op a : BitVec 8) (imm : BitVec 32) :
    fieldImm (commandWord op a imm) = imm := by
  refine BitVec.eq_of_toNat_eq ?_
  have h3 := imm.isLt
  rw [toNat_fieldImm, toNat_commandWord]
  omega

/-- A word with `Z` = 0 is the command word of its other fields: nothing of it is lost. -/
theorem commandWord_fields (w : CmdWord) (h : fieldZ w = 0) :
    commandWord (fieldOp w) (fieldA w) (fieldImm w) = w := by
  refine BitVec.eq_of_toNat_eq ?_
  have hz : w.toNat / 2 ^ 32 % 2 ^ 16 = 0 := (toNat_fieldZ w).symm.trans (congrArg BitVec.toNat h)
  have := w.isLt
  rw [toNat_commandWord, toNat_fieldOp, toNat_fieldA, toNat_fieldImm]
  omega

/-- Two words with the same four fields are the same word. -/
theorem word_ext {v w : CmdWord} (hop : fieldOp v = fieldOp w) (ha : fieldA v = fieldA w)
    (hz : fieldZ v = fieldZ w) (himm : fieldImm v = fieldImm w) : v = w := by
  refine BitVec.eq_of_toNat_eq ?_
  have h1 := congrArg BitVec.toNat hop
  have h2 := congrArg BitVec.toNat ha
  have h3 := congrArg BitVec.toNat hz
  have h4 := congrArg BitVec.toNat himm
  rw [toNat_fieldOp, toNat_fieldOp] at h1
  rw [toNat_fieldA, toNat_fieldA] at h2
  rw [toNat_fieldZ, toNat_fieldZ] at h3
  rw [toNat_fieldImm, toNat_fieldImm] at h4
  have := v.isLt
  have := w.isLt
  omega

theorem statusReg_ofNumber_number (r : StatusReg) : StatusReg.ofNumber r.number = some r := by
  cases r <;> rfl

theorem statusReg_number_of_ofNumber {n : Byte} {r : StatusReg}
    (h : StatusReg.ofNumber n = some r) : r.number = n := by
  revert n
  cases r <;> decide

/-- A register number is legal exactly when it is at most 8 (30_encoding.md rule R84). -/
theorem statusReg_ofNumber_isSome (n : Byte) :
    (StatusReg.ofNumber n).isSome = decide (n.toNat ≤ 8) := by
  revert n
  decide

end Sys2Proof
end

