-- ==== Sys2Proof/Laws/Ops.lean ====
section
/-! SUPPORT. What each shared operation can answer, said once: `checked`, `respond`, `sinkWrite`,
`takeMalformed`, `cutByReset`, and one step by the host's next action. -/

namespace Sys2Proof.Machine

/-! ### The order of checks -/

/-- A faulted block drops every command but `RDREG`. -/
theorem checked_faulted {i : Instr} {s : State} (own : Result) (hf : s.arch.fault = true)
    (h : (i.wellFormed && runsWhileFaulted i) = false) : checked i s own = .next s := by
  simp [checked, hf, h]

/-- A faulted block runs `RDREG`. -/
theorem checked_rdreg_faulted {r : StatusReg} {s : State} (own : Result)
    (hf : s.arch.fault = true) : checked (.rdreg r) s own = own := by
  simp [checked, hf, Instr.wellFormed, runsWhileFaulted]

/-- A command in a phase that does not accept it raises `BAD_PHASE`. -/
theorem checked_badPhase {i : Instr} {s : State} (own : Result) (hf : s.arch.fault = false)
    (hw : i.wellFormed = true) (ha : accepts i s.arch.phase = false) :
    checked i s own = .next (raiseFault .badPhase (encode i) s) := by
  simp [checked, hf, hw, ha]

/-- A command in a phase that accepts it does what its own rule says. -/
theorem checked_accepted {i : Instr} {s : State} (own : Result) (hf : s.arch.fault = false)
    (hw : i.wellFormed = true) (ha : accepts i s.arch.phase = true) : checked i s own = own := by
  simp [checked, hf, hw, ha]

/-- Every way a checked command can end in a next state: dropped, refused as malformed, refused in
its phase, run while faulted (`RDREG`), or run. -/
theorem checked_cases {i : Instr} {s t : State} {own : Result} (h : checked i s own = .next t) :
    (s.arch.fault = true ∧ t = s) ∨
    (s.arch.fault = true ∧ runsWhileFaulted i = true ∧ own = .next t) ∨
    (s.arch.fault = false ∧ i.wellFormed = false ∧
      t = raiseFault .illegalCmd (encode i) s) ∨
    (s.arch.fault = false ∧ i.wellFormed = true ∧ accepts i s.arch.phase = false ∧
      t = raiseFault .badPhase (encode i) s) ∨
    (s.arch.fault = false ∧ i.wellFormed = true ∧ accepts i s.arch.phase = true ∧
      own = .next t) := by
  unfold checked at h
  split at h
  · split at h
    · exact .inr (.inl ⟨‹_›, (by simp_all), h⟩)
    · exact .inl ⟨‹_›, (Host.Outcome.next.inj h).symm⟩
  · have hf : s.arch.fault = false := by simp_all
    split at h
    · exact .inr (.inr (.inl ⟨hf, by simp_all, (Host.Outcome.next.inj h).symm⟩))
    · split at h
      · exact .inr (.inr (.inr (.inl
          ⟨hf, by simp_all, by simp_all, (Host.Outcome.next.inj h).symm⟩)))
      · exact .inr (.inr (.inr (.inr ⟨hf, by simp_all, by simp_all, h⟩)))

theorem takeMalformed_faulted {w : CmdWord} {s : State} (hf : s.arch.fault = true) :
    takeMalformed w s = .next s := by
  simp [takeMalformed, hf]

theorem takeMalformed_clean {w : CmdWord} {s : State} (hf : s.arch.fault = false) :
    takeMalformed w s = .next (raiseFault .illegalCmd w s) := by
  simp [takeMalformed, hf]

/-- A malformed word leaves the state alone or records `ILLEGAL_CMD`. -/
theorem takeMalformed_cases {w : CmdWord} {s t : State} (h : takeMalformed w s = .next t) :
    (s.arch.fault = true ∧ t = s) ∨
      (s.arch.fault = false ∧ t = raiseFault .illegalCmd w s) := by
  cases hf : s.arch.fault
  · rw [takeMalformed_clean hf] at h
    exact .inr ⟨rfl, (Host.Outcome.next.inj h).symm⟩
  · rw [takeMalformed_faulted hf] at h
    exact .inl ⟨rfl, (Host.Outcome.next.inj h).symm⟩

/-! ### Responses -/

/-- When the host takes the word, a response changes nothing but `RSP` and the answer used. -/
theorem respond_taken {v : RspWord} {s : State} (h : s.env.takesNext = true) :
    respond v s = .next { s with env := s.env.afterResponse v } := by
  unfold respond
  unfold Env.takesNext at h
  unfold Env.afterResponse
  split <;> simp_all

/-- A response that completes was taken. -/
theorem respond_next {v : RspWord} {s t : State} (h : respond v s = .next t) :
    t = { s with env := s.env.afterResponse v } := by
  unfold respond at h
  unfold Env.afterResponse
  split at h <;> cases h <;> simp_all

theorem respond_never {v : RspWord} {s : State} (h : s.env.takesNext = false) :
    respond v s = .fault (.responseNeverTaken v) := by
  unfold respond
  unfold Env.takesNext at h
  split <;> simp_all

/-! ### Writes to the sink -/

theorem sinkAccepts_succ (e : Env) (n : Nat) (b : Byte) (h : e.sinkAccepts (n + 1) = true) :
    e.sinkAccepts 1 = true ∧ (e.afterBytes [b]).sinkAccepts n = true := by
  unfold Env.sinkAccepts at *
  cases hs : e.sink with
  | nil => simp [Env.afterBytes, hs]
  | cons x rest =>
    rw [hs, List.take_succ_cons, List.all_cons, Bool.and_eq_true] at h
    exact ⟨by simpa using h.1, by simpa [Env.afterBytes, hs] using h.2⟩

theorem sinkAccepts_mono {e : Env} {m n : Nat} (hmn : m ≤ n) (h : e.sinkAccepts n = true) :
    e.sinkAccepts m = true := by
  unfold Env.sinkAccepts at *
  rw [List.all_eq_true] at *
  exact fun x hx => h x ((List.take_subset_take_left _ hmn) hx)

theorem sinkWrite_ok {b : Byte} {e : Env} (h : e.sinkAccepts 1 = true) :
    sinkWrite b e = (.ok, e.afterBytes [b]) := by
  unfold sinkWrite Env.afterBytes
  unfold Env.sinkAccepts at h
  split <;> simp_all

theorem sinkWrite_fail {b : Byte} {e : Env} {later : List SinkAnswer}
    (h : e.sink = .fail :: later) : sinkWrite b e = (.fail, { e with sink := later }) := by
  simp [sinkWrite, h]

theorem sinkWrite_never {b : Byte} {e : Env} {later : List SinkAnswer}
    (h : e.sink = .never :: later) : sinkWrite b e = (.never, { e with sink := later }) := by
  simp [sinkWrite, h]

/-- Whatever the answer, a write touches only `OUT` and the answers still to come: the byte joins
`OUT` exactly when the answer is `ok`. -/
theorem sinkWrite_cases (b : Byte) (e : Env) :
    (sinkWrite b e = (.ok, e.afterBytes [b])) ∨
    (∃ later, sinkWrite b e = (.fail, { e with sink := later })) ∨
    (∃ later, sinkWrite b e = (.never, { e with sink := later })) := by
  unfold sinkWrite Env.afterBytes
  split <;> simp_all

/-! ### One step, by the host's next action -/

theorem step_waits {s : State} (h : s.env.inputs = []) : step s = .next s := by
  simp [step, h]

theorem step_command {s : State} {w : CmdWord} {rest : List HostEvent}
    (h : s.env.inputs = .command w :: rest) : step s = takeWord w (s.withInputs rest) := by
  simp [step, h]

theorem step_reset {s : State} {rest : List HostEvent} (h : s.env.inputs = .reset :: rest) :
    step s = .next (hostReset (s.withInputs rest)) := by
  simp [step, h]

theorem step_cutShort {s : State} {w : CmdWord} {rest : List HostEvent}
    (h : s.env.inputs = .cutShort w :: rest) :
    step s = .next (cutByReset (s.withInputs rest) (takeWord w (s.withInputs rest))) := by
  simp [step, h]

theorem takeWord_ok {w : CmdWord} {i : Instr} (s : State) (h : decode w = .ok i) :
    takeWord w s = exec i s := by
  simp [takeWord, h]

theorem takeWord_error {w : CmdWord} {e : Malformed} (s : State) (h : decode w = .error e) :
    takeWord w s = takeMalformed w s := by
  simp [takeWord, h]

/-- Every way a step can end in a next state: the block waited, ran a command, took a malformed
word, or was reset. -/
theorem step_cases {s t : State} (h : step s = .next t) :
    t = s ∨
    (∃ rest i, exec i (s.withInputs rest) = .next t) ∨
    (∃ rest w, takeMalformed w (s.withInputs rest) = .next t) ∨
    t.arch = Arch.reset := by
  cases hs : s.env.inputs with
  | nil => exact .inl (Host.Outcome.next.inj ((step_waits hs).symm.trans h)).symm
  | cons ev rest =>
    cases ev with
    | command w =>
      rw [step_command hs] at h
      cases hd : decode w with
      | ok i => exact .inr (.inl ⟨rest, i, (takeWord_ok _ hd).symm.trans h⟩)
      | error e => exact .inr (.inr (.inl ⟨rest, w, (takeWord_error _ hd).symm.trans h⟩))
    | reset =>
      rw [step_reset hs] at h
      exact .inr (.inr (.inr (by rw [← Host.Outcome.next.inj h]; rfl)))
    | cutShort w =>
      rw [step_cutShort hs] at h
      exact .inr (.inr (.inr (by rw [← Host.Outcome.next.inj h]; rfl)))

/-- What every command, every malformed word and the reset state keep, every step keeps: the one
induction behind the invariants. -/
theorem step_keeps {P : Arch → Prop} (hreset : P Arch.reset)
    (hexec : ∀ i s t, P s.arch → exec i s = .next t → P t.arch)
    (hmal : ∀ w s, P s.arch → s.arch.fault = false → P (raiseFault .illegalCmd w s).arch)
    {s t : State} (hs : P s.arch) (h : step s = .next t) : P t.arch := by
  rcases step_cases h with rfl | ⟨rest, i, hi⟩ | ⟨rest, w, hw⟩ | ha
  · exact hs
  · exact hexec i (s.withInputs rest) t hs hi
  · rcases takeMalformed_cases hw with ⟨-, rfl⟩ | ⟨hf, rfl⟩
    · exact hs
    · exact hmal w (s.withInputs rest) hs hf
  · rw [ha]
    exact hreset

end Sys2Proof.Machine
end

