-- ==== Sys2Proof/Laws/Packing.lean ====
section
/-! SUPPORT. The bit-packer as a stream: what one bit and then a list of bits do to the registers,
the sink and the stream of bits. -/

namespace Sys2Proof.Machine

theorem length_byteBits (b : Byte) : (byteBits b).length = 8 := by simp [byteBits]

theorem length_heldBits (pk : Packer) : (heldBits pk).length = pk.nheld.toNat := by
  simp [heldBits]

theorem length_flatMap_byteBits (bytes : List Byte) :
    (bytes.flatMap byteBits).length = 8 * bytes.length := by
  induction bytes with
  | nil => rfl
  | cons b rest ih =>
    rw [List.flatMap_cons, List.length_append, ih, length_byteBits, List.length_cons]
    omega

theorem getLsbD_shiftedAcc_zero (b : Bool) (pk : Packer) : (shiftedAcc b pk).getLsbD 0 = b := by
  simp [shiftedAcc]

theorem getLsbD_shiftedAcc_succ (b : Bool) (pk : Packer) (i : Nat) (h : i + 1 < 8) :
    (shiftedAcc b pk).getLsbD (i + 1) = pk.acc.getLsbD i := by
  rw [shiftedAcc, BitVec.getLsbD_or, BitVec.getLsbD_shiftLeft,
    BitVec.getLsbD_setWidth, BitVec.getLsbD_ofBool]
  simp [h]

/-- Shifting a bit in puts it after the held ones, as long as there is room. -/
theorem heldBits_shifted (b : Bool) (pk : Packer) (m : Nat) (h : m < 8) (hm : m = pk.nheld.toNat) :
    (List.range (m + 1)).map (fun i => (shiftedAcc b pk).getLsbD (m - i)) =
      heldBits pk ++ [b] := by
  rw [List.range_succ, List.map_append]
  congr 1
  · rw [heldBits, ← hm]
    refine List.map_congr_left fun i hi => ?_
    have hi := List.mem_range.1 hi
    obtain ⟨d, hd⟩ : ∃ d, m - i = d + 1 := ⟨m - i - 1, by omega⟩
    rw [hd, getLsbD_shiftedAcc_succ _ _ _ (by omega)]
    congr 1
    omega
  · rw [List.map_singleton, Nat.sub_self, getLsbD_shiftedAcc_zero]

/-- The byte written is the eight most recent bits (43_pack.md rule R141). -/
theorem byteBits_shifted (b : Bool) (pk : Packer) (h : pk.nheld = 7) :
    byteBits (shiftedAcc b pk) = heldBits pk ++ [b] :=
  heldBits_shifted b pk 7 (by omega) (by rw [h]; rfl)

theorem nheld_lt (pk : Packer) : pk.nheld.toNat < 8 := pk.nheld.isLt

theorem nheld_succ {pk : Packer} (h : pk.nheld ≠ 7) :
    (pk.nheld + 1).toNat = pk.nheld.toNat + 1 := by
  have h1 := nheld_lt pk
  have h2 : pk.nheld.toNat ≠ 7 := fun e => h (BitVec.eq_of_toNat_eq e)
  rw [BitVec.toNat_add]
  exact Nat.mod_eq_of_lt (by simp; omega)

theorem toNat_shift_or (acc : BitVec 8) (b : Bool) :
    (acc <<< 1 ||| (BitVec.ofBool b).zeroExtend 8).toNat = (2 * acc.toNat + b.toNat) % 256 := by
  revert acc b
  decide +kernel

theorem toNat_shiftedAcc (b : Bool) (pk : Packer) :
    (shiftedAcc b pk).toNat = (2 * pk.acc.toNat + b.toNat) % 256 :=
  toNat_shift_or pk.acc b

/-- What a run of the packer from `pk` and `e` over `bits` has done when every write so far was
answered `ok`. -/
structure Packed (bits : List Bool) (pk : Packer) (bytes : List Byte) (pk' : Packer) : Prop where
  written : bytes.length = (pk.nheld.toNat + bits.length) / 8
  stream : bytes.flatMap byteBits ++ heldBits pk' = heldBits pk ++ bits
  held : pk'.nheld.toNat = (pk.nheld.toNat + bits.length) % 8
  small : pk.acc.toNat < 2 ^ pk.nheld.toNat → pk'.acc.toNat < 2 ^ pk'.nheld.toNat
  bitcnt : pk'.bitcnt = pk.bitcnt + BitVec.ofNat 64 bits.length
  inlen : pk'.inlen = pk.inlen
  outlen : pk'.outlen = pk.outlen + BitVec.ofNat 64 bytes.length
  padbits : pk'.padbits = pk.padbits

theorem packed_nil (pk : Packer) : Packed [] pk [] pk where
  written := by have := nheld_lt pk; simp; omega
  stream := by simp
  held := by have := nheld_lt pk; simp; omega
  small := id
  bitcnt := by simp
  inlen := rfl
  outlen := by simp
  padbits := rfl

/-- Two runs after one another. -/
theorem Packed.trans {x y : List Bool} {p q r : Packer} {bx by' : List Byte}
    (h1 : Packed x p bx q) (h2 : Packed y q by' r) : Packed (x ++ y) p (bx ++ by') r where
  written := by
    rw [List.length_append, List.length_append, h1.written, h2.written, h1.held]
    omega
  stream := by
    rw [List.flatMap_append, List.append_assoc, h2.stream, ← List.append_assoc, h1.stream,
      List.append_assoc]
  held := by rw [h2.held, h1.held, List.length_append]; omega
  small := fun h => h2.small (h1.small h)
  bitcnt := by rw [h2.bitcnt, h1.bitcnt, BitVec.add_assoc, List.length_append, BitVec.ofNat_add]
  inlen := h2.inlen.trans h1.inlen
  outlen := by rw [h2.outlen, h1.outlen, BitVec.add_assoc, List.length_append, BitVec.ofNat_add]
  padbits := h2.padbits.trans h1.padbits

/-- One bit with room for it: it is held. -/
theorem shiftIn_held {b : Bool} {pk : Packer} {e : Env} (h : pk.nheld ≠ 7) :
    ∃ pk', shiftIn b pk e = .going pk' e ∧ Packed [b] pk [] pk' := by
  refine ⟨_, by rw [shiftIn, if_neg h], ?_⟩
  have h1 := nheld_lt pk
  have h2 : pk.nheld.toNat ≠ 7 := fun e => h (BitVec.eq_of_toNat_eq e)
  have h3 := nheld_succ h
  refine ⟨by simp; omega, ?_, by simp only [h3, List.length_singleton]; omega, ?_, by simp, rfl,
    by simp, rfl⟩
  · rw [List.flatMap_nil, List.nil_append, heldBits]
    simp only [h3]
    exact heldBits_shifted b pk _ h1 rfl
  · intro hs
    simp only [h3, toNat_shiftedAcc]
    refine lt_of_le_of_lt (Nat.mod_le _ _) ?_
    have : b.toNat ≤ 1 := Bool.toNat_le b
    rw [Nat.pow_succ]
    omega

/-- The eighth bit with the write accepted: one byte goes out. -/
theorem shiftIn_byte {b : Bool} {pk : Packer} {e : Env} (h : pk.nheld = 7)
    (hw : sinkWrite (shiftedAcc b pk) e = (.ok, e.afterBytes [shiftedAcc b pk])) :
    ∃ pk', shiftIn b pk e = .going pk' (e.afterBytes [shiftedAcc b pk]) ∧
      Packed [b] pk [shiftedAcc b pk] pk' := by
  refine ⟨_, by rw [shiftIn, if_pos h, hw], ?_⟩
  refine ⟨by simp [h], ?_, by simp [h], by simp, by simp, rfl, by simp, rfl⟩
  simp [heldBits, byteBits_shifted b pk h]

/-- A list of bits, every write accepted (43_pack.md rules R140 and R141). -/
theorem shiftAll_accepted (bits : List Bool) (pk : Packer) (e : Env)
    (h : e.sinkAccepts ((pk.nheld.toNat + bits.length) / 8) = true) :
    ∃ pk' bytes, shiftAll bits pk e = .going pk' (e.afterBytes bytes) ∧ Packed bits pk bytes pk' := by
  induction bits generalizing pk e with
  | nil => exact ⟨pk, [], by rw [afterBytes_nil]; rfl, packed_nil pk⟩
  | cons b rest ih =>
    by_cases h7 : pk.nheld = 7
    · have hn : (pk.nheld.toNat + (b :: rest).length) / 8 = rest.length / 8 + 1 := by
        rw [h7, List.length_cons]
        change (7 + (rest.length + 1)) / 8 = _
        omega
      rw [hn] at h
      obtain ⟨ha, hb⟩ := sinkAccepts_succ e _ (shiftedAcc b pk) h
      obtain ⟨pk1, hs, hp⟩ := shiftIn_byte h7 (sinkWrite_ok ha)
      obtain ⟨pk2, bytes, hs2, hp2⟩ := ih pk1 _ (by
        rw [hp.held, h7]
        simpa using hb)
      refine ⟨pk2, shiftedAcc b pk :: bytes, ?_, hp.trans hp2⟩
      rw [shiftAll, hs]
      simpa [afterBytes_append] using hs2
    · obtain ⟨pk1, hs, hp⟩ := shiftIn_held (b := b) (e := e) h7
      have h1 := nheld_lt pk
      have h2 : pk.nheld.toNat ≠ 7 := fun e => h7 (BitVec.eq_of_toNat_eq e)
      have hh : pk1.nheld.toNat = pk.nheld.toNat + 1 := by
        rw [hp.held, List.length_singleton]
        omega
      obtain ⟨pk2, bytes, hs2, hp2⟩ := ih pk1 e (by
        rw [hh]
        rw [List.length_cons] at h
        rwa [show pk.nheld.toNat + 1 + rest.length = pk.nheld.toNat + (rest.length + 1) by omega])
      refine ⟨pk2, bytes, ?_, by simpa using hp.trans hp2⟩
      rw [shiftAll, hs]
      exact hs2

/-- Everything a run of the packer can come to: it went through; or it stopped at a write that was
failed or never taken, some whole bytes of the stream having been accepted before. -/
theorem shiftAll_cases (bits : List Bool) (pk : Packer) (e : Env) :
    (∃ pk' bytes, shiftAll bits pk e = .going pk' (e.afterBytes bytes) ∧
      Packed bits pk bytes pk') ∨
    (∃ bytes later, shiftAll bits pk e =
        .failed { e with out := e.out ++ bytes, sink := later } ∧
      bytes.flatMap byteBits <+: heldBits pk ++ bits) ∨
    (∃ bytes later, shiftAll bits pk e =
        .stuck { e with out := e.out ++ bytes, sink := later } ∧
      bytes.flatMap byteBits <+: heldBits pk ++ bits) := by
  induction bits generalizing pk e with
  | nil => exact .inl ⟨pk, [], by rw [afterBytes_nil]; rfl, packed_nil pk⟩
  | cons b rest ih =>
    have more : ∀ (pk1 : Packer) (out1 : List Byte),
        shiftIn b pk e = .going pk1 (e.afterBytes out1) → Packed [b] pk out1 pk1 →
        (∃ pk' bytes, shiftAll (b :: rest) pk e = .going pk' (e.afterBytes bytes) ∧
          Packed (b :: rest) pk bytes pk') ∨
        (∃ bytes later, shiftAll (b :: rest) pk e =
            .failed { e with out := e.out ++ bytes, sink := later } ∧
          bytes.flatMap byteBits <+: heldBits pk ++ (b :: rest)) ∨
        (∃ bytes later, shiftAll (b :: rest) pk e =
            .stuck { e with out := e.out ++ bytes, sink := later } ∧
          bytes.flatMap byteBits <+: heldBits pk ++ (b :: rest)) := by
      intro pk1 out1 hs hp
      have hpre : ∀ bytes : List Byte, bytes.flatMap byteBits <+: heldBits pk1 ++ rest →
          (out1 ++ bytes).flatMap byteBits <+: heldBits pk ++ (b :: rest) := by
        intro bytes hb
        have := (List.prefix_append_right_inj (out1.flatMap byteBits)).2 hb
        rw [← List.append_assoc, hp.stream] at this
        simpa [List.flatMap_append] using this
      rcases ih pk1 (e.afterBytes out1) with ⟨pk', bytes, h1, h2⟩ | ⟨bytes, later, h1, h2⟩ |
        ⟨bytes, later, h1, h2⟩
      · refine .inl ⟨pk', out1 ++ bytes, ?_, hp.trans h2⟩
        rw [shiftAll, hs]
        simpa [afterBytes_append] using h1
      · refine .inr (.inl ⟨out1 ++ bytes, later, ?_, hpre bytes h2⟩)
        rw [shiftAll, hs]
        simpa [Env.afterBytes] using h1
      · refine .inr (.inr ⟨out1 ++ bytes, later, ?_, hpre bytes h2⟩)
        rw [shiftAll, hs]
        simpa [Env.afterBytes] using h1
    by_cases h7 : pk.nheld = 7
    · rcases sinkWrite_cases (shiftedAcc b pk) e with hw | ⟨later, hw⟩ | ⟨later, hw⟩
      · obtain ⟨pk1, hs, hp⟩ := shiftIn_byte h7 hw
        exact more pk1 _ hs hp
      · refine .inr (.inl ⟨[], later, ?_, by simp⟩)
        simp [shiftAll, shiftIn, h7, hw]
      · refine .inr (.inr ⟨[], later, ?_, by simp⟩)
        simp [shiftAll, shiftIn, h7, hw]
    · obtain ⟨pk1, hs, hp⟩ := shiftIn_held (b := b) (e := e) h7
      exact more pk1 [] (by rw [afterBytes_nil]; exact hs) hp

end Sys2Proof.Machine
end

