-- ==== Sys2Proof/Laws/Exec.lean ====
section
/-! SUPPORT. Everything a command can do when it answers a next state, said once. -/

namespace Sys2Proof.Machine

/-- The word a read command responds with; 0 stands for the commands that are no reads. -/
def readValue (i : Instr) (a : Arch) : RspWord :=
  match i with
  | .clear => 0
  | .count _ => 0
  | .ldfreq _ _ => 0
  | .build => 0
  | .gen => 0
  | .pack _ => 0
  | .flush => 0
  | .rdreg reg => statusReg reg a
  | .rdfreq sym => (a.freqAt sym).zeroExtend 64
  | .rdnode idx => nodeWord (a.node.at idx)
  | .rdclen sym => (a.clen sym).zeroExtend 64
  | .rdcode sym chunk => codeChunk (a.cbits sym) chunk

/-- What an accepted command does from `s`, one constructor per way its rule can end. -/
inductive Ran (s : State) : Instr → State → Prop
  | clear : Ran s .clear { s with arch := clearArch s.arch }
  | countAtMax (sym : Byte) : s.arch.freqAt sym = BitVec.allOnes 32 →
      Ran s (.count sym) (raiseFault .freqOvf (encode (.count sym)) s)
  | count (sym : Byte) : s.arch.freqAt sym ≠ BitVec.allOnes 32 →
      Ran s (.count sym) { s with arch := s.arch.setFreq sym (s.arch.freqAt sym + 1) }
  | ldfreq (sym : Byte) (cnt : Count) :
      Ran s (.ldfreq sym cnt) { s with arch := s.arch.setFreq sym cnt }
  | build : Ran s .build { s with arch := buildTree s.arch }
  | gen : Ran s .gen { s with arch := generateCodes s.arch }
  | packNoCode (sym : Byte) : s.arch.clen sym = 0 →
      Ran s (.pack sym) (raiseFault .noCode (encode (.pack sym)) s)
  | packOverflow (sym : Byte) : s.arch.clen sym ≠ 0 →
      counterOverflow s.arch.pk (s.arch.clen sym) = true →
      Ran s (.pack sym) (raiseFault .cntOvf (encode (.pack sym)) s)
  | pack (sym : Byte) (pk : Packer) (bytes : List Byte) : s.arch.clen sym ≠ 0 →
      counterOverflow s.arch.pk (s.arch.clen sym) = false →
      Packed (codeBits s.arch sym) s.arch.pk bytes pk →
      Ran s (.pack sym)
        { arch := { s.arch with pk := { pk with inlen := pk.inlen + 1 } }
          env := s.env.afterBytes bytes }
  | packFailed (sym : Byte) (bytes : List Byte) (later : List SinkAnswer) :
      s.arch.clen sym ≠ 0 → counterOverflow s.arch.pk (s.arch.clen sym) = false →
      bytes.flatMap byteBits <+: heldBits s.arch.pk ++ codeBits s.arch sym →
      Ran s (.pack sym)
        (raiseSinkFail (encode (.pack sym))
          { s.env with out := s.env.out ++ bytes, sink := later } s)
  | flushNothing : s.arch.pk.nheld = 0 →
      Ran s .flush
        { s with arch := { s.arch with pk := { s.arch.pk with padbits := 0 }, phase := .done } }
  | flush : s.arch.pk.nheld ≠ 0 →
      Ran s .flush
        { arch := { s.arch with pk := flushedPacker s.arch.pk, phase := .done }
          env := s.env.afterBytes [paddedByte s.arch.pk] }
  | flushFailed (later : List SinkAnswer) : s.arch.pk.nheld ≠ 0 →
      Ran s .flush (raiseSinkFail (encode .flush) { s.env with sink := later } s)
  | read (i : Instr) : isRead i = true →
      Ran s i { s with env := s.env.afterResponse (readValue i s.arch) }

/-- Every way a command can end in a next state: dropped by a faulted block, a read of a status
register there, refused as malformed, refused in its phase, or run. -/
def EndsIn (i : Instr) (s t : State) : Prop :=
  (s.arch.fault = true ∧ t = s) ∨
  (s.arch.fault = true ∧ runsWhileFaulted i = true ∧ isRead i = true ∧ Ran s i t) ∨
  (s.arch.fault = false ∧ i.wellFormed = false ∧ t = raiseFault .illegalCmd (encode i) s) ∨
  (s.arch.fault = false ∧ i.wellFormed = true ∧ accepts i s.arch.phase = false ∧
    t = raiseFault .badPhase (encode i) s) ∨
  (s.arch.fault = false ∧ i.wellFormed = true ∧ accepts i s.arch.phase = true ∧ Ran s i t)

/-- The checks and then a rule whose ways to end are known. -/
theorem endsIn_checked {i : Instr} {s t : State} {own : Result} (h : checked i s own = .next t)
    (hown : own = .next t → Ran s i t) (hread : runsWhileFaulted i = true → isRead i = true) :
    EndsIn i s t := by
  rcases checked_cases h with h | ⟨a, b, c⟩ | h | h | ⟨a, b, c, d⟩
  · exact .inl h
  · exact .inr (.inl ⟨a, b, hread b, hown c⟩)
  · exact .inr (.inr (.inl h))
  · exact .inr (.inr (.inr (.inl h)))
  · exact .inr (.inr (.inr (.inr ⟨a, b, c, hown d⟩)))

/-- A command that ends in a next state ends in one of these ways. -/
theorem exec_cases {i : Instr} {s t : State} (h : exec i s = .next t) : EndsIn i s t := by
  have reads : ∀ {v : RspWord}, isRead i = true → readValue i s.arch = v →
      respond v s = .next t → Ran s i t := by
    rintro v hr rfl hv
    rw [respond_next hv]
    exact .read i hr
  cases i with
  | clear => exact endsIn_checked h (fun e => by cases e; exact .clear) (by simp [runsWhileFaulted])
  | count sym =>
    refine endsIn_checked h (fun e => ?_) (by simp [runsWhileFaulted])
    split at e <;> cases e
    · exact .countAtMax sym ‹_›
    · exact .count sym ‹_›
  | ldfreq sym cnt =>
    exact endsIn_checked h (fun e => by cases e; exact .ldfreq sym cnt) (by simp [runsWhileFaulted])
  | build => exact endsIn_checked h (fun e => by cases e; exact .build) (by simp [runsWhileFaulted])
  | gen => exact endsIn_checked h (fun e => by cases e; exact .gen) (by simp [runsWhileFaulted])
  | pack sym =>
    refine endsIn_checked h (fun e => ?_) (by simp [runsWhileFaulted])
    split at e
    · cases e
      exact .packNoCode sym ‹_›
    · split at e
      · cases e
        exact .packOverflow sym ‹_› ‹_›
      · rename_i h1 h2
        have h2' : counterOverflow s.arch.pk (s.arch.clen sym) = false := by simpa using h2
        rcases shiftAll_cases (s.arch.codeAt sym).toList s.arch.pk s.env with
          ⟨pk, bytes, hs, hp⟩ | ⟨bytes, later, hs, hp⟩ | ⟨bytes, later, hs, hp⟩
        all_goals
          rw [hs] at e
          cases e
        · exact .pack sym pk bytes h1 h2' hp
        · exact .packFailed sym bytes later h1 h2' hp
  | flush =>
    refine endsIn_checked h (fun e => ?_) (by simp [runsWhileFaulted])
    split at e
    · cases e
      exact .flushNothing ‹_›
    · rename_i h1
      rcases sinkWrite_cases (paddedByte s.arch.pk) s.env with hw | ⟨later, hw⟩ | ⟨later, hw⟩
      all_goals
        rw [hw] at e
        cases e
      · exact .flush h1
      · exact .flushFailed later h1
  | rdreg reg => exact endsIn_checked h (reads rfl rfl) fun _ => rfl
  | rdfreq sym => exact endsIn_checked h (reads rfl rfl) fun _ => rfl
  | rdnode idx => exact endsIn_checked h (reads rfl rfl) fun _ => rfl
  | rdclen sym => exact endsIn_checked h (reads rfl rfl) fun _ => rfl
  | rdcode sym chunk => exact endsIn_checked h (reads rfl rfl) fun _ => rfl

end Sys2Proof.Machine
end

