-- ==== Sys2Proof/Laws/PerInstr.lean ====
section
/-! SUPPORT. What holds of every command as syntax, one lemma per constructor. -/

namespace Sys2Proof.Laws.WordFields

/-- The word of a command carries its opcode, its operands in `A` and `IMM`, and 0 in `Z`; its opcode
is one of 0x01 to 0x0C (30_encoding.md rules R80, R81 and R83). -/
def Statement (i : Instr) : Prop :=
  fieldOp (encode i) = i.opcode ∧ fieldA (encode i) = i.operandA ∧ fieldZ (encode i) = 0 ∧
    fieldImm (encode i) = i.operandImm ∧ 1 ≤ i.opcode.toNat ∧ i.opcode.toNat ≤ 12

/-- The fields of the word of any command. -/
theorem fields (i : Instr) (h : 1 ≤ i.opcode.toNat ∧ i.opcode.toNat ≤ 12) : Statement i :=
  ⟨fieldOp_commandWord _ _ _, fieldA_commandWord _ _ _, fieldZ_commandWord _ _ _,
    fieldImm_commandWord _ _ _, h.1, h.2⟩

theorem clear : Statement .clear := fields _ (by simp [Instr.opcode])
theorem count (sym : Byte) : Statement (.count sym) := fields _ (by simp [Instr.opcode])
theorem ldfreq (sym : Byte) (cnt : Count) : Statement (.ldfreq sym cnt) := fields _ (by simp [Instr.opcode])
theorem build : Statement .build := fields _ (by simp [Instr.opcode])
theorem gen : Statement .gen := fields _ (by simp [Instr.opcode])
theorem pack (sym : Byte) : Statement (.pack sym) := fields _ (by simp [Instr.opcode])
theorem flush : Statement .flush := fields _ (by simp [Instr.opcode])
theorem rdreg (reg : StatusReg) : Statement (.rdreg reg) := fields _ (by simp [Instr.opcode])
theorem rdfreq (sym : Byte) : Statement (.rdfreq sym) := fields _ (by simp [Instr.opcode])
theorem rdnode (idx : NodeIndex) : Statement (.rdnode idx) := fields _ (by simp [Instr.opcode])
theorem rdclen (sym : Byte) : Statement (.rdclen sym) := fields _ (by simp [Instr.opcode])
theorem rdcode (sym : Byte) (chunk : BitVec 2) : Statement (.rdcode sym chunk) :=
  fields _ (by simp [Instr.opcode])

end Sys2Proof.Laws.WordFields
end

