-- ==== Sys2Proof/Laws/Tree.lean ====
section
/-! SUPPORT. `BUILD`: the order of rule R113, `ExtractMin`, and the merge loop, whose priority
collection is at every moment exactly the set of nodes that are present and have no parent yet. -/

namespace Sys2Proof.Machine

/-! ### The order of rule R113 -/

theorem before_iff (x y : QItem) :
    x.before y = true ↔ x.1.toNat < y.1.toNat ∨ (x.1 = y.1 ∧ x.2.toNat < y.2.toNat) := by
  simp [QItem.before, BitVec.lt_def]

theorem before_irrefl (x : QItem) : x.before x = false := by
  rw [← Bool.not_eq_true, before_iff]
  omega

theorem before_trans {x y z : QItem} (h1 : x.before y = true) (h2 : y.before z = true) :
    x.before z = true := by
  rw [before_iff] at *
  rcases h1 with h1 | ⟨e1, h1⟩ <;> rcases h2 with h2 | ⟨e2, h2⟩
  · exact .inl (h1.trans h2)
  · exact .inl (e2 ▸ h1)
  · exact .inl (e1.symm ▸ h2)
  · exact .inr ⟨e1.trans e2, h1.trans h2⟩

theorem before_total (x y : QItem) : x = y ∨ x.before y = true ∨ y.before x = true := by
  rw [before_iff, before_iff]
  rcases lt_trichotomy x.1.toNat y.1.toNat with h | h | h
  · exact .inr (.inl (.inl h))
  · have e1 : x.1 = y.1 := BitVec.eq_of_toNat_eq h
    rcases lt_trichotomy x.2.toNat y.2.toNat with h' | h' | h'
    · exact .inr (.inl (.inr ⟨e1, h'⟩))
    · exact .inl (Prod.ext e1 (BitVec.eq_of_toNat_eq h'))
    · exact .inr (.inr (.inr ⟨e1.symm, h'⟩))
  · exact .inr (.inr (.inl h))

/-! ### `ExtractMin` -/

theorem leastOf_cons (x y : QItem) (q : List QItem) :
    leastOf x (y :: q) = leastOf (if y.before x then y else x) q := rfl

theorem leastOf_mem (x : QItem) (q : List QItem) : leastOf x q ∈ x :: q := by
  induction q generalizing x with
  | nil => exact List.mem_cons_self
  | cons y q ih =>
    rw [leastOf_cons]
    have := ih (if y.before x then y else x)
    rcases List.mem_cons.1 this with h | h
    · rw [h]
      split
      · exact List.mem_cons_of_mem _ List.mem_cons_self
      · exact List.mem_cons_self
    · exact List.mem_cons_of_mem _ (List.mem_cons_of_mem _ h)

/-- The least element is before, or is, every other. -/
theorem leastOf_le (x : QItem) (q : List QItem) :
    ∀ z ∈ x :: q, z = leastOf x q ∨ (leastOf x q).before z = true := by
  induction q generalizing x with
  | nil => simp [leastOf]
  | cons y q ih =>
    intro z hz
    rw [leastOf_cons]
    have hle := ih (if y.before x then y else x)
    have hhead := hle _ List.mem_cons_self
    by_cases hb : y.before x = true
    · simp only [hb, if_true] at hle hhead ⊢
      rcases List.mem_cons.1 hz with rfl | hz
      · rcases hhead with h | h
        · exact .inr (h ▸ hb)
        · exact .inr (before_trans h hb)
      · exact hle z hz
    · simp only [hb, if_false, Bool.false_eq_true] at hle hhead ⊢
      rcases List.mem_cons.1 hz with rfl | hz
      · exact hhead
      · rcases List.mem_cons.1 hz with rfl | hz
        · rcases before_total z x with rfl | h | h
          · exact hhead
          · exact absurd h hb
          · rcases hhead with h' | h'
            · exact .inr (h' ▸ h)
            · exact .inr (before_trans h' h)
        · exact hle z (List.mem_cons_of_mem _ hz)

theorem extractMin_eq_none {q : List QItem} (h : extractMin q = none) : q = [] := by
  cases q with
  | nil => rfl
  | cons x rest => simp [extractMin] at h

theorem extractMin_cons (x : QItem) (q : List QItem) :
    extractMin (x :: q) = some (leastOf x q, (x :: q).erase (leastOf x q)) := rfl

/-- What `ExtractMin` answers: an element of `Q`, the rest of `Q`, and no element comes before it. -/
theorem extractMin_some {q rest : List QItem} {x : QItem} (h : extractMin q = some (x, rest)) :
    x ∈ q ∧ q.Perm (x :: rest) ∧ ∀ y ∈ q, y = x ∨ x.before y = true := by
  cases q with
  | nil => simp [extractMin] at h
  | cons z q =>
    rw [extractMin_cons] at h
    obtain ⟨rfl, rfl⟩ := Prod.mk.inj (Option.some.inj h)
    exact ⟨leastOf_mem z q, List.perm_cons_erase (leastOf_mem z q), leastOf_le z q⟩

theorem extractMin_length {q rest : List QItem} {x : QItem} (h : extractMin q = some (x, rest)) :
    q.length = rest.length + 1 := (extractMin_some h).2.1.length_eq.trans (by simp)

/-! ### The priority collection during the merge loop -/

/-- `q` is the priority collection once the internal nodes `pre` have been made: exactly the nodes
present and not yet a child, each once, with their weights. -/
structure Live (a : Arch) (pre : List Node) (q : List QItem) : Prop where
  nodup : (q.map Prod.snd).Nodup
  mem : ∀ w n, (w, n) ∈ q ↔ ∃ x, (arenaOf a pre).at n = some x ∧ x.weight = w ∧
    ∀ j < pre.length, ¬childOf (arenaOf a pre) n (mergeIndex j)
  earlier : ∀ n, ∀ j < pre.length, childOf (arenaOf a pre) n (mergeIndex j) → n.toNat < 256 + j

/-- Everything in the arena is below the index of the next merge. -/
theorem arenaOf_bound {a : Arch} {pre : List Node} {n : NodeIndex} {x : Node}
    (h : (arenaOf a pre).at n = some x) : n.toNat < 256 + pre.length := by
  rcases index_cases n with ⟨sym, rfl⟩ | ⟨k, hk, rfl⟩ | h511
  · have := sym.isLt
    rw [toNat_leafIndex]
    omega
  · rw [arenaOf_merge _ _ _ hk] at h
    have := (List.getElem?_eq_some_iff.1 h).1
    rw [toNat_mergeIndex k hk]
    omega
  · rw [at_511 _ _ (by omega)] at h
    cases h

/-- Nodes already made are not touched by later merges. -/
theorem arenaOf_append {a : Arch} {pre more : List Node} {n : NodeIndex}
    (h : n.toNat < 256 + pre.length) : (arenaOf a (pre ++ more)).at n = (arenaOf a pre).at n := by
  rcases index_cases n with ⟨sym, rfl⟩ | ⟨k, hk, rfl⟩ | h511
  · rw [arenaOf_leaf, arenaOf_leaf]
  · rw [toNat_mergeIndex k hk] at h
    rw [arenaOf_merge _ _ _ hk, arenaOf_merge _ _ _ hk, List.getElem?_append_left (by omega)]
  · rw [at_511 _ _ (by omega), at_511 _ _ (by omega)]

theorem arenaOf_append_some {a : Arch} {pre more : List Node} {n : NodeIndex} {x : Node}
    (h : (arenaOf a pre).at n = some x) : (arenaOf a (pre ++ more)).at n = some x := by
  rw [arenaOf_append (arenaOf_bound h), h]

/-- Being a child of an earlier merge does not change with later merges. -/
theorem childOf_append {a : Arch} {pre more : List Node} {n : NodeIndex} {j : Nat}
    (hj : j < pre.length) (hj' : j < 255) :
    childOf (arenaOf a (pre ++ more)) n (mergeIndex j) ↔ childOf (arenaOf a pre) n (mergeIndex j) := by
  unfold childOf
  rw [arenaOf_append (by rw [toNat_mergeIndex j hj']; omega)]

/-- The seed is live: the leaves, none of them a child. -/
theorem live_seed (a : Arch) : Live a [] (seedQ a) where
  nodup := by
    rw [seedQ_eq, List.map_map]
    exact (nodup_keys a).map fun x y h => leafIndex_inj h
  mem w n := by
    rw [seedQ_eq, List.mem_map]
    constructor
    · rintro ⟨sym, hs, h⟩
      obtain ⟨rfl, rfl⟩ := Prod.mk.inj h
      refine ⟨.leaf (leafWeight a sym) sym, ?_, rfl, fun j hj => absurd hj (Nat.not_lt_zero j)⟩
      rw [arenaOf_leaf, leafEntry, if_neg ((mem_keys a sym).1 hs)]
    · rintro ⟨x, hx, rfl, -⟩
      rcases index_cases n with ⟨sym, rfl⟩ | ⟨k, hk, rfl⟩ | h511
      · rw [arenaOf_leaf, leafEntry] at hx
        split at hx
        · cases hx
        · rename_i hs
          refine ⟨sym, (mem_keys a sym).2 hs, ?_⟩
          rw [← Option.some.inj hx]
          rfl
      · rw [arenaOf_merge _ _ _ hk] at hx
        simp at hx
      · rw [at_511 _ _ (by omega)] at hx
        cases hx
  earlier _ j hj := absurd hj (Nat.not_lt_zero j)

/-- Elements of a live collection are nodes already made. -/
theorem live_bound {a : Arch} {pre : List Node} {q : List QItem} (h : Live a pre q) {p : QItem}
    (hp : p ∈ q) : p.2.toNat < 256 + pre.length := by
  obtain ⟨x, hx, -⟩ := (h.mem p.1 p.2).1 hp
  exact arenaOf_bound hx

/-- A merge keeps the collection live: its two children leave, the new node enters. -/
theorem live_merge {a : Arch} {pre : List Node} {q q1 q2 : List QItem} {x y : QItem}
    (h : Live a pre q) (hk : pre.length < 255) (hx : extractMin q = some (x, q1))
    (hy : extractMin q1 = some (y, q2)) :
    Live a (pre ++ [.internal (x.1 + y.1) x.2 y.2])
      ((x.1 + y.1, mergeIndex pre.length) :: q2) := by
  have hperm : q.Perm (x :: y :: q2) :=
    (extractMin_some hx).2.1.trans ((extractMin_some hy).2.1.cons x)
  have hnd : ((x :: y :: q2).map Prod.snd).Nodup := (hperm.map _).nodup_iff.1 h.nodup
  have hnew : (arenaOf a (pre ++ [.internal (x.1 + y.1) x.2 y.2])).at (mergeIndex pre.length) =
      some (.internal (x.1 + y.1) x.2 y.2) := by
    rw [arenaOf_merge _ _ _ hk]
    simp
  have hfresh : (arenaOf a pre).at (mergeIndex pre.length) = none := by
    rw [arenaOf_merge _ _ _ hk]
    simp
  have hmem : ∀ w n, (w, n) ∈ x :: y :: q2 ↔ _ := fun w n => hperm.mem_iff.symm.trans (h.mem w n)
  simp only [List.map_cons, List.nodup_cons, List.mem_cons, not_or] at hnd
  obtain ⟨⟨hxy, hxq⟩, hyq, hq2⟩ := hnd
  have hxb := live_bound h (extractMin_some hx).1
  have hyb := live_bound h (hperm.mem_iff.2 (List.mem_cons_of_mem _ List.mem_cons_self))
  have hidx := toNat_mergeIndex pre.length hk
  -- a node is a child of the new merge exactly when it is one of the two
  have hchild : ∀ n, childOf (arenaOf a (pre ++ [.internal (x.1 + y.1) x.2 y.2])) n
      (mergeIndex pre.length) ↔ n = x.2 ∨ n = y.2 := by
    intro n
    unfold childOf
    rw [hnew]
    constructor
    · rintro ⟨w, l, r, e, hn⟩
      obtain ⟨-, rfl, rfl⟩ := Node.internal.inj (Option.some.inj e)
      exact hn
    · exact fun hn => ⟨_, _, _, rfl, hn⟩
  have hold : ∀ n, ∀ j < pre.length,
      (childOf (arenaOf a (pre ++ [.internal (x.1 + y.1) x.2 y.2])) n (mergeIndex j) ↔
        childOf (arenaOf a pre) n (mergeIndex j)) :=
    fun n j hj => childOf_append hj (by omega)
  have hlen : (pre ++ [Node.internal (x.1 + y.1) x.2 y.2]).length = pre.length + 1 := by simp
  refine ⟨?_, fun w n => ?_, fun n j hj hc => ?_⟩
  · rw [List.map_cons, List.nodup_cons]
    refine ⟨fun hin => ?_, hq2⟩
    obtain ⟨p, hp, e⟩ := List.mem_map.1 hin
    have := live_bound h (hperm.mem_iff.2 (List.mem_cons_of_mem _ (List.mem_cons_of_mem _ hp)))
    rw [e, hidx] at this
    omega
  · rw [hlen]
    constructor
    · intro hin
      rcases List.mem_cons.1 hin with e | hin
      · obtain ⟨rfl, rfl⟩ := Prod.mk.inj e
        refine ⟨_, hnew, rfl, fun j hj hc => ?_⟩
        rcases Nat.lt_succ_iff_lt_or_eq.1 hj with hj | rfl
        · have := h.earlier _ j hj ((hold _ j hj).1 hc)
          omega
        · rcases (hchild _).1 hc with e | e
          all_goals
            have := congrArg BitVec.toNat e
            omega
      · obtain ⟨z, hz, hw, hno⟩ :=
          (hmem w n).1 (List.mem_cons_of_mem _ (List.mem_cons_of_mem _ hin))
        refine ⟨z, arenaOf_append_some hz, hw, fun j hj hc => ?_⟩
        rcases Nat.lt_succ_iff_lt_or_eq.1 hj with hj | rfl
        · exact hno j hj ((hold n j hj).1 hc)
        · have hn2 : n ∈ q2.map Prod.snd := List.mem_map.2 ⟨(w, n), hin, rfl⟩
          rcases (hchild n).1 hc with rfl | rfl
          · exact hxq hn2
          · exact hyq hn2
    · rintro ⟨z, hz, hw, hno⟩
      have hb := arenaOf_bound hz
      rw [hlen] at hb
      by_cases hn : n.toNat = 256 + pre.length
      · have e : n = mergeIndex pre.length := BitVec.eq_of_toNat_eq (hn.trans hidx.symm)
        subst e
        rw [hnew] at hz
        rw [← hw, ← Option.some.inj hz]
        exact List.mem_cons_self
      · rw [arenaOf_append (by omega)] at hz
        have hin := (hmem w n).2 ⟨z, hz, hw, fun j hj hc => hno j (by omega) ((hold n j hj).2 hc)⟩
        have hnk := fun e => hno pre.length (by omega) ((hchild n).2 e)
        rcases List.mem_cons.1 hin with e | hin
        · exact absurd (.inl (congrArg Prod.snd e)) hnk
        · rcases List.mem_cons.1 hin with e | hin
          · exact absurd (.inr (congrArg Prod.snd e)) hnk
          · exact List.mem_cons_of_mem _ hin
  · rw [hlen] at hj
    rcases Nat.lt_succ_iff_lt_or_eq.1 hj with hj | rfl
    · exact h.earlier n j hj ((hold n j hj).1 hc)
    · rcases (hchild n).1 hc with rfl | rfl
      · exact hxb
      · exact hyb

/-- The sum of the weights in a collection. -/
def queueWeight (q : List QItem) : Nat := (q.map fun p => p.1.toNat).sum

theorem queueWeight_perm {q q' : List QItem} (h : q.Perm q') : queueWeight q = queueWeight q' :=
  (h.map _).sum_eq

theorem queueWeight_cons (x : QItem) (q : List QItem) :
    queueWeight (x :: q) = x.1.toNat + queueWeight q := by
  simp [queueWeight]

/-- A merge loses no weight, as long as the whole weight fits 40 bits (00_scope.md rule R13). -/
theorem queueWeight_merge {q q1 q2 : List QItem} {x y : QItem} (n : NodeIndex)
    (hx : extractMin q = some (x, q1)) (hy : extractMin q1 = some (y, q2))
    (hfit : queueWeight q < 2 ^ 40) :
    (x.1 + y.1).toNat = x.1.toNat + y.1.toNat ∧
      queueWeight ((x.1 + y.1, n) :: q2) = queueWeight q := by
  have h1 := queueWeight_perm (extractMin_some hx).2.1
  have h2 := queueWeight_perm (extractMin_some hy).2.1
  rw [queueWeight_cons] at h1 h2
  have hsum : (x.1 + y.1).toNat = x.1.toNat + y.1.toNat := by
    rw [BitVec.toNat_add]
    exact Nat.mod_eq_of_lt (by omega)
  refine ⟨hsum, ?_⟩
  rw [queueWeight_cons, hsum]
  omega

theorem totalWeight_lt (a : Arch) : totalWeight a < 2 ^ 40 := by
  have h : ∀ l : List Count, (l.map BitVec.toNat).sum ≤ l.length * (2 ^ 32 - 1) := by
    intro l
    induction l with
    | nil => simp
    | cons c l ih =>
      have := c.isLt
      rw [List.map_cons, List.sum_cons, List.length_cons, Nat.add_mul]
      omega
  have := h a.freq.toList
  rw [totalWeight]
  simp only [Vector.length_toList] at this
  omega

theorem queueWeight_seed (a : Arch) : queueWeight (seedQ a) = totalWeight a := by
  rw [queueWeight, seedQ_eq, totalWeight_eq, List.map_map, keys]
  have hw : ∀ sym, (leafWeight a sym).toNat = (a.freqAt sym).toNat := by
    intro sym
    have := (a.freqAt sym).isLt
    simp only [leafWeight, BitVec.toNat_setWidth]
    exact Nat.mod_eq_of_lt (by omega)
  generalize allSymbols = l
  induction l with
  | nil => rfl
  | cons sym l ih =>
    rw [List.filter_cons, List.map_cons (f := fun sym => (a.freqAt sym).toNat), List.sum_cons, ← ih]
    by_cases h : a.freqAt sym = 0
    · rw [if_neg (by simp [h]), h]
      exact (Nat.zero_add _).symm
    · rw [if_pos (by simpa using h), List.map_cons, List.sum_cons, ← hw]
      rfl

/-- One merge of the finished tree: the node made by merge `j` joins the two elements that
`ExtractMin` takes out of the collection as it was then. -/
structure MergeAt (a : Arch) (ns : List Node) (j : Nat) : Prop where
  taken : ∃ (q q1 q2 : List QItem) (x y : QItem), Live a (ns.take j) q ∧
    extractMin q = some (x, q1) ∧ extractMin q1 = some (y, q2) ∧
    ns[j]? = some (.internal (x.1 + y.1) x.2 y.2) ∧
    (x.1 + y.1).toNat = x.1.toNat + y.1.toNat

/-- What the merge loop comes to, from any live collection: every further merge is a `MergeAt`, and
the collection that is left is live, has at most one element, and gives the root. -/
theorem mergeLoop_spec (a : Arch) (fuel : Nat) (pre : List Node) (q : List QItem)
    (h : Live a pre q) (hk : pre.length + q.length ≤ 256) (hf : q.length ≤ fuel)
    (hw : queueWeight q = totalWeight a) :
    ∃ last : List QItem,
      Live a (pre ++ (mergeLoop fuel pre.length q).1) last ∧ last.length ≤ 1 ∧
      (q = [] → last = []) ∧ (q ≠ [] → last ≠ []) ∧
      queueWeight last = totalWeight a ∧
      (mergeLoop fuel pre.length q).2 = last.head?.map Prod.snd ∧
      (mergeLoop fuel pre.length q).1.length = q.length - 1 ∧
      (2 ≤ q.length → (mergeLoop fuel pre.length q).2 =
        some (mergeIndex (pre.length + q.length - 2))) ∧
      ∀ j, pre.length ≤ j → j < pre.length + (q.length - 1) →
        MergeAt a (pre ++ (mergeLoop fuel pre.length q).1) j := by
  induction fuel generalizing pre q with
  | zero =>
    have hq : q = [] := List.length_eq_zero_iff.1 (Nat.le_zero.1 hf)
    subst hq
    exact ⟨[], by simpa [mergeLoop] using h, by simp, fun _ => rfl, fun e => absurd rfl e, hw,
      rfl, rfl, fun e => absurd e (by simp), fun j h1 h2 => absurd h2 (by simp; omega)⟩
  | succ fuel ih =>
    cases hx : extractMin q with
    | none =>
      have hq := extractMin_eq_none hx
      subst hq
      refine ⟨[], ?_, by simp, fun _ => rfl, fun e => absurd rfl e, hw, ?_, ?_,
        fun e => absurd e (by simp), fun j h1 h2 => absurd h2 (by simp; omega)⟩
      all_goals simp [mergeLoop, hx]
      exact h
    | some p =>
      obtain ⟨x, q1⟩ := p
      have hl1 := extractMin_length hx
      cases hy : extractMin q1 with
      | none =>
        have hq1 := extractMin_eq_none hy
        subst hq1
        have hq : q = [x] := List.perm_singleton.1 (extractMin_some hx).2.1
        subst hq
        refine ⟨[x], ?_, by simp, fun e => absurd e (by simp), fun _ => by simp, hw, ?_, ?_,
          fun e => absurd e (by simp), fun j h1 h2 => absurd h2 (by simp; omega)⟩
        all_goals simp [mergeLoop, hx, hy]
        exact h
      | some p =>
        obtain ⟨y, q2⟩ := p
        have hl2 := extractMin_length hy
        have hsum := queueWeight_merge (mergeIndex pre.length) hx hy
          (hw ▸ totalWeight_lt a)
        have hlive := live_merge h (by omega) hx hy
        obtain ⟨last, h1, h2, -, h4, h5, h6, h7, h8, h9⟩ :=
          ih (pre ++ [.internal (x.1 + y.1) x.2 y.2]) ((x.1 + y.1, mergeIndex pre.length) :: q2)
            hlive (by simp; omega) (by simp; omega) (hsum.2.trans hw)
        have hloop : mergeLoop (fuel + 1) pre.length q =
            (.internal (x.1 + y.1) x.2 y.2 ::
              (mergeLoop fuel (pre.length + 1) ((x.1 + y.1, mergeIndex pre.length) :: q2)).1,
              (mergeLoop fuel (pre.length + 1) ((x.1 + y.1, mergeIndex pre.length) :: q2)).2) := by
          simp [mergeLoop, hx, hy]
        have hlen : (pre ++ [Node.internal (x.1 + y.1) x.2 y.2]).length = pre.length + 1 := by simp
        rw [hlen] at h1 h6 h7 h8 h9
        have happ : ∀ ns : List Node, pre ++ (Node.internal (x.1 + y.1) x.2 y.2 :: ns) =
            pre ++ [.internal (x.1 + y.1) x.2 y.2] ++ ns := by simp
        rw [hloop]
        refine ⟨last, by rw [happ]; exact h1, h2, fun e => ?_, fun _ => h4 (by simp), h5, h6, ?_,
          fun _ => ?_, fun j hj1 hj2 => ?_⟩
        · subst e
          simp at hl1
        · rw [List.length_cons, h7, List.length_cons]
          omega
        · cases q2 with
          | nil =>
            have hone : q.length = 2 := by simp at hl2; omega
            have : last = [(x.1 + y.1, mergeIndex pre.length)] := by
              have hf1 : 1 ≤ fuel := by omega
              obtain ⟨f, rfl⟩ : ∃ f, fuel = f + 1 := ⟨fuel - 1, by omega⟩
              have hnil : (mergeLoop (f + 1) (pre.length + 1)
                  [(x.1 + y.1, mergeIndex pre.length)]).1 = [] := by
                simp [mergeLoop, extractMin, leastOf]
              rw [hnil, List.append_nil] at h1
              have hperm : last.map Prod.snd = [mergeIndex pre.length] := by
                have hin : (x.1 + y.1, mergeIndex pre.length) ∈ last :=
                  (h1.mem _ _).2 ((hlive.mem _ _).1 List.mem_cons_self)
                cases last with
                | nil => cases hin
                | cons z zs =>
                  have : zs = [] := List.length_eq_zero_iff.1 (by simp at h2; simpa using h2)
                  subst this
                  rw [← List.mem_singleton.1 hin]
                  rfl
              have hin : (x.1 + y.1, mergeIndex pre.length) ∈ last :=
                (h1.mem _ _).2 ((hlive.mem _ _).1 List.mem_cons_self)
              cases last with
              | nil => cases hin
              | cons z zs =>
                have : zs = [] := by
                  have := congrArg List.length hperm
                  simpa using this
                subst this
                rw [List.mem_singleton.1 hin]
            rw [h6, this, hone]
            rfl
          | cons z zs =>
            rw [h8 (by simp)]
            congr 2
            simp only [List.length_cons] at *
            omega
        · rcases Nat.eq_or_lt_of_le hj1 with rfl | hj
          · refine ⟨⟨q, q1, q2, x, y, by simpa using h, hx, hy, by simp, hsum.1⟩⟩
          · rw [happ]
            exact h9 j hj (by simp only [List.length_cons]; omega)

/-- The tree `BUILD` makes: the internal nodes in order, the root, and how each was made. -/
theorem buildTree_spec (a : Arch) : ∃ (ns : List Node) (last : List QItem),
    (buildTree a).node = arenaOf a ns ∧ ns.length = keyCount a - 1 ∧
    Live a ns last ∧ last.length ≤ 1 ∧ (keyCount a = 0 → last = []) ∧ (keyCount a ≠ 0 → last ≠ []) ∧
    queueWeight last = totalWeight a ∧ (buildTree a).root = last.head?.map Prod.snd ∧
    (2 ≤ keyCount a → (buildTree a).root = some (mergeIndex (keyCount a - 2))) ∧
    ∀ j < keyCount a - 1, MergeAt a ns j := by
  have hlen := length_seedQ a
  have hnil : seedQ a = [] ↔ keyCount a = 0 := by rw [← List.length_eq_zero_iff, hlen]
  obtain ⟨last, h1, h2, h3, h4, h5, h6, h7, h8, h9⟩ :=
    mergeLoop_spec a (seedQ a).length [] (seedQ a) (live_seed a)
      (by simpa [hlen] using keyCount_le a) le_rfl (queueWeight_seed a)
  simp only [List.length_nil, List.nil_append, Nat.zero_add] at h1 h6 h7 h8 h9
  refine ⟨_, last, rfl, h7.trans (by rw [hlen]), h1, h2, fun e => h3 (hnil.2 e),
    fun e => h4 fun e' => e (hnil.1 e'), h5, h6, fun e => ?_, fun j hj => h9 j (Nat.zero_le j) ?_⟩
  · rw [← hlen]
    exact h8 (hlen.symm ▸ e)
  · rwa [hlen]

end Sys2Proof.Machine
end

