-- ==== Sys2Proof/Tests/Slice0.lean ====
section
/-! SUPPORT. Small tests with expected values taken from 95_test_vectors.md, the smoke test of
WellFormed, and for every statement with hypotheses a witness that meets them. -/

namespace Sys2Proof.Tests

set_option Elab.async false

open Sys2Proof.Machine

/-! ### Helpers -/

/-- The reset state in another phase. -/
def inPhase (p : Phase) : State := { State.reset with arch := { Arch.reset with phase := p } }

/-- A block in which a fault is recorded. -/
def faulted : State := raiseFault .badPhase 0x0661000000000000 State.reset

/-- A table with two keys: some `a` and one `b`. -/
def pair (wa : Count) : Arch := (Arch.reset.setFreq 0x61 wa).setFreq 0x62 1

/-- A tree of that table with `b` on the left, in phase `TREE`. -/
def pairTree (wa : Count) : State :=
  { State.reset with arch := { pair wa with
      node := arenaOf (pair wa) [.internal (wa.zeroExtend 40 + 1) 0x62 0x61]
      root := some 256
      phase := .tree } }

/-- The table of the bytes "aaab" (vector V-F1). -/
def aaab : Arch := pair 3

/-- That table in the machine, in phase `TABLE`. -/
def aaabTable : State := { State.reset with arch := aaab }

/-- The tree of that table (vector V-T3), in phase `TREE`. -/
def aaabTree : State := pairTree 3

/-- The tree of two tied keys that the other resolution of the tie gives (vector V-T4, last words):
`BUILD` does not make it, but it is a tree of its table. -/
def mirrored : State := pairTree 1

/-- A table with the one key `a` and its tree (vector V-T2). -/
def loneTree : State :=
  let a := Arch.reset.setFreq 0x61 9
  { State.reset with arch := { a with node := arenaOf a [], root := some 0x61, phase := .tree } }

/-- The code map of "aaab" (vector V-G3): `a` is 1, `b` is 0. -/
def aaabMap : CodeMap := bindCode (bindCode CodeMap.empty (0x61, [true])) (0x62, [false])

/-- Phase `CODES` with that code map and the given packer registers and sink answers. -/
def aaabCodes (pk : Packer) (sink : List SinkAnswer) : State where
  arch := { aaab with cmap := aaabMap, pk := pk, phase := .codes }
  env := { Env.initial with sink := sink }

/-- Phase `CODES` with the one code of 46 ones, for the symbol 0 (vector V-X6). -/
def longCode (sink : List SinkAnswer) : State where
  arch := { Arch.reset.setFreq 0 1 with
    cmap := bindCode CodeMap.empty (0, List.replicate 46 true), phase := .codes }
  env := { Env.initial with sink := sink }

/-- Phase `CODES` with a two-bit code for `a` and the given counters (vector V-X7). -/
def nearOverflow (bitcnt inlen : BitVec 64) : State where
  arch := { Arch.reset with
    cmap := bindCode CodeMap.empty (0x61, [true, false])
    pk := { Packer.zero with bitcnt := bitcnt, inlen := inlen }
    phase := .codes }
  env := Env.initial

/-- Packer registers with some bits held. -/
def held (acc : BitVec 8) (nheld : BitVec 3) (bitcnt : BitVec 64) : Packer :=
  { Packer.zero with acc := acc, nheld := nheld, bitcnt := bitcnt }

/-- What a reader of the next state sees of it, if there is one. -/
def see {α : Type} (f : State → α) : Result → Option α
  | .next t => some (f t)
  | .fault _ => none
  | .refused _ => none

/-- The fault a result stops with, if it stops. -/
def stop : Result → Option Fault
  | .next _ => none
  | .fault f => some f
  | .refused _ => none

theorem eq_of_stop {r : Result} {f : Fault} (h : stop r = some f) : r = .fault f := by
  cases r <;> cases h
  rfl

theorem next_of_see {r : Result} (h : see (fun _ => ()) r = some ()) : ∃ t, r = .next t := by
  cases r <;> cases h
  exact ⟨_, rfl⟩

/-! ### Well-formedness -/

theorem test_wellFormed_refuses_node_511 : (Instr.rdnode 511).wellFormed = false := by decide
theorem test_wellFormed_takes_node_510 : (Instr.rdnode 510).wellFormed = true := by decide

/-! ### Decoding: words of vectors V-E1 and V-E2 -/

theorem test_decode_clear : decode 0x0100000000000000 = .ok .clear := by decide +kernel
theorem test_decode_count : decode 0x0261000000000000 = .ok (.count 0x61) := by decide +kernel
theorem test_decode_ldfreq : decode 0x0361000000000005 = .ok (.ldfreq 0x61 5) := by decide +kernel
theorem test_decode_build : decode 0x0400000000000000 = .ok .build := by decide +kernel
theorem test_decode_gen : decode 0x0500000000000000 = .ok .gen := by decide +kernel
theorem test_decode_pack : decode 0x0662000000000000 = .ok (.pack 0x62) := by decide +kernel
theorem test_decode_flush : decode 0x0700000000000000 = .ok .flush := by decide +kernel
theorem test_decode_rdreg : decode 0x0804000000000000 = .ok (.rdreg .root) := by decide +kernel
theorem test_decode_rdfreq : decode 0x097A000000000000 = .ok (.rdfreq 0x7A) := by decide +kernel
theorem test_decode_rdnode : decode 0x0A00000000000100 = .ok (.rdnode 256) := by decide +kernel
theorem test_decode_rdclen : decode 0x0B61000000000000 = .ok (.rdclen 0x61) := by decide +kernel
theorem test_decode_rdcode : decode 0x0C62000000000003 = .ok (.rdcode 0x62 3) := by decide +kernel

/-- Vector V-E2, every malformed word it lists. -/
theorem test_decode_malformed :
    [0x0000000000000000#64, 0xFFFFFFFFFFFFFFFF#64, 0x0D00000000000000#64, 0x0100000000000001#64,
      0x0161000000000000#64, 0x0401000000000000#64, 0x0261000100000000#64, 0x0261000000000001#64,
      0x0361800000000005#64, 0x0661000000000001#64, 0x0809000000000000#64, 0x08FF000000000000#64,
      0x0800000000000001#64, 0x0A000000000001FF#64, 0x0A00000000000200#64, 0x0A01000000000000#64,
      0x0C61000000000004#64].map (fun w => (decode w).toOption) = List.replicate 17 none := by
  decide +kernel

/-- The host's entry to the decoder and to the fetch. -/
theorem test_decode_table_word : decodeTableWord 64 0x0261000000000000 = some (.count 0x61) := by
  decide +kernel
theorem test_fetch_word :
    see (fun t => t.arch.freqAt 0x61) (step (State.reset.withFetchWord 64 0x0261000000000000)) =
      some 1 := by decide +kernel

/-! ### One step of each command -/

/-- Vector V-F3: `COUNT` adds to what is there. -/
theorem test_count_adds :
    see (fun t => t.arch.freqAt 0x61)
      (exec (.count 0x61) { State.reset with arch := Arch.reset.setFreq 0x61 5 }) = some 6 := by
  decide +kernel

/-- Vector V-F5: `FREQ_OVF`, the count unchanged, `STATUS` 0x34. -/
theorem test_count_overflow :
    see (fun t => (t.arch.freqAt 0, statusReg .status t.arch, t.arch.finfo))
      (exec (.count 0) { State.reset with arch := Arch.reset.setFreq 0 0xFFFFFFFF }) =
      some (0xFFFFFFFF, 0x34, 0x0200000000000000) := by decide +kernel

/-- Vector V-F4: count 0 removes the key. -/
theorem test_ldfreq_zero :
    see (fun t => (statusReg .nsym t.arch, statusReg .totalw t.arch))
      (exec (.ldfreq 0x61 0) aaabTable) = some (1, 1) := by decide +kernel

/-- Vector V-T3: the tree of "aaab". -/
theorem test_build_two_keys :
    see (fun t => (nodeWord (t.arch.node.at 256), nodeWord (t.arch.node.at 0x62),
        statusReg .root t.arch)) (exec .build aaabTable) =
      some (0xC00000000010C461, 0x8000000000040062, 0x300) := by decide +kernel

/-- Vector V-T6: three tied keys; a leaf goes before an internal node of more weight. -/
theorem test_build_ties :
    see (fun t => (t.arch.node.at 256, t.arch.node.at 257, t.arch.root))
      (exec .build { State.reset with arch :=
        ((Arch.reset.setFreq 0x61 1).setFreq 0x62 1).setFreq 0x63 1 }) =
      some (some (.internal 2 0x61 0x62), some (.internal 3 0x63 256), some 257) := by
  decide +kernel

/-- The example of rule R126: the codes of "aaab". -/
theorem test_gen_two_keys :
    see (fun t => (codeBits t.arch 0x61, codeBits t.arch 0x62, t.arch.clen 0x63))
      (exec .gen aaabTree) = some ([true], [false], 0) := by decide +kernel

/-- Rule R127: one leaf gets the code 0. -/
theorem test_gen_one_key :
    see (fun t => (codeBits t.arch 0x61, t.arch.root)) (exec .gen loneTree) =
      some ([false], none) := by decide +kernel

/-- Program P1, line 25: `PACKST` reads 0x40E. -/
theorem test_pack_b :
    see (fun t => (statusReg .packst t.arch, t.env.out))
      (exec (.pack 0x62) (aaabCodes (held 7 3 3) [])) = some (0x40E, []) := by decide +kernel

/-- Vector V-X6: two bytes accepted, the third failed, no more offered. -/
theorem test_pack_sink_fail :
    see (fun t => (t.env.out, t.env.sink, statusReg .status t.arch))
      (exec (.pack 0) (longCode [.ok, .ok, .fail, .ok])) =
      some ([0xFF, 0xFF], [.ok], 0x56) := by decide +kernel

/-- The example of rule R143: 0xE0, four padding bits. -/
theorem test_flush_pads :
    see (fun t => (t.env.out, statusReg .packst t.arch, t.arch.phase))
      (exec .flush (aaabCodes (held 14 4 4) [])) = some ([0xE0], 0x4000, .done) := by
  decide +kernel

/-- Vector V-X5: the phase stays `CODES`. -/
theorem test_flush_sink_fail :
    see (fun t => (t.env.out, statusReg .status t.arch, t.arch.finfo))
      (exec .flush (aaabCodes (held 14 4 4) [.fail])) =
      some ([], 0x56, 0x0700000000000000) := by decide +kernel

/-- Rule R160, corner cases: held bits are thrown away, bytes written stay. -/
theorem test_clear :
    see (fun t => (t.arch.phase, t.arch.pk, t.arch.freqAt 0x61, t.arch.clen 0x61, t.env.out))
      (exec .clear { aaabCodes (held 14 4 12) [] with
        env := { Env.initial with out := [0xFA] } }) =
      some (.table, Packer.zero, 0, 0, [0xFA]) := by decide +kernel

/-- The example of rule R161: after `NO_CODE` in phase `CODES`, `STATUS` reads 0x46. -/
theorem test_rdreg_while_faulted :
    see (fun t => t.env.rsp)
      (exec (.rdreg .status)
        (raiseFault .noCode 0x067A000000000000 (aaabCodes Packer.zero []))) = some [0x46] := by
  decide +kernel

/-- Program P6, line 14: any other command is dropped. -/
theorem test_rdfreq_dropped :
    see (fun t => t.env.rsp) (exec (.rdfreq 0x61) faulted) = some [] := by decide +kernel

/-- Vector V-F1. -/
theorem test_rdfreq : see (fun t => t.env.rsp) (exec (.rdfreq 0x61) aaabTable) = some [3] := by
  decide +kernel

/-- The example of rule R116. -/
theorem test_rdnode : see (fun t => t.env.rsp) (exec (.rdnode 256) aaabTree) =
    some [0xC00000000010C461] := by decide +kernel
theorem test_rdnode_absent : see (fun t => t.env.rsp) (exec (.rdnode 0x63) aaabTree) =
    some [0] := by decide +kernel

/-- The example of rule R130. -/
theorem test_rdclen : see (fun t => t.env.rsp) (exec (.rdclen 0x61) (aaabCodes Packer.zero [])) =
    some [1] := by decide +kernel

/-- Program P1, line 17. -/
theorem test_rdcode :
    see (fun t => t.env.rsp) (exec (.rdcode 0x61 0) (aaabCodes Packer.zero [])) =
      some [0x8000000000000000] := by decide +kernel

/-- The bit at the far end of a long code: code bit 45 of the 46 is bit 18 of chunk 0. -/
theorem test_rdcode_long :
    see (fun t => t.env.rsp) (exec (.rdcode 0 0) (longCode [])) = some [0xFFFFFFFFFFFC0000] := by
  decide +kernel

/-- Vector V-E3: malformed before wrong phase. -/
theorem test_check_order :
    see (fun t => statusReg .status t.arch) (takeWord 0x0661000000000001 State.reset) = some 0x14 ∧
    see (fun t => statusReg .status t.arch) (takeWord 0x0661000000000000 State.reset) =
      some 0x24 := by decide +kernel

/-! ### Witnesses: encoding -/

theorem witness_DecodeOfEncodeIsTheCommand :
    (Instr.rdnode 510).wellFormed = true ∧ (Instr.rdcode 255 3).wellFormed = true ∧
      (Instr.ldfreq 255 0xFFFFFFFF).wellFormed = true := by decide
theorem witness_EncodeOfDecodeIsTheWord :
    decode 0x03FF0000FFFFFFFF = .ok (.ldfreq 0xFF 0xFFFFFFFF) := by decide +kernel
theorem witness_DecoderFollowsTheOpcodeMap :
    decode 0x0A000000000001FE = .ok (.rdnode 510) := by decide +kernel
/-- The words next to the boundaries of each clause: `RDNODE` 511, `RDREG` 9, `RDCODE` chunk 4. -/
theorem witness_MalformedWordsAreIllegal :
    decode 0x0A000000000001FF = .error .nodeIndexOutOfRange ∧
    decode 0x0809000000000000 = .error .reservedRegister ∧
    decode 0x0C61000000000004 = .error .chunkOutOfRange ∧
    State.reset.arch.fault = false := by decide +kernel

/-! ### Witnesses: the step -/

theorem witness_StepRunsTheDecodedCommand :
    (State.reset.withInputs [.command 0x0261000000000000]).env.inputs =
      .command 0x0261000000000000 :: [] ∧
    decode 0x0261000000000000 = .ok (.count 0x61) := by decide +kernel
theorem witness_StepWithoutACommand :
    State.reset.env.inputs = [] ∧
    ((State.reset.withInputs [.command 0]).env.inputs = .command 0 :: [] ∧
      decode 0 = .error .reservedOpcode) ∧
    (State.reset.withInputs [.reset, .reset]).env.inputs = .reset :: [.reset] := by
  decide +kernel
theorem witness_OrderOfChecks :
    (faulted.arch.fault = true ∧ decode 0x0800000000000000 = .ok (.rdreg .status) ∧
      decode 0x0809000000000000 = .error .reservedRegister) ∧
    (State.reset.arch.fault = false ∧ decode 0 = .error .reservedOpcode) ∧
    (decode 0x0661000000000000 = .ok (.pack 0x61) ∧
      accepts (.pack 0x61) State.reset.arch.phase = false) ∧
    (decode 0x0261000000000000 = .ok (.count 0x61) ∧
      accepts (.count 0x61) State.reset.arch.phase = true) := by decide +kernel
theorem witness_PhaseAcceptanceTable :
    ((Instr.rdnode 510).wellFormed = true ∧ State.reset.arch.fault = false ∧
      accepts (.rdnode 510) State.reset.arch.phase = false) ∧
    ∃ t, exec (.ldfreq 0x61 5) State.reset = .next t ∧ State.reset.arch.fault = false ∧
      t.arch.fault = false := ⟨by decide, _, rfl, rfl, rfl⟩

/-! ### Witnesses: faults -/

theorem witness_FaultedBlockDropsEveryOtherWord :
    faulted.arch.fault = true ∧ decode 0x0800000000000000 = .ok (.rdreg .status) ∧
    decode 0x0100000000000000 = .ok .clear ∧
    ∃ t, takeWord 0x0100000000000000 faulted = .next t :=
  ⟨rfl, by decide +kernel, by decide +kernel, next_of_see (by decide +kernel)⟩
/-- Both cases: a fault that is not `SINK_FAIL`, and `SINK_FAIL` after two accepted bytes. -/
theorem witness_FaultEntryIsPrecise :
    see (fun t => (t.arch.fault, t.arch.cause)) (exec (.pack 0x7A) (aaabCodes Packer.zero [])) =
      some (true, .noCode) ∧
    see (fun t => (t.arch.fault, t.arch.cause)) (exec (.pack 0) (longCode [.ok, .ok, .fail])) =
      some (true, .sinkFail) ∧
    (aaabCodes Packer.zero []).arch.fault = false ∧ (longCode [.ok, .ok, .fail]).arch.fault = false ∧
    runsWhileFaulted .clear = false := by decide +kernel
theorem witness_OnlyResetLeavesTheFaultedState :
    (faulted.withInputs [.reset]).arch.fault = true ∧
    (faulted.withInputs [.reset]).env.inputs = .reset :: [] ∧
    (∃ t, step (faulted.withInputs [.reset]) = .next t) ∧
    ∃ t, step (faulted.withInputs [.cutShort 0]) = .next t :=
  ⟨rfl, rfl, next_of_see (by decide +kernel), next_of_see (by decide +kernel)⟩
theorem witness_PackerOfAFaultedBlockIsSeenOnlyInItsRegisters :
    let s := faulted.withInputs [.command 0x0804000000000000]
    s.arch.fault = true ∧ (∃ t, step s = .next t) ∧
      s.env.inputs = .command 0x0804000000000000 :: [] ∧
      decode 0x0804000000000000 = .ok (.rdreg .root) :=
  ⟨rfl, next_of_see (by decide +kernel), rfl, by decide +kernel⟩
theorem witness_FaultsEachCommandCanRaise :
    ((Instr.pack 0x61).wellFormed = true ∧ State.reset.arch.fault = false ∧
      see (fun t => t.arch.fault) (exec (.pack 0x61) State.reset) = some true) ∧
    decode 0 = .error .reservedOpcode ∧
    see (fun t => t.arch.fault) (takeWord 0 State.reset) = some true := by decide +kernel
theorem witness_PackWithoutACodeRaisesNoCode :
    (aaabCodes Packer.zero []).ready .codes ∧ (aaabCodes Packer.zero []).arch.clen 0x7A = 0 :=
  ⟨⟨rfl, rfl⟩, by decide +kernel⟩
/-- Each way to pass the end, and the last counts that do not (vector V-X7). -/
theorem witness_PackPastTheCountersRaisesCntOvf :
    ((nearOverflow (2 ^ 64 - 2) 0).ready .codes ∧
      (nearOverflow (2 ^ 64 - 2) 0).arch.clen 0x61 ≠ 0 ∧
      2 ^ 64 - 1 < (nearOverflow (2 ^ 64 - 2) 0).arch.pk.bitcnt.toNat +
        ((nearOverflow (2 ^ 64 - 2) 0).arch.clen 0x61).toNat) ∧
    ((nearOverflow 0 (2 ^ 64 - 1)).ready .codes ∧
      (nearOverflow 0 (2 ^ 64 - 1)).arch.clen 0x61 ≠ 0 ∧
      (nearOverflow 0 (2 ^ 64 - 1)).arch.pk.inlen.toNat = 2 ^ 64 - 1) ∧
    see (fun t => (t.arch.fault, t.arch.pk.bitcnt))
      (exec (.pack 0x61) (nearOverflow (2 ^ 64 - 3) (2 ^ 64 - 2))) =
      some (false, 0xFFFFFFFFFFFFFFFF) :=
  ⟨⟨⟨rfl, rfl⟩, by decide +kernel, by decide +kernel⟩,
    ⟨⟨rfl, rfl⟩, by decide +kernel, by decide +kernel⟩, by decide +kernel⟩
/-- No byte accepted before the failure (vector V-X4), and two (vector V-X6). -/
theorem witness_FailedWriteStopsTheCommand :
    (let s := aaabCodes (held 42 7 7) [.fail];
      s.ready .codes ∧ s.arch.clen 0x62 ≠ 0 ∧ s.arch.pk.inlen.toNat ≠ 2 ^ 64 - 1 ∧
      s.arch.pk.bitcnt.toNat + (s.arch.clen 0x62).toNat ≤ 2 ^ 64 - 1 ∧
      0 < (s.arch.pk.nheld.toNat + (s.arch.clen 0x62).toNat) / 8 ∧
      s.env.sink = List.replicate 0 SinkAnswer.ok ++ SinkAnswer.fail :: []) ∧
    (let s := longCode [.ok, .ok, .fail, .ok];
      s.ready .codes ∧ s.arch.clen 0 ≠ 0 ∧ s.arch.pk.inlen.toNat ≠ 2 ^ 64 - 1 ∧
      s.arch.pk.bitcnt.toNat + (s.arch.clen 0).toNat ≤ 2 ^ 64 - 1 ∧
      2 < (s.arch.pk.nheld.toNat + (s.arch.clen 0).toNat) / 8 ∧
      s.env.sink = List.replicate 2 SinkAnswer.ok ++ SinkAnswer.fail :: [.ok]) ∧
    (let s := aaabCodes (held 14 4 4) [.fail];
      s.ready .codes ∧ s.arch.pk.nheld ≠ 0 ∧ s.env.sink = .fail :: []) := by
  unfold State.ready
  decide +kernel
theorem witness_UnansweredPortIsStuck :
    (isRead (.rdnode 0) = true ∧ (Instr.rdnode 0).wellFormed = true ∧
      aaabTree.arch.fault = false ∧ accepts (.rdnode 0) aaabTree.arch.phase = true ∧
      ({ aaabTree with env := { Env.initial with taker := [.never] } } : State).env.takesNext =
        false) ∧
    (let s := aaabCodes (held 14 4 4) [.never];
      s.ready .codes ∧ s.arch.pk.nheld ≠ 0 ∧ s.env.sink = .never :: []) ∧
    (let s := longCode [.ok, .ok, .never];
      s.ready .codes ∧ s.arch.clen 0 ≠ 0 ∧ s.arch.pk.inlen.toNat ≠ 2 ^ 64 - 1 ∧
      s.arch.pk.bitcnt.toNat + (s.arch.clen 0).toNat ≤ 2 ^ 64 - 1 ∧
      2 < (s.arch.pk.nheld.toNat + (s.arch.clen 0).toNat) / 8 ∧
      s.env.sink = List.replicate 2 SinkAnswer.ok ++ SinkAnswer.never :: []) := by
  unfold State.ready
  decide +kernel

/-- A malformed word of every opcode that `malformedRefused` is stated of (vector V-E2). -/
theorem witness_malformedRefused :
    (fieldOp 0x0161000000000000 = 0x01 ∧ decode 0x0161000000000000 = .error .reservedA) ∧
    (fieldOp 0x0261000100000000 = 0x02 ∧ decode 0x0261000100000000 = .error .reservedZ) ∧
    (fieldOp 0x0361800000000005 = 0x03 ∧ decode 0x0361800000000005 = .error .reservedZ) ∧
    (fieldOp 0x0700000000000001 = 0x07 ∧ decode 0x0700000000000001 = .error .reservedImm) ∧
    (fieldOp 0x08FF000000000000 = 0x08 ∧ decode 0x08FF000000000000 = .error .reservedRegister) ∧
    (fieldOp 0x0900000000000001 = 0x09 ∧ decode 0x0900000000000001 = .error .reservedImm) ∧
    (fieldOp 0x0A00000000000200 = 0x0A ∧
      decode 0x0A00000000000200 = .error .nodeIndexOutOfRange) ∧
    (fieldOp 0x0B00000100000000 = 0x0B ∧ decode 0x0B00000100000000 = .error .reservedZ) ∧
    (fieldOp 0x0C61000000000004 = 0x0C ∧ decode 0x0C61000000000004 = .error .chunkOutOfRange) := by
  decide +kernel

/-! ### Witnesses: the frequency table -/

/-- The largest count that may still be counted, the largest count, and another phase. -/
theorem witness_CountAddsOne :
    (let s : State := { State.reset with arch := Arch.reset.setFreq 0 (2 ^ 32 - 2) };
      s.ready .table ∧ (s.arch.freqAt 0).toNat < 2 ^ 32 - 1) ∧
    (let s : State := { State.reset with arch := Arch.reset.setFreq 0 (2 ^ 32 - 1) };
      s.ready .table ∧ (s.arch.freqAt 0).toNat = 2 ^ 32 - 1) ∧
    (inPhase .done).arch.fault = false ∧ (inPhase .done).arch.phase ≠ .table := by
  unfold State.ready
  decide +kernel
theorem witness_LdfreqSetsTheCount :
    aaabTable.ready .table ∧
    (inPhase .tree).arch.fault = false ∧ (inPhase .tree).arch.phase ≠ .table :=
  ⟨⟨rfl, rfl⟩, rfl, by decide⟩
theorem witness_RdfreqResponds :
    (inPhase .done).arch.fault = false ∧ (inPhase .done).env.takesNext = true := by decide +kernel
theorem witness_CountingBytesAddsTheirOccurrences :
    State.reset.ready .table ∧
    ∀ sym, (State.reset.arch.freqAt sym).toNat + [0x61, 0x61, 0x61, 0x62].count sym < 2 ^ 32 :=
  ⟨⟨rfl, rfl⟩, fun sym => by
    have h := List.count_le_length (a := sym) (l := [0x61, 0x61, 0x61, 0x62])
    have h0 : (State.reset.arch.freqAt sym).toNat = 0 := congrArg BitVec.toNat (freqAt_reset sym)
    rw [h0]
    exact lt_of_le_of_lt (Nat.add_le_add_left h 0) (by decide)⟩

/-! ### Witnesses: the tree builder -/

/-- Two elements of equal weight and one of more: the least index of the least weight goes first. -/
theorem witness_ExtractMinIsLeast :
    [((3, 0x61) : QItem), (1, 257), (1, 0x62)] ≠ [] ∧
    extractMin [((3, 0x61) : QItem), (1, 257), (1, 0x62)] =
      some ((1, 0x62), [(3, 0x61), (1, 257)]) ∧
    aaab.freq = aaabTree.arch.freq := ⟨by decide, by decide, rfl⟩
theorem witness_BuildMakesTheTree : aaabTable.ready .table := ⟨rfl, rfl⟩
theorem witness_BuildMergesTheTwoLeast :
    0 + 1 < keyCount aaab ∧
    (buildTree aaab).node.at (mergeIndex 0) = some (.internal 4 0x62 0x61) := by decide +kernel
theorem witness_BuildEdgeCases :
    (State.reset.ready .table ∧ keyCount State.reset.arch = 0 ∧
      ∃ t, exec .build State.reset = .next t) ∧
    (let s : State := { State.reset with arch := Arch.reset.setFreq 255 1 };
      s.ready .table ∧ keyCount s.arch = 1 ∧ s.arch.freqAt 255 ≠ 0 ∧
      ∃ t, exec .build s = .next t) ∧
    (aaabTable.ready .table ∧ 2 ≤ keyCount aaabTable.arch ∧ ∃ t, exec .build aaabTable = .next t) :=
  ⟨⟨⟨rfl, rfl⟩, by decide +kernel, next_of_see (by decide +kernel)⟩,
    ⟨⟨rfl, rfl⟩, by decide +kernel, by decide +kernel, next_of_see (by decide +kernel)⟩,
    ⟨rfl, rfl⟩, by decide +kernel, next_of_see (by decide +kernel)⟩

/-- The keys of a table of `a` and `b`. -/
theorem pair_keys (wa : Count) (sym : Byte) (h : (pair wa).freqAt sym ≠ 0) : sym = 0x61 ∨ sym = 0x62 := by
  by_contra hn
  rw [not_or] at hn
  exact h ((freqAt_setFreq_other _ _ _ _ hn.2).trans
    ((freqAt_setFreq_other _ _ _ _ hn.1).trans (freqAt_reset sym)))

/-- The only present entries of a tree of `a` and `b`. -/
theorem pairTree_present (wa : Count) (n : NodeIndex)
    (h : ((pairTree wa).arch.node.at n).isSome = true) :
    n = 0x61 ∨ n = 0x62 ∨ n = 256 := by
  rcases index_cases n with ⟨sym, rfl⟩ | ⟨k, hk, rfl⟩ | hn
  · have hl : (pairTree wa).arch.node.at (leafIndex sym) = leafEntry (pair wa) sym :=
      arenaOf_leaf _ _ _
    rw [hl] at h
    unfold leafEntry at h
    split at h
    · cases h
    · rcases pair_keys wa sym ‹_› with rfl | rfl
      · exact .inl rfl
      · exact .inr (.inl rfl)
  · have hm : (pairTree wa).arch.node.at (mergeIndex k) =
        [Node.internal (wa.zeroExtend 40 + 1) 0x62 0x61][k]? := arenaOf_merge _ _ _ hk
    rw [hm] at h
    cases k with
    | zero => exact .inr (.inr rfl)
    | succ k => cases h
  · rw [at_511 _ _ (by omega)] at h
    cases h

theorem pairTree_at_root (wa : Count) :
    (pairTree wa).arch.node.at 256 = some (.internal (wa.zeroExtend 40 + 1) 0x62 0x61) :=
  arenaOf_merge _ _ 0 (by decide)

theorem aaabTree_at_root : aaabTree.arch.node.at 256 = some (.internal 4 0x62 0x61) :=
  pairTree_at_root 3

/-- The entry of a key, a leaf. -/
theorem pairTree_at_leaf (wa : Count) (sym : Byte) (h : (pair wa).freqAt sym ≠ 0) :
    (pairTree wa).arch.node.at (leafIndex sym) = some (.leaf (leafWeight (pair wa) sym) sym) :=
  (arenaOf_leaf _ _ _).trans (if_neg h)

/-- The children in a tree of `a` and `b`: the two leaves, of the root. -/
theorem pairTree_child (wa : Count) (n m : NodeIndex) :
    childOf (pairTree wa).arch.node n m ↔ m = 256 ∧ (n = 0x62 ∨ n = 0x61) := by
  constructor
  · rintro ⟨w, l, r, hm, hn⟩
    rcases index_cases m with ⟨sym, rfl⟩ | ⟨k, hk, rfl⟩ | h
    · have hl : (pairTree wa).arch.node.at (leafIndex sym) = leafEntry (pair wa) sym :=
        arenaOf_leaf _ _ _
      rw [hl, leafEntry] at hm
      split at hm <;> cases hm
    · rcases pairTree_present wa _ (by rw [hm]; rfl) with h | h | h
      all_goals
        have h' := congrArg BitVec.toNat h
        rw [toNat_mergeIndex k hk] at h'
      · exact absurd h' (by change 256 + k ≠ 0x61; omega)
      · exact absurd h' (by change 256 + k ≠ 0x62; omega)
      · rw [h, pairTree_at_root] at hm
        cases hm
        exact ⟨h, hn⟩
    · rw [at_511 _ _ (by omega)] at hm
      cases hm
  · rintro ⟨rfl, h⟩
    exact ⟨_, 0x62, 0x61, pairTree_at_root wa, h⟩

/-- The tree of two keys with `b` on the left is a tree of its table, both when `a` is heavier and
when the two are tied. -/
theorem pairTree_shape (wa : Count) (hw : wa = 1 ∨ wa = 3) : TreeShape (pairTree wa).arch := by
  have hkeys : keyCount (pairTree wa).arch = 2 := by
    rcases hw with rfl | rfl <;> decide +kernel
  have ha : (pairTree wa).arch.node.at 0x61 = some (.leaf (wa.zeroExtend 40) 0x61) := by
    refine (pairTree_at_leaf wa 0x61 ?_).trans ?_ <;> rcases hw with rfl | rfl <;> decide +kernel
  have hb : (pairTree wa).arch.node.at 0x62 = some (.leaf 1 0x62) := by
    refine (pairTree_at_leaf wa 0x62 ?_).trans ?_ <;> rcases hw with rfl | rfl <;> decide +kernel
  refine ⟨fun sym => arenaOf_leaf (pair wa) _ sym, fun k hk => ?_, fun k hk h => ?_,
    fun n hn hroot => ?_, fun n m hn hc => ?_, ?_, fun n x hn hx => ?_⟩
  · rw [hkeys] at hk
    obtain rfl : k = 0 := by omega
    refine ⟨_, 0x62, 0x61, pairTree_at_root wa, by decide, _, _, hb, ha, ?_⟩
    rcases hw with rfl | rfl <;> decide
  · rw [hkeys] at h
    refine (arenaOf_merge (pair wa) _ k hk).trans ?_
    obtain ⟨j, rfl⟩ : ∃ j, k = j + 1 := ⟨k - 1, by omega⟩
    rfl
  · refine ⟨256, (pairTree_child wa n 256).2 ⟨rfl, ?_⟩,
      fun m hm => ((pairTree_child wa n m).1 hm).1⟩
    rcases pairTree_present wa n hn with rfl | rfl | rfl
    · exact .inr rfl
    · exact .inl rfl
    · exact absurd rfl hroot
  · have hn : n = 256 := (Option.some.inj hn).symm
    subst hn
    rcases (pairTree_child wa 256 m).1 hc with ⟨-, h | h⟩ <;> exact absurd h (by decide)
  · unfold RootOf
    rw [hkeys]
    exact ⟨fun h => absurd h (by decide), fun h => absurd h (by decide), fun _ => rfl⟩
  · have hn : n = 256 := (Option.some.inj hn).symm
    subst hn
    rw [pairTree_at_root] at hx
    cases hx
    rcases hw with rfl | rfl <;> decide +kernel

theorem aaabTree_keys : keyCount aaabTree.arch = 2 := by decide +kernel

/-- The tree of "aaab" is a tree of its table. -/
theorem aaabTree_shape : TreeShape aaabTree.arch := pairTree_shape 3 (.inr rfl)

/-- In the tree of "aaab" no two children are tied. -/
theorem aaabTree_ties : TiesByIndex aaabTree.arch.node := by
  intro n w l r nl nr hn hl hr hw
  have hc : n = 256 := ((pairTree_child 3 l n).1 ⟨w, l, r, hn, .inl rfl⟩).1
  rw [hc, aaabTree_at_root] at hn
  cases hn
  have hne : (aaabTree.arch.node.at 0x62).map Node.weight ≠
      (aaabTree.arch.node.at 0x61).map Node.weight := by decide +kernel
  rw [hl, hr] at hne
  exact absurd (congrArg some hw) hne

theorem loneTree_keys : keyCount loneTree.arch = 1 := by decide +kernel

theorem loneTree_present (n : NodeIndex) (h : (loneTree.arch.node.at n).isSome = true) :
    n = 0x61 := by
  rcases index_cases n with ⟨sym, rfl⟩ | ⟨k, hk, rfl⟩ | hn
  · have hl : loneTree.arch.node.at (leafIndex sym) = leafEntry (Arch.reset.setFreq 0x61 9) sym :=
      arenaOf_leaf _ _ _
    rw [hl] at h
    by_cases hs : sym = 0x61
    · exact congrArg leafIndex hs
    · rw [leafEntry, if_pos ((freqAt_setFreq_other _ _ _ _ hs).trans (freqAt_reset sym))] at h
      cases h
  · have hm : loneTree.arch.node.at (mergeIndex k) = ([] : List Node)[k]? := arenaOf_merge _ _ _ hk
    rw [hm] at h
    cases h
  · rw [at_511 _ _ (by omega)] at h
    cases h

theorem loneTree_at_root : loneTree.arch.node.at 0x61 = some (.leaf 9 0x61) := by decide +kernel

theorem loneTree_child (n m : NodeIndex) : ¬childOf loneTree.arch.node n m := by
  rintro ⟨w, l, r, hm, -⟩
  rw [loneTree_present m (by simp [hm]), loneTree_at_root] at hm
  cases hm

/-- The tree of one key is a tree of its table. -/
theorem loneTree_shape : TreeShape loneTree.arch where
  leaves := fun sym => arenaOf_leaf _ _ sym
  merged := by
    intro k hk
    rw [loneTree_keys] at hk
    omega
  absent := fun k hk _ => arenaOf_merge _ [] k hk
  oneParent := by
    intro n hn hroot
    exact absurd (by rw [loneTree_present n hn]; rfl) hroot
  noParent := fun n m _ => loneTree_child n m
  root := by
    unfold RootOf
    rw [loneTree_keys]
    exact ⟨fun h => absurd h (by decide), fun _ => ⟨0x61, by decide +kernel, rfl⟩,
      fun h => absurd h (by decide)⟩
  total := by
    intro n x hn hx
    have hn : n = 0x61 := (Option.some.inj hn).symm
    subst hn
    rw [loneTree_at_root] at hx
    cases hx
    decide +kernel

theorem witness_WeightIsTheSumOfTheLeavesBelow :
    TreeShape aaabTree.arch ∧ aaabTree.arch.node.at 256 = some (.internal 4 0x62 0x61) ∧
      aaabTree.arch.root = some 256 := ⟨aaabTree_shape, aaabTree_at_root, rfl⟩
/-- The largest index, absent; a leaf; an internal node. -/
theorem witness_RdnodeResponds :
    (510#9).toNat ≤ 510 ∧ aaabTree.ready .tree ∧ aaabTree.env.takesNext = true ∧
    TreeShape aaabTree.arch ∧ (inPhase .codes).arch.fault = false ∧
    (inPhase .codes).arch.phase ≠ .tree ∧
    aaabTree.arch.node.at 510 = none ∧
    aaabTree.arch.node.at 0x61 = some (.leaf 3 0x61) ∧
    aaabTree.arch.node.at 256 = some (.internal 4 0x62 0x61) :=
  ⟨by decide, ⟨rfl, rfl⟩, by decide, aaabTree_shape, rfl, by decide, by decide +kernel,
    by decide +kernel, aaabTree_at_root⟩

/-! ### Witnesses: the code-map generator -/

/-- The trees of the other resolutions of a tie are not shut out (41_tree.md rule R114): the
hypotheses hold of the mirrored tree, whose tie is not resolved by index. -/
theorem witness_every_resolution :
    mirrored.ready .tree ∧ TreeShape mirrored.arch ∧ (∃ t, exec .gen mirrored = .next t) ∧
      2 ≤ keyCount mirrored.arch ∧ mirrored.arch.root = some 256 ∧
      follow mirrored.arch.node 256 [true] = some (leafIndex 0x61) ∧
      ¬TiesByIndex mirrored.arch.node :=
  ⟨⟨rfl, rfl⟩, pairTree_shape 1 (.inl rfl), next_of_see (by decide +kernel), by decide +kernel, rfl,
    by decide +kernel, fun h => absurd (h 256 2 0x62 0x61 (.leaf 1 0x62) (.leaf 1 0x61)
      (by decide +kernel) (by decide +kernel) (by decide +kernel) rfl) (by decide)⟩

theorem witness_GenDiscardsTheTree : aaabTree.ready .tree ∧ (510#9).toNat ≤ 510 :=
  ⟨⟨rfl, rfl⟩, by decide⟩
theorem witness_SingleKeyGetsTheCodeZero :
    (loneTree.ready .tree ∧ TreeShape loneTree.arch ∧ (∃ t, exec .gen loneTree = .next t) ∧
      loneTree.arch.freqAt 0x61 ≠ 0 ∧ keyCount loneTree.arch = 1) ∧
    (aaabTree.ready .tree ∧ TreeShape aaabTree.arch ∧ (∃ t, exec .gen aaabTree = .next t) ∧
      aaabTree.arch.freqAt 0x61 ≠ 0 ∧ aaabTree.arch.freqAt 0x63 = 0) :=
  ⟨⟨⟨rfl, rfl⟩, loneTree_shape, next_of_see (by decide +kernel), by decide +kernel, loneTree_keys⟩,
    ⟨rfl, rfl⟩, aaabTree_shape, next_of_see (by decide +kernel), by decide +kernel,
    by decide +kernel⟩
theorem witness_GenMakesAPrefixFreeCode :
    (aaabTree.ready .tree ∧ TreeShape aaabTree.arch ∧ (∃ t, exec .gen aaabTree = .next t) ∧
      2 ≤ keyCount aaabTree.arch ∧ aaabTree.arch.root = some 256 ∧
      follow aaabTree.arch.node 256 [true] = some (leafIndex 0x61)) ∧
    (loneTree.ready .tree ∧ TreeShape loneTree.arch ∧ (∃ t, exec .gen loneTree = .next t) ∧
      loneTree.arch.freqAt 0x61 ≠ 0 ∧ keyCount loneTree.arch = 1) :=
  ⟨⟨⟨rfl, rfl⟩, aaabTree_shape, next_of_see (by decide +kernel), aaabTree_keys.ge, rfl,
    by decide +kernel⟩, ⟨rfl, rfl⟩, loneTree_shape, next_of_see (by decide +kernel),
    by decide +kernel, loneTree_keys⟩
theorem witness_CodeLengthBound :
    aaabTree.ready .tree ∧ TreeShape aaabTree.arch ∧ (∃ t, exec .gen aaabTree = .next t) ∧
      2 ≤ keyCount aaabTree.arch ∧ aaabTree.arch.root = some 256 :=
  ⟨⟨rfl, rfl⟩, aaabTree_shape, next_of_see (by decide +kernel), by decide +kernel, rfl⟩
theorem witness_RdclenResponds :
    ((aaabCodes Packer.zero []).ready .codes ∧ (aaabCodes Packer.zero []).env.takesNext = true) ∧
    ((inPhase .done).ready .done ∧ (inPhase .done).env.takesNext = true) ∧
    (inPhase .table).ready .table ∧ (inPhase .tree).ready .tree :=
  ⟨⟨⟨rfl, rfl⟩, rfl⟩, ⟨⟨rfl, rfl⟩, rfl⟩, ⟨rfl, rfl⟩, rfl, rfl⟩
theorem witness_RdcodeResponds :
    ((longCode []).ready .codes ∧ (longCode []).env.takesNext = true ∧
      ((longCode []).arch.codeAt 0).canonical) ∧
    ((inPhase .done).ready .done ∧ (inPhase .done).env.takesNext = true) ∧
    (inPhase .table).ready .table ∧ (inPhase .tree).ready .tree := by
  refine ⟨⟨⟨rfl, rfl⟩, rfl, ?_⟩, ⟨⟨rfl, rfl⟩, rfl⟩, ⟨rfl, rfl⟩, rfl, rfl⟩
  have h : (longCode []).arch.codeAt 0 = Code.ofList (List.replicate 46 true) :=
    getElem_bindCode_same CodeMap.empty 0 _
  exact h ▸ canonical_ofList (by decide)

/-! ### Witnesses: the bit-packer -/

/-- A bit held, an eighth bit accepted, an eighth bit failed. -/
theorem witness_ShiftInStep :
    (held 42 6 6).nheld ≠ 7 ∧ (held 42 7 7).nheld = 7 ∧
    Env.sinkAccepts { Env.initial with sink := [.ok, .fail] } 1 = true ∧
    ({ Env.initial with sink := [.fail] } : Env).sink = .fail :: [] := by decide
/-- A code that sends bytes out, and one that does not. -/
theorem witness_PackAppendsTheCode :
    (let s := longCode [.ok, .ok, .ok, .ok, .ok];
      s.ready .codes ∧ s.arch.clen 0 ≠ 0 ∧ s.arch.pk.inlen.toNat ≠ 2 ^ 64 - 1 ∧
      s.arch.pk.bitcnt.toNat + (s.arch.clen 0).toNat ≤ 2 ^ 64 - 1 ∧
      s.env.sinkAccepts ((s.arch.pk.nheld.toNat + (s.arch.clen 0).toNat) / 8) = true ∧
      s.arch.pk.acc.toNat < 2 ^ s.arch.pk.nheld.toNat) ∧
    (let s := aaabCodes (held 7 3 3) [.never];
      s.ready .codes ∧ s.arch.clen 0x62 ≠ 0 ∧ s.arch.pk.inlen.toNat ≠ 2 ^ 64 - 1 ∧
      s.arch.pk.bitcnt.toNat + (s.arch.clen 0x62).toNat ≤ 2 ^ 64 - 1 ∧
      s.env.sinkAccepts ((s.arch.pk.nheld.toNat + (s.arch.clen 0x62).toNat) / 8) = true ∧
      s.arch.pk.acc.toNat < 2 ^ s.arch.pk.nheld.toNat) := by
  unfold State.ready
  decide +kernel
theorem witness_FlushPadsAndCloses :
    ((aaabCodes (held 0 0 8) []).ready .codes ∧ (aaabCodes (held 0 0 8) []).arch.pk.nheld = 0) ∧
    (let s := aaabCodes (held 1 1 9) [.ok];
      s.ready .codes ∧ s.arch.pk.nheld ≠ 0 ∧ s.env.sinkAccepts 1 = true) ∧
    (let s := aaabCodes (held 127 7 7) [.fail];
      s.ready .codes ∧ s.arch.pk.nheld ≠ 0 ∧ s.env.sink = .fail :: []) ∧
    (inPhase .done).arch.fault = false ∧ (inPhase .done).arch.phase ≠ .codes := by
  unfold State.ready
  decide +kernel

/-- The packer's registers after "aaab" are exact. -/
theorem aaabCodes_exact : PackerExact (aaabCodes (held 14 4 4) []).arch :=
  ⟨by decide, by decide, by decide, by decide, (fun h => by rcases h with h | h <;> cases h)⟩

theorem witness_OutputLengthAndPadding :
    let s := aaabCodes (held 14 4 4) []
    s.ready .codes ∧ PackerExact s.arch ∧
      see (fun t => (t.arch.fault, t.env.out)) (exec .flush s) = some (false, s.env.out ++ [0xE0]) :=
  ⟨⟨rfl, rfl⟩, aaabCodes_exact, by decide +kernel⟩
/-- The input "aaab", and a sink whose answers are given. -/
theorem witness_PackedStreamIsTheEncoding :
    let s := aaabCodes Packer.zero [.ok, .never]
    s.ready .codes ∧ s.arch.pk = Packer.zero ∧
      (∀ x ∈ [0x61, 0x61, 0x61, 0x62], s.arch.clen x ≠ 0) ∧
      [0x61#8, 0x61#8, 0x61#8, 0x62#8].length < 2 ^ 64 ∧
      (encodedBits s.arch [0x61, 0x61, 0x61, 0x62]).length < 2 ^ 64 ∧
      s.env.sinkAccepts (((encodedBits s.arch [0x61, 0x61, 0x61, 0x62]).length + 7) / 8) = true :=
  ⟨⟨rfl, rfl⟩, rfl, by decide +kernel, by decide, by decide +kernel, by decide +kernel⟩

/-- The entries of the code map of "aaab". -/
theorem aaabMap_at (x : Byte) :
    (x ≠ 0x61 ∧ x ≠ 0x62 ∧ aaabMap[x.toNat]'x.isLt = Code.absent) ∨
    (x = 0x61 ∧ aaabMap[x.toNat]'x.isLt = Code.ofList [true]) ∨
    (x = 0x62 ∧ aaabMap[x.toNat]'x.isLt = Code.ofList [false]) := by
  by_cases hb : x = 0x62
  · subst hb
    exact .inr (.inr ⟨rfl, getElem_bindCode_same _ _ _⟩)
  · have h1 := getElem_bindCode_other (bindCode CodeMap.empty (0x61, [true])) (0x62, [false]) x
      (Ne.symm hb)
    by_cases ha : x = 0x61
    · subst ha
      exact .inr (.inl ⟨rfl, h1.trans (getElem_bindCode_same _ _ _)⟩)
    · exact .inl ⟨ha, hb, h1.trans ((getElem_bindCode_other _ _ _ (Ne.symm ha)).trans
        (by simp [CodeMap.empty]))⟩

/-- The code map of "aaab" is a code of its table. -/
theorem aaabCodes_valid : CodeMapValid (aaabCodes Packer.zero []).arch := by
  have hlen : ∀ x, (aaabCodes Packer.zero []).arch.clen x = (aaabMap[x.toNat]'x.isLt).len :=
    fun _ => rfl
  have hkey : ∀ x : Byte, (aaabCodes Packer.zero []).arch.clen x ≠ 0 → x = 0x61 ∨ x = 0x62 := by
    intro x hx
    rcases aaabMap_at x with ⟨-, -, h⟩ | ⟨h, -⟩ | ⟨h, -⟩
    · rw [hlen, h] at hx
      exact absurd rfl hx
    · exact .inl h
    · exact .inr h
  have hbits : codeBits (aaabCodes Packer.zero []).arch 0x61 = [true] ∧
      codeBits (aaabCodes Packer.zero []).arch 0x62 = [false] := by decide +kernel
  refine ⟨fun x => ⟨fun hx => ?_, fun hx => ?_⟩, fun x y hxy hx hy => ?_,
    fun _ => by decide +kernel, fun h => ?_⟩
  · rcases hkey x hx with rfl | rfl <;> decide +kernel
  · rcases pair_keys 3 x hx with rfl | rfl <;> decide +kernel
  · rcases hkey x hx with rfl | rfl <;> rcases hkey y hy with rfl | rfl
    · exact absurd rfl hxy
    · rw [hbits.1, hbits.2]
      decide
    · rw [hbits.1, hbits.2]
      decide
    · exact absurd rfl hxy
  · have hc : keyCount (aaabCodes Packer.zero []).arch = 2 := aaabTree_keys
    omega

theorem witness_EncodingIsUniquelyDecodable :
    CodeMapValid (aaabCodes Packer.zero []).arch ∧
      (∀ c ∈ [0x61, 0x62], (aaabCodes Packer.zero []).arch.clen c ≠ 0) ∧
      encodedBits (aaabCodes Packer.zero []).arch [0x61, 0x62] =
        encodedBits (aaabCodes Packer.zero []).arch [0x61, 0x62] :=
  ⟨aaabCodes_valid, by decide +kernel, rfl⟩
theorem witness_EmptyInputIsNoFault :
    State.reset.ready .table ∧ PhaseDiscipline State.reset.arch ∧ keyCount State.reset.arch = 0 :=
  ⟨⟨rfl, rfl⟩, ⟨fun _ => ⟨rfl, rfl⟩, fun _ => rfl, fun _ => rfl⟩, by decide +kernel⟩

/-! ### Witnesses: system commands and reset -/

theorem witness_ClearStartsOver :
    (inPhase .done).arch.fault = false ∧ FaultRecord (inPhase .done).arch ∧
      faulted.arch.fault = true :=
  ⟨rfl, ⟨fun _ => ⟨rfl, rfl⟩, fun h => by cases h⟩, rfl⟩
theorem witness_RdregResponds :
    State.reset.env.takesNext = true ∧ faulted.env.takesNext = true ∧ faulted.arch.fault = true := by
  decide +kernel
/-- The command that the reset cuts would have completed, or would have waited for ever at the sink
or at the response port. -/
theorem witness_ResetCutsACommandShort :
    (let s := (longCode []).withInputs [.cutShort 0x0600000000000000];
      s.env.inputs = .cutShort 0x0600000000000000 :: [] ∧
      see (fun u => u.env.out.length)
        (takeWord 0x0600000000000000 { s with env := { s.env with inputs := [] } }) = some 5) ∧
    (let s := (longCode [.ok, .ok, .never]).withInputs [.cutShort 0x0600000000000000];
      s.env.inputs = .cutShort 0x0600000000000000 :: [] ∧
      takeWord 0x0600000000000000 { s with env := { s.env with inputs := [] } } =
        .fault (.sinkNeverReady [0xFF, 0xFF])) ∧
    (let s := { aaabTable with env := { Env.initial with
        inputs := [.cutShort 0x0961000000000000], taker := [.never] } };
      s.env.inputs = .cutShort 0x0961000000000000 :: [] ∧
      takeWord 0x0961000000000000 { s with env := { s.env with inputs := [] } } =
        .fault (.responseNeverTaken 3)) :=
  ⟨⟨rfl, by decide +kernel⟩, ⟨rfl, eq_of_stop (by decide +kernel)⟩, rfl,
    eq_of_stop (by decide +kernel)⟩

/-! ### Witnesses: invariants -/

/-- One state for the five steps: `PACK` of `b` after "aaa". -/
def packing : State :=
  (aaabCodes (held 7 3 3) []).withInputs [.command 0x0662000000000000]

theorem packing_steps : ∃ t, step packing = .next t := next_of_see (by decide +kernel)

theorem witness_StepKeepsTheFaultRecord :
    FaultRecord packing.arch ∧ ∃ t, step packing = .next t :=
  ⟨⟨fun _ => ⟨rfl, rfl⟩, fun h => by cases h⟩, packing_steps⟩
theorem witness_StepKeepsPhaseDiscipline :
    PhaseDiscipline packing.arch ∧ ∃ t, step packing = .next t :=
  ⟨⟨fun _ => ⟨rfl, rfl⟩, (fun h => by rcases h with h | h <;> cases h),
    (fun h => by rcases h with h | h <;> cases h)⟩, packing_steps⟩
theorem witness_StepKeepsThePackerExact :
    (packerTrusted packing.arch → PackerExact packing.arch) ∧ packerTrusted packing.arch ∧
      see (fun t => t.arch.fault) (step packing) = some false :=
  ⟨fun _ => ⟨by decide, by decide, by decide, by decide,
    (fun h => by rcases h with h | h <;> cases h)⟩, (fun h => by cases h.1), by decide +kernel⟩
theorem witness_StepKeepsCodesCanonical :
    CodesCanonical packing.arch ∧ ∃ t, step packing = .next t := by
  refine ⟨?_, packing_steps⟩
  intro sym
  have hcode : packing.arch.codeAt sym = aaabMap[sym.toNat]'sym.isLt := rfl
  rw [hcode]
  rcases aaabMap_at sym with ⟨-, -, h⟩ | ⟨-, h⟩ | ⟨-, h⟩
  · exact h ▸ canonical_absent
  · exact h ▸ canonical_ofList (by decide)
  · exact h ▸ canonical_ofList (by decide)
theorem witness_StepKeepsCodingSound :
    (CodingSound (aaabTree.withInputs [.command 0x0500000000000000]).arch ∧
      ∃ t, step (aaabTree.withInputs [.command 0x0500000000000000]) = .next t) ∧
    (CodingSound packing.arch ∧ ∃ t, step packing = .next t) :=
  ⟨⟨⟨fun _ => aaabTree_shape, fun _ => aaabTree_ties,
      fun h => h.elim (fun h => by cases h) fun h => by cases h⟩, next_of_see (by decide +kernel)⟩,
    ⟨(fun h => by cases h), (fun h => by cases h), fun _ =>
      ⟨aaabCodes_valid.coverage, aaabCodes_valid.prefixFree, aaabCodes_valid.complete,
        aaabCodes_valid.single⟩⟩, packing_steps⟩

/-! ### Witnesses: whole-machine rules -/

/-- A step of each kind that writes one of the structures. -/
theorem witness_WritersOfEachStructure :
    (∃ t, exec (.count 0x61) State.reset = .next t) ∧ (∃ t, exec .build aaabTable = .next t) ∧
    (∃ t, exec .gen aaabTree = .next t) ∧
    (∃ t, exec .flush (aaabCodes (held 14 4 4) []) = .next t) ∧
    ∃ t, exec (.pack 0x61) State.reset = .next t :=
  ⟨next_of_see (by decide +kernel), next_of_see (by decide +kernel), next_of_see (by decide +kernel), next_of_see (by decide +kernel), next_of_see (by decide +kernel)⟩
theorem two_reads : ∃ t u, exec (.rdnode 256) aaabTree = .next t ∧
    exec (.rdnode 256) t = .next u := by
  obtain ⟨t, ht⟩ := next_of_see (r := exec (.rdnode 256) aaabTree) (by decide +kernel)
  obtain ⟨u, hu⟩ : ∃ u, exec (.rdnode 256) t = .next u := by
    have h : see (fun t => see (fun _ => ()) (exec (.rdnode 256) t))
        (exec (.rdnode 256) aaabTree) = some (some ()) := by decide +kernel
    rw [ht] at h
    exact next_of_see (Option.some.inj h)
  exact ⟨t, u, ht, hu⟩
theorem witness_ReadsHaveNoSideEffect :
    isRead (.rdnode 256) = true ∧ (Instr.rdnode 256).wellFormed = true ∧
    accepts (.rdnode 256) aaabTree.arch.phase = true ∧ aaabTree.arch.fault = false ∧
    (∃ t u, exec (.rdnode 256) aaabTree = .next t ∧ exec (.rdnode 256) t = .next u) ∧
    see (fun t => t.env.out) (exec .flush (aaabCodes (held 14 4 4) [])) = some [0xE0] :=
  ⟨rfl, rfl, rfl, rfl, two_reads, by decide +kernel⟩
theorem witness_HistoriesOnlyGrow :
    ∃ t, step ((longCode []).withInputs [.cutShort 0x0600000000000000]) = .next t := next_of_see (by decide +kernel)

end Sys2Proof.Tests
end

section
/-! What a command does to the outside, and that a read does nothing else (20_memory.md rule R65). -/

namespace Sys2Proof.Machine

/-- A read that runs changes nothing but the response stream. -/
theorem ran_read {s t : State} {i : Instr} (hr : isRead i = true) (h : Ran s i t) :
    t = { s with env := s.env.afterResponse (readValue i s.arch) } := by
  cases h with
  | read => rfl
  | _ => cases hr

/-- A read that its phase accepts is dropped by a faulted block, or it runs. -/
theorem exec_read_accepted {s t : State} {i : Instr} (hr : isRead i = true)
    (hw : i.wellFormed = true) (h : exec i s = .next t) (ha : accepts i s.arch.phase = true) :
    (s.arch.fault = true ∧ t = s) ∨
      t = { s with env := s.env.afterResponse (readValue i s.arch) } := by
  rcases exec_cases h with hdrop | ⟨-, -, -, hran⟩ | ⟨-, hbad, -⟩ | ⟨-, -, hbad, -⟩ |
    ⟨-, -, -, hran⟩
  · exact .inl hdrop
  · exact .inr (ran_read hr hran)
  · simp [hw] at hbad
  · simp [ha] at hbad
  · exact .inr (ran_read hr hran)

/-- A command that does not run leaves the environment alone. -/
theorem exec_env_or_ran {s t : State} {i : Instr} (h : exec i s = .next t) :
    t.env = s.env ∨ Ran s i t := by
  rcases exec_cases h with ⟨-, rfl⟩ | ⟨-, -, -, hran⟩ | ⟨-, -, rfl⟩ | ⟨-, -, -, rfl⟩ |
    ⟨-, -, -, hran⟩
  · exact .inl rfl
  · exact .inr hran
  · exact .inl rfl
  · exact .inl rfl
  · exact .inr hran

/-- A command other than `PACK` and `FLUSH` writes no byte. -/
theorem ran_out {s t : State} {i : Instr} (h : Ran s i t) :
    t.env.out = s.env.out ∨ (∃ sym, i = .pack sym) ∨ i = .flush := by
  cases h with
  | pack sym | packFailed sym => exact .inr (.inl ⟨sym, rfl⟩)
  | flush | flushFailed => exact .inr (.inr rfl)
  | _ => exact .inl rfl

/-- A command other than a read responds nothing; a read responds with one word. -/
theorem ran_rsp {s t : State} {i : Instr} (h : Ran s i t) :
    t.env.rsp = s.env.rsp ∨
      (isRead i = true ∧ t.env.rsp = s.env.rsp ++ [readValue i s.arch]) := by
  cases h with
  | read i hr => exact .inr ⟨hr, rfl⟩
  | _ => exact .inl rfl

/-- Only `PACK` and `FLUSH` write to the sink. -/
theorem exec_out {s t : State} {i : Instr} (h : exec i s = .next t) (hne : t.env.out ≠ s.env.out) :
    (∃ sym, i = .pack sym) ∨ i = .flush := by
  rcases exec_env_or_ran h with he | hran
  · exact absurd (congrArg Env.out he) hne
  · exact (ran_out hran).resolve_left hne

/-- Only the reads respond. -/
theorem exec_rsp {s t : State} {i : Instr} (h : exec i s = .next t) (hne : t.env.rsp ≠ s.env.rsp) :
    isRead i = true ∧ t.env.rsp = s.env.rsp ++ [readValue i s.arch] := by
  rcases exec_env_or_ran h with he | hran
  · exact absurd (congrArg Env.rsp he) hne
  · exact (ran_rsp hran).resolve_left hne

/-- Settles O54: a read that runs only responds, with a word that is a function of the block's state
(`readValue`); that state is unchanged, so the repeat responds with the same word. -/
theorem readsHaveNoSideEffect : Obligations.ReadsHaveNoSideEffect := by
  refine ⟨fun i s t hr hw ha ht => ?_, fun i s t ht => ⟨exec_out ht, fun hne => ?_⟩⟩
  · rcases exec_read_accepted hr hw ht ha with ⟨hf, rfl⟩ | rfl
    · exact ⟨rfl, rfl, fun hclean => absurd hf (by simp [hclean])⟩
    · refine ⟨rfl, rfl, fun hclean u hu => ⟨readValue i s.arch, rfl, ?_⟩⟩
      rcases exec_read_accepted hr hw hu ha with ⟨hf, -⟩ | rfl
      · exact absurd hf (by simp [hclean])
      · rfl
  · obtain ⟨hread, hword⟩ := exec_rsp ht hne
    exact ⟨hread, _, hword⟩

end Sys2Proof.Machine
end

section
/-! The encoding map: which words decode, and to what (30_encoding.md rules R81 to R84). -/

namespace Sys2Proof

/-! ### Fields of a masked word -/

theorem fieldOp_and (v w : CmdWord) : fieldOp (v &&& w) = fieldOp v &&& fieldOp w :=
  BitVec.extractLsb'_and

theorem fieldA_and (v w : CmdWord) : fieldA (v &&& w) = fieldA v &&& fieldA w :=
  BitVec.extractLsb'_and

theorem fieldZ_and (v w : CmdWord) : fieldZ (v &&& w) = fieldZ v &&& fieldZ w :=
  BitVec.extractLsb'_and

theorem fieldImm_and (v w : CmdWord) : fieldImm (v &&& w) = fieldImm v &&& fieldImm w :=
  BitVec.extractLsb'_and

/-- A row covers a word when it does so field by field. -/
theorem covers_iff (r : OpcodeRow) (w : CmdWord) :
    r.covers w = true ↔
      fieldOp w &&& fieldOp r.mask = fieldOp r.pattern ∧
      fieldA w &&& fieldA r.mask = fieldA r.pattern ∧
      fieldZ w &&& fieldZ r.mask = fieldZ r.pattern ∧
      fieldImm w &&& fieldImm r.mask = fieldImm r.pattern ∧ r.extra.holds w = true := by
  rw [OpcodeRow.covers, Bool.and_eq_true, beq_iff_eq, ← fieldOp_and, ← fieldA_and, ← fieldZ_and,
    ← fieldImm_and]
  constructor
  · rintro ⟨h, he⟩
    rw [h]
    exact ⟨rfl, rfl, rfl, rfl, he⟩
  · rintro ⟨hop, ha, hz, himm, he⟩
    exact ⟨word_ext hop ha hz himm, he⟩

/-- A mask of all bits from `k` on tests for a value below `2 ^ k`. -/
theorem and_highMask_eq_zero {n : Nat} (x : BitVec n) (k : Nat) :
    x &&& (BitVec.allOnes n <<< k) = 0 ↔ x.toNat < 2 ^ k := by
  constructor
  · intro h
    refine Nat.lt_pow_two_of_testBit _ fun i hi => ?_
    by_cases hn : i < n
    · have hbit := congrArg (fun y => BitVec.getLsbD y i) h
      simpa [hn, Nat.not_lt.mpr hi, BitVec.getLsbD, Nat.lt_of_le_of_lt (Nat.sub_le i k) hn]
        using hbit
    · exact BitVec.getLsbD_of_ge x i (by omega)
  · intro h
    refine BitVec.eq_of_getLsbD_eq fun i hi => ?_
    by_cases hk : i < k
    · simp [hk]
    · have hx : x.getLsbD i = false :=
        Nat.testBit_lt_two_pow (Nat.lt_of_lt_of_le h (Nat.pow_le_pow_right (by decide) (by omega)))
      simp [hx]

/-! ### The six formats, one equation each -/

theorem decodeZ_eq_ok {w : CmdWord} {i j : Instr} :
    decodeZ w i = .ok j ↔ fieldZ w = 0 ∧ (fieldA w = 0 ∧ fieldImm w = 0) ∧ j = i := by
  unfold decodeZ
  split_ifs <;> simp_all [eq_comm]

theorem decodeS_eq_ok {w : CmdWord} {mk : Byte → Instr} {i : Instr} :
    decodeS w mk = .ok i ↔ fieldZ w = 0 ∧ fieldImm w = 0 ∧ i = mk (fieldA w) := by
  unfold decodeS
  split_ifs <;> simp_all [eq_comm]

theorem decodeLdfreq_eq_ok {w : CmdWord} {i : Instr} :
    decodeLdfreq w = .ok i ↔ fieldZ w = 0 ∧ i = .ldfreq (fieldA w) (fieldImm w) := by
  unfold decodeLdfreq
  split_ifs <;> simp_all [eq_comm]

theorem decodeRdcode_eq_ok {w : CmdWord} {i : Instr} :
    decodeRdcode w = .ok i ↔ fieldZ w = 0 ∧ (fieldImm w).toNat < 4 ∧
      i = .rdcode (fieldA w) ((fieldImm w).extractLsb' 0 2) := by
  unfold decodeRdcode
  split_ifs <;> simp_all [eq_comm]

theorem decodeRdnode_eq_ok {w : CmdWord} {i : Instr} :
    decodeRdnode w = .ok i ↔ fieldZ w = 0 ∧ (fieldA w = 0 ∧ (fieldImm w).toNat < 511) ∧
      i = .rdnode ((fieldImm w).extractLsb' 0 9) := by
  unfold decodeRdnode
  split_ifs <;> simp_all [eq_comm]

theorem decodeRdreg_eq_ok {w : CmdWord} {i : Instr} :
    decodeRdreg w = .ok i ↔ fieldZ w = 0 ∧ fieldImm w = 0 ∧
      ∃ r, StatusReg.ofNumber (fieldA w) = some r ∧ i = .rdreg r := by
  unfold decodeRdreg
  cases StatusReg.ofNumber (fieldA w) <;> split_ifs <;> simp_all [eq_comm]

/-! ### Which words decode -/

theorem exists_ofNumber_iff (n : Byte) :
    (∃ r, StatusReg.ofNumber n = some r) ↔ n.toNat ≤ 8 := by
  rw [← Option.isSome_iff_exists, statusReg_ofNumber_isSome, decide_eq_true_iff]

/-- The values of `A` and `IMM` that the format of the opcode `op` admits (30_encoding.md rules R81,
R82 and R84); a reserved opcode admits none. -/
def OperandsLegal (op : Nat) (a : BitVec 8) (imm : BitVec 32) : Prop :=
  match op with
  | 0x01 | 0x04 | 0x05 | 0x07 => a = 0 ∧ imm = 0
  | 0x02 | 0x06 | 0x09 | 0x0B => imm = 0
  | 0x03 => True
  | 0x08 => imm = 0 ∧ a.toNat ≤ 8
  | 0x0A => a = 0 ∧ imm.toNat < 511
  | 0x0C => imm.toNat < 4
  | _ => False

/-- The words that decode, by their fields. -/
theorem decode_ok_iff (w : CmdWord) :
    (∃ i, decode w = .ok i) ↔
      fieldZ w = 0 ∧ OperandsLegal (fieldOp w).toNat (fieldA w) (fieldImm w) := by
  unfold decode
  split
  case h_1 h | h_4 h | h_5 h | h_7 h => simp [h, OperandsLegal, decodeZ_eq_ok]
  case h_2 h | h_6 h | h_9 h | h_11 h => simp [h, OperandsLegal, decodeS_eq_ok]
  case h_3 h => simp [h, OperandsLegal, decodeLdfreq_eq_ok]
  case h_8 h =>
    simp only [h, OperandsLegal, decodeRdreg_eq_ok, ← exists_ofNumber_iff]
    exact ⟨fun ⟨_, hz, himm, r, hr, _⟩ => ⟨hz, himm, r, hr⟩,
      fun ⟨hz, himm, r, hr⟩ => ⟨_, hz, himm, r, hr, rfl⟩⟩
  case h_10 h => simp [h, OperandsLegal, decodeRdnode_eq_ok]
  case h_12 h => simp [h, OperandsLegal, decodeRdcode_eq_ok]
  case h_13 => simp [OperandsLegal, *]

theorem exists_error_iff {ε α : Type} (x : Except ε α) :
    (∃ e, x = .error e) ↔ ¬∃ a, x = .ok a := by
  cases x <;> simp

/-! ### The opcode map -/

/-- The mask of `RDNODE` and its extra constraint leave the indices 0 to 510 (30_encoding.md rule
R83). -/
theorem index_mask_iff (x : BitVec 32) :
    (x &&& 0xFFFFFE00#32 = 0#32 ∧ x ≠ 511#32) ↔ x.toNat < 511 := by
  have h : x &&& 0xFFFFFE00#32 = 0#32 ↔ x.toNat < 2 ^ 9 := and_highMask_eq_zero x 9
  rw [h, Ne, ← BitVec.toNat_inj]
  change _ ∧ ¬ x.toNat = 511 ↔ _
  omega

/-- The mask of `RDCODE` leaves the chunk numbers 0 to 3 (30_encoding.md rule R83). -/
theorem chunk_mask_iff (x : BitVec 32) : x &&& 0xFFFFFFFC#32 = 0#32 ↔ x.toNat < 4 :=
  and_highMask_eq_zero x 2

/-- Mask, match and extra constraint of a row say what the format of its opcode says
(30_encoding.md rules R81 and R83). -/
theorem covers_iff_operandsLegal {r : OpcodeRow} (hr : r ∈ opcodeMap) (w : CmdWord) :
    r.covers w = true ↔ fieldOp w = fieldOp r.pattern ∧ fieldZ w = 0 ∧
      OperandsLegal (fieldOp r.pattern).toNat (fieldA w) (fieldImm w) := by
  have full8 (x : BitVec 8) : x &&& 255#8 = x := BitVec.and_allOnes
  have full16 (x : BitVec 16) : x &&& 65535#16 = x := BitVec.and_allOnes
  have full32 (x : BitVec 32) : x &&& 4294967295#32 = x := BitVec.and_allOnes
  rw [covers_iff]
  fin_cases hr <;> simp only [ExtraConstraint.holds]
  all_goals
    generalize fieldOp w = op, fieldA w = a, fieldZ w = z, fieldImm w = imm
    simp [fieldOp, fieldA, fieldZ, fieldImm, OperandsLegal, full8, full16, full32, chunk_mask_iff,
      ← index_mask_iff, and_left_comm]

theorem row_of_operandsLegal {op : Nat} {a : BitVec 8} {imm : BitVec 32}
    (h : OperandsLegal op a imm) : ∃ r ∈ opcodeMap, (fieldOp r.pattern).toNat = op := by
  unfold OperandsLegal at h
  split at h
  case h_13 => exact h.elim
  all_goals decide

/-- The rows of the map exclude one another: their opcodes differ. -/
theorem row_eq_of_opcode : ∀ r ∈ opcodeMap, ∀ r' ∈ opcodeMap,
    fieldOp r.pattern = fieldOp r'.pattern → r = r' := by decide

theorem decode_ok_iff_existsUnique_row (w : CmdWord) :
    (∃ i, decode w = .ok i) ↔ ∃! r : OpcodeRow, r ∈ opcodeMap ∧ r.covers w = true := by
  rw [decode_ok_iff]
  constructor
  · rintro ⟨hz, hlegal⟩
    obtain ⟨r, hr, hop⟩ := row_of_operandsLegal hlegal
    have hop' : fieldOp w = fieldOp r.pattern := BitVec.eq_of_toNat_eq hop.symm
    refine ⟨r, ⟨hr, (covers_iff_operandsLegal hr w).mpr ⟨hop', hz, hop ▸ hlegal⟩⟩, ?_⟩
    rintro r' ⟨hr', hc'⟩
    obtain ⟨hop'', -⟩ := (covers_iff_operandsLegal hr' w).mp hc'
    exact row_eq_of_opcode r' hr' r hr (hop''.symm.trans hop')
  · rintro ⟨r, ⟨hr, hc⟩, -⟩
    obtain ⟨hop, hz, hlegal⟩ := (covers_iff_operandsLegal hr w).mp hc
    exact ⟨hz, hop ▸ hlegal⟩

theorem decode_error_iff (w : CmdWord) :
    (∃ e, decode w = .error e) ↔
      fieldZ w ≠ 0 ∨ ¬OperandsLegal (fieldOp w).toNat (fieldA w) (fieldImm w) := by
  rw [exists_error_iff, decode_ok_iff, not_and_or]

/-- The reasons of 30_encoding.md rule R84, `Z` apart. -/
theorem not_operandsLegal_iff (op : Nat) (a : BitVec 8) (imm : BitVec 32) :
    ¬OperandsLegal op a imm ↔
      op = 0x00 ∨ 0x0D ≤ op ∨
      (a ≠ 0 ∧ op ∈ [0x01, 0x04, 0x05, 0x07, 0x0A]) ∨
      (imm ≠ 0 ∧ op ∈ [0x01, 0x04, 0x05, 0x07, 0x02, 0x06, 0x09, 0x0B, 0x08]) ∨
      (op = 0x08 ∧ 9 ≤ a.toNat) ∨
      (op = 0x0A ∧ 511 ≤ imm.toNat) ∨
      (op = 0x0C ∧ 4 ≤ imm.toNat) := by
  unfold OperandsLegal
  split
  case h_13 =>
    simp only [imp_false] at *
    have h : op = 0 ∨ 13 ≤ op := by omega
    simpa using h.imp_right .inl
  case h_10 =>
    have h : 9 ≤ a.toNat ↔ ¬a.toNat ≤ 8 := by omega
    simp [h, or_iff_not_imp_left]
  all_goals simp [or_iff_not_imp_left]

/-! ### What a word decodes to -/

theorem zeroExtend_extract {n k : Nat} {x : BitVec n} (h : x.toNat < 2 ^ k) :
    (x.extractLsb' 0 k).zeroExtend n = x := by
  refine BitVec.eq_of_toNat_eq ?_
  simp [Nat.mod_eq_of_lt h]

/-- The fields of a word that decodes are those of the command it decodes to. -/
theorem fields_of_decode {w : CmdWord} {i : Instr} (h : decode w = .ok i) :
    fieldOp w = i.opcode ∧ fieldA w = i.operandA ∧ fieldZ w = 0 ∧ fieldImm w = i.operandImm ∧
      i.wellFormed = true := by
  unfold decode at h
  split at h
  case h_1 hop | h_4 hop | h_5 hop | h_7 hop =>
    obtain ⟨hz, ⟨ha, himm⟩, rfl⟩ := decodeZ_eq_ok.mp h
    exact ⟨BitVec.eq_of_toNat_eq hop, ha, hz, himm, rfl⟩
  case h_2 hop | h_6 hop | h_9 hop | h_11 hop =>
    obtain ⟨hz, himm, rfl⟩ := decodeS_eq_ok.mp h
    exact ⟨BitVec.eq_of_toNat_eq hop, rfl, hz, himm, rfl⟩
  case h_3 hop =>
    obtain ⟨hz, rfl⟩ := decodeLdfreq_eq_ok.mp h
    exact ⟨BitVec.eq_of_toNat_eq hop, rfl, hz, rfl, rfl⟩
  case h_8 hop =>
    obtain ⟨hz, himm, r, hr, rfl⟩ := decodeRdreg_eq_ok.mp h
    exact ⟨BitVec.eq_of_toNat_eq hop, (statusReg_number_of_ofNumber hr).symm, hz, himm, rfl⟩
  case h_10 hop =>
    obtain ⟨hz, ⟨ha, hlt⟩, rfl⟩ := decodeRdnode_eq_ok.mp h
    have hidx : (fieldImm w).toNat % 512 ≤ 510 := by omega
    exact ⟨BitVec.eq_of_toNat_eq hop, ha, hz, (zeroExtend_extract (by omega)).symm,
      by simpa [Instr.wellFormed, BitVec.le_def] using hidx⟩
  case h_12 hop =>
    obtain ⟨hz, hlt, rfl⟩ := decodeRdcode_eq_ok.mp h
    exact ⟨BitVec.eq_of_toNat_eq hop, rfl, hz, (zeroExtend_extract hlt).symm, rfl⟩
  case h_13 => cases h

/-- The command a word decodes to has that word. -/
theorem encode_of_decode {w : CmdWord} {i : Instr} (h : decode w = .ok i) : encode i = w := by
  obtain ⟨hop, ha, hz, himm, -⟩ := fields_of_decode h
  rw [encode, ← hop, ← ha, ← himm, commandWord_fields w hz]

theorem wellFormed_of_decode {w : CmdWord} {i : Instr} (h : decode w = .ok i) :
    i.wellFormed = true := by
  obtain ⟨-, -, -, -, hwf⟩ := fields_of_decode h
  exact hwf

end Sys2Proof
end

section
/-! The order of checks on a word (30_encoding.md rule R91), and the cause and the phase an accepted
command leaves (rules R88 and R91). -/

namespace Sys2Proof.Machine

/-! ### The checks before a command's own rule -/

/-- Every command passes the checks before its own rule. -/
theorem exec_eq_checked (i : Instr) (s : State) : ∃ own, exec i s = checked i s own := by
  cases i <;> exact ⟨_, rfl⟩

theorem exec_rdreg_faulted {s : State} (r : StatusReg) (hf : s.arch.fault = true) :
    exec (.rdreg r) s = respond (statusReg r s.arch) s :=
  checked_rdreg_faulted _ hf

theorem exec_dropped {i : Instr} {s : State} (hf : s.arch.fault = true)
    (hr : runsWhileFaulted i = false) : exec i s = .next s := by
  obtain ⟨own, h⟩ := exec_eq_checked i s
  rw [h, checked_faulted own hf (by simp [hr])]

theorem exec_badPhase {i : Instr} {s : State} (hf : s.arch.fault = false)
    (hw : i.wellFormed = true) (ha : accepts i s.arch.phase = false) :
    exec i s = .next (raiseFault .badPhase (encode i) s) := by
  obtain ⟨own, h⟩ := exec_eq_checked i s
  rw [h, checked_badPhase own hf hw ha]

theorem takeWord_malformed {w : CmdWord} {e : Malformed} {s : State} (h : decode w = .error e)
    (hf : s.arch.fault = false) : takeWord w s = .next (raiseFault .illegalCmd w s) := by
  rw [takeWord_error s h, takeMalformed_clean hf]

theorem runsWhileFaulted_eq_true {i : Instr} (h : runsWhileFaulted i = true) :
    ∃ r, i = .rdreg r := by
  cases i with
  | rdreg r => exact ⟨r, rfl⟩
  | _ => cases h

theorem takeWord_dropped {w : CmdWord} {s : State} (hf : s.arch.fault = true)
    (h : ∀ r, decode w ≠ .ok (.rdreg r)) : takeWord w s = .next s := by
  cases hd : decode w with
  | error e => rw [takeWord_error s hd, takeMalformed_faulted hf]
  | ok i =>
    rw [takeWord_ok s hd]
    refine exec_dropped hf (Bool.eq_false_iff.mpr fun hr => ?_)
    obtain ⟨r, rfl⟩ := runsWhileFaulted_eq_true hr
    exact h r hd

theorem takeWord_badPhase {w : CmdWord} {i : Instr} {s : State} (hd : decode w = .ok i)
    (hf : s.arch.fault = false) (ha : accepts i s.arch.phase = false) :
    takeWord w s = .next (raiseFault .badPhase w s) := by
  rw [takeWord_ok s hd, exec_badPhase hf (wellFormed_of_decode hd) ha, encode_of_decode hd]

/-! ### What an accepted command leaves -/

theorem exec_accepted {i : Instr} {s t : State} (hf : s.arch.fault = false)
    (hw : i.wellFormed = true) (ha : accepts i s.arch.phase = true) (h : exec i s = .next t) :
    Ran s i t := by
  rcases exec_cases h with ⟨hbad, -⟩ | ⟨hbad, -⟩ | ⟨-, hbad, -⟩ | ⟨-, -, hbad, -⟩ | ⟨-, -, -, hran⟩
  · simp [hf] at hbad
  · simp [hf] at hbad
  · simp [hw] at hbad
  · simp [ha] at hbad
  · exact hran

/-- The rule of a command raises neither `ILLEGAL_CMD` nor `BAD_PHASE`: those are the checks'. -/
theorem ran_cause {i : Instr} {s t : State} (h : Ran s i t) :
    t.arch.cause = s.arch.cause ∨ t.arch.cause ∈ [.freqOvf, .noCode, .cntOvf, .sinkFail] := by
  cases h with
  | countAtMax | packNoCode | packOverflow | packFailed | flushFailed => exact .inr (by simp)
  | _ => exact .inl rfl

theorem phaseAfter_read {i : Instr} (p : Phase) (h : isRead i = true) : phaseAfter i p = p := by
  cases i with
  | rdreg | rdfreq | rdnode | rdclen | rdcode => rfl
  | _ => cases h

theorem ran_phase {i : Instr} {s t : State} (h : Ran s i t) (hf : t.arch.fault = false) :
    t.arch.phase = phaseAfter i s.arch.phase := by
  cases h with
  | countAtMax | packNoCode | packOverflow | packFailed | flushFailed => simp at hf
  | read i hr => exact (phaseAfter_read _ hr).symm
  | _ => rfl

theorem exec_phase {i : Instr} {s t : State} (h : exec i s = .next t) (hs : s.arch.fault = false)
    (ht : t.arch.fault = false) : t.arch.phase = phaseAfter i s.arch.phase := by
  rcases exec_cases h with ⟨hbad, -⟩ | ⟨hbad, -⟩ | ⟨-, -, rfl⟩ | ⟨-, -, -, rfl⟩ | ⟨-, -, -, hran⟩
  · simp [hs] at hbad
  · simp [hs] at hbad
  · simp at ht
  · simp at ht
  · exact ran_phase hran ht

/-! ### The statements -/

/-- Settles O5: both the map's rows and the decoder come down to `Z` = 0 and `OperandsLegal`; the
rows exclude one another by their opcodes, and `not_operandsLegal_iff` lists the reasons. -/
theorem malformedWordsAreIllegal : Obligations.MalformedWordsAreIllegal := by
  refine ⟨decode_ok_iff_existsUnique_row, fun w => ?_, fun w e s hd hf => takeWord_malformed hd hf,
    ⟨.reservedOpcode, rfl⟩, ⟨.reservedOpcode, rfl⟩⟩
  rw [decode_error_iff, not_operandsLegal_iff]
  tauto

/-- Settles O8: every command is `checked` of its own rule, the word of the decoded command is the
word taken, and no rule raises the faults of the checks (`ran_cause`). -/
theorem orderOfChecks : Obligations.OrderOfChecks := by
  intro w s
  refine ⟨fun hf => ⟨fun r hd => ?_, takeWord_dropped hf⟩, fun hf e hd => takeWord_malformed hd hf,
    fun hf i hd ha => takeWord_badPhase hd hf ha,
    fun hf i hd ha => ⟨takeWord_ok s hd, fun t ht => ?_⟩⟩
  · rw [takeWord_ok s hd, exec_rdreg_faulted r hf]
  · exact ran_cause (exec_accepted hf (wellFormed_of_decode hd) ha ht)

/-- Settles O9: the cells are those of `accepts`, a `BAD` cell is the phase check of `checked`, and
the phase left is read off the ways a command's rule can end (`ran_phase`). -/
theorem phaseAcceptanceTable : Obligations.PhaseAcceptanceTable := by
  refine ⟨?_, ?_, ?_, ?_, ?_, ?_, ?_, ?_, ?_, ?_, ?_, ?_,
    fun i s hw hf ha => exec_badPhase hf hw ha, fun i s t h hs ht => exec_phase h hs ht⟩
  all_goals simp [accepts]

end Sys2Proof.Machine
end

section
/-! The frequency-table commands (40_frequency.md): what writing one count does to `NSYM` and
`TOTALW`, and each command's rule once the checks are passed. -/

namespace Sys2Proof.Machine

/-! ### Words of the three commands -/

theorem toNat_encode (i : Instr) :
    (encode i).toNat = i.opcode.toNat * 2 ^ 56 + i.operandA.toNat * 2 ^ 48 + i.operandImm.toNat :=
  toNat_commandWord _ _ _

theorem toNat_encode_noImm {i : Instr} (h : i.operandImm = 0) :
    (encode i).toNat = i.opcode.toNat * 2 ^ 56 + i.operandA.toNat * 2 ^ 48 := by
  simp [toNat_encode, h]

/-- The malformed words of every opcode are refused (30_encoding.md rule R91, 60_exceptions.md rule
R175). -/
theorem malformedRefused_all (op : BitVec 8) (s : State) : malformedRefused op s := by
  intro w e _ hd
  rw [takeWord_error s hd, takeMalformed]

/-! ### The derived registers after one count is written -/

theorem toNat_statusReg_nsym (a : Arch) : (statusReg .nsym a).toNat = keyCount a := by
  have h := keyCount_le a
  unfold keyCount at *
  simp only [statusReg, nsym, BitVec.toNat_setWidth, BitVec.toNat_ofNat]
  omega

theorem toNat_statusReg_totalw (a : Arch) : (statusReg .totalw a).toNat = totalWeight a := by
  have h := totalWeight_lt a
  unfold totalWeight at *
  simp only [statusReg, totalw, BitVec.toNat_setWidth, BitVec.toNat_ofNat]
  omega

/-- Writing one count replaces one element of the counts, seen without their order. -/
theorem freq_perm_setFreq (a : Arch) (sym : Byte) (cnt : Count) :
    ∃ rest : List Count, a.freq.toList.Perm (a.freqAt sym :: rest) ∧
      (a.setFreq sym cnt).freq.toList.Perm (cnt :: rest) := by
  have hlt : sym.toNat < a.freq.toList.length := by simpa using sym.isLt
  refine ⟨a.freq.toList.eraseIdx sym.toNat, ?_, ?_⟩
  · simpa [Arch.freqAt] using (List.getElem_cons_eraseIdx_perm hlt).symm
  · simpa [Arch.setFreq, Vector.toList_set] using List.set_perm_cons_eraseIdx hlt cnt

/-- The number of keys when one count is written: the old count goes, the new one comes. -/
theorem keyCount_setFreq (a : Arch) (sym : Byte) (cnt : Count) :
    keyCount (a.setFreq sym cnt) + (if a.freqAt sym = 0 then 0 else 1) =
      keyCount a + (if cnt = 0 then 0 else 1) := by
  obtain ⟨rest, hold, hnew⟩ := freq_perm_setFreq a sym cnt
  rw [keyCount, keyCount, hold.countP_eq, hnew.countP_eq, List.countP_cons, List.countP_cons]
  simp only [bne_iff_ne, ne_eq, ite_not]
  omega

/-- The sum of the counts when one count is written: the old count goes, the new one comes. -/
theorem totalWeight_setFreq (a : Arch) (sym : Byte) (cnt : Count) :
    totalWeight (a.setFreq sym cnt) + (a.freqAt sym).toNat = totalWeight a + cnt.toNat := by
  obtain ⟨rest, hold, hnew⟩ := freq_perm_setFreq a sym cnt
  rw [totalWeight, totalWeight, (hold.map _).sum_eq, (hnew.map _).sum_eq, List.map_cons,
    List.map_cons, List.sum_cons, List.sum_cons]
  omega

/-! ### The commands past the checks -/

theorem toNat_eq_max_iff (c : Count) : c.toNat = 2 ^ 32 - 1 ↔ c = BitVec.allOnes 32 := by
  rw [← BitVec.toNat_inj, BitVec.toNat_allOnes]

/-- A ready block runs the rule of a command that its phase accepts. -/
theorem checked_ready {i : Instr} {s : State} {p : Phase} (own : Result) (hr : s.ready p)
    (hw : i.wellFormed = true) (ha : accepts i p = true) : checked i s own = own := by
  obtain ⟨hf, rfl⟩ := hr
  exact checked_accepted own hf hw ha

theorem exec_count_atMax {sym : Byte} {s : State} (hr : s.ready .table)
    (h : s.arch.freqAt sym = BitVec.allOnes 32) :
    exec (.count sym) s = .next (raiseFault .freqOvf (encode (.count sym)) s) :=
  (checked_ready _ hr rfl rfl).trans (if_pos h)

theorem exec_count_belowMax {sym : Byte} {s : State} (hr : s.ready .table)
    (h : s.arch.freqAt sym ≠ BitVec.allOnes 32) :
    exec (.count sym) s =
      .next { s with arch := s.arch.setFreq sym (s.arch.freqAt sym + 1) } :=
  (checked_ready _ hr rfl rfl).trans (if_neg h)

theorem exec_ldfreq {sym : Byte} {cnt : Count} {s : State} (hr : s.ready .table) :
    exec (.ldfreq sym cnt) s = .next { s with arch := s.arch.setFreq sym cnt } :=
  checked_ready _ hr rfl rfl

theorem exec_rdfreq {sym : Byte} {s : State} (hf : s.arch.fault = false)
    (ht : s.env.takesNext = true) :
    exec (.rdfreq sym) s =
      .next { s with env := s.env.afterResponse ((s.arch.freqAt sym).zeroExtend 64) } :=
  (checked_accepted _ hf rfl rfl).trans (respond_taken ht)

/-- What is to be seen of the table when a count that is not the maximum grows by one: the count,
and with it `TOTALW` and `NSYM` (40_frequency.md rule R100). -/
theorem count_registers {a : Arch} {sym : Byte} (h : (a.freqAt sym).toNat < 2 ^ 32 - 1) :
    (a.freqAt sym + 1).toNat = (a.freqAt sym).toNat + 1 ∧
    (statusReg .totalw (a.setFreq sym (a.freqAt sym + 1))).toNat =
      (statusReg .totalw a).toNat + 1 ∧
    (statusReg .nsym (a.setFreq sym (a.freqAt sym + 1))).toNat =
      (statusReg .nsym a).toNat + (if a.freqAt sym = 0 then 1 else 0) := by
  have hadd : (a.freqAt sym + 1).toNat = (a.freqAt sym).toNat + 1 :=
    BitVec.toNat_add_of_lt (Nat.add_lt_of_lt_sub h)
  have hkey : a.freqAt sym + 1 ≠ 0 := fun h0 => by
    rw [h0] at hadd
    exact Nat.succ_ne_zero _ hadd.symm
  have htotal := totalWeight_setFreq a sym (a.freqAt sym + 1)
  have hkeys := keyCount_setFreq a sym (a.freqAt sym + 1)
  rw [if_neg hkey] at hkeys
  simp only [toNat_statusReg_totalw, toNat_statusReg_nsym]
  refine ⟨hadd, by omega, ?_⟩
  split_ifs at hkeys ⊢ <;> omega

/-! ### The statements -/

/-- Settles O19: writing one count replaces one element of the counts (`freq_perm_setFreq`), which
gives `TOTALW` and `NSYM`; neither register loses a bit. -/
theorem countAddsOne : Obligations.CountAddsOne := by
  intro sym s
  refine ⟨toNat_encode_noImm rfl, fun hr hlt => ?_,
    fun hr hmax => exec_count_atMax hr ((toNat_eq_max_iff _).mp hmax),
    fun hf hp => exec_badPhase hf rfl (by simpa [accepts] using hp), malformedRefused_all _ s⟩
  have hne : s.arch.freqAt sym ≠ BitVec.allOnes 32 := fun h =>
    hlt.ne ((toNat_eq_max_iff _).mpr h)
  obtain ⟨hadd, htotal, hkeys⟩ := count_registers hlt
  exact ⟨_, exec_count_belowMax hr hne, by rw [freqAt_setFreq_same, hadd],
    fun x hx => freqAt_setFreq_other _ _ _ _ hx, rfl, htotal, hkeys⟩

/-- Settles O20: the rule writes `freq[sym]` alone, whatever the count was, so a read after the
write is all there is to show. -/
theorem ldfreqSetsTheCount : Obligations.LdfreqSetsTheCount := by
  intro sym cnt s
  exact ⟨toNat_encode _, fun hr => ⟨_, exec_ldfreq hr, freqAt_setFreq_same _ _ _,
    fun x hx => freqAt_setFreq_other _ _ _ _ hx, rfl⟩,
    fun hf hp => exec_badPhase hf rfl (by simpa [accepts] using hp), malformedRefused_all _ s⟩

/-- Settles O21: every phase accepts `RDFREQ`, and the response is the count zero-extended, so its
value is the count's. -/
theorem rdfreqResponds : Obligations.RdfreqResponds := by
  intro sym s
  refine ⟨toNat_encode_noImm rfl, fun hf ht => ⟨_, exec_rdfreq hf ht, ?_⟩, malformedRefused_all _ s⟩
  exact BitVec.toNat_setWidth_of_le (by decide)

end Sys2Proof.Machine
end

section
/-! The tree builder (41_tree.md): what `BUILD` leaves as a function of the table, entry by entry,
and the response word of an arena entry. -/

namespace Sys2Proof.Machine

/-! ### `BUILD` as a function of the table -/

theorem leafEntry_congr {a b : Arch} (h : a.freq = b.freq) (sym : Byte) :
    leafEntry a sym = leafEntry b sym := by
  simp [leafEntry, leafWeight, freqAt_congr h]

theorem arenaOf_congr {a b : Arch} (h : a.freq = b.freq) (ns : List Node) :
    arenaOf a ns = arenaOf b ns := by
  have he : arenaEntry a ns = arenaEntry b ns := by
    funext i
    simp [arenaEntry, leafEntry_congr h]
  simp only [arenaOf, he]

theorem seedQ_congr {a b : Arch} (h : a.freq = b.freq) : seedQ a = seedQ b := by
  simp [seedQ, countedSymbols, h]

/-! ### The values of concatenated fields -/

/-- A field above `y` counts in steps of the width of `y`. -/
theorem toNat_append_eq_add {m n : Nat} (x : BitVec m) (y : BitVec n) :
    (x ++ y).toNat = x.toNat * 2 ^ n + y.toNat := by
  rw [BitVec.toNat_append, ← Nat.shiftLeft_add_eq_or_of_lt y.isLt, Nat.shiftLeft_eq]

/-! ### The arena that `BUILD` leaves -/

theorem leafEntry_of_key {a : Arch} {sym : Byte} (h : a.freqAt sym ≠ 0) :
    leafEntry a sym = some (.leaf (leafWeight a sym) sym) := if_neg h

theorem leafEntry_eq_none {a : Arch} {sym : Byte} (h : a.freqAt sym = 0) :
    leafEntry a sym = none := if_pos h

theorem leafEntry_isSome (a : Arch) (sym : Byte) :
    (leafEntry a sym).isSome = true ↔ a.freqAt sym ≠ 0 := by
  simp [leafEntry]

theorem buildTree_at_leaf (a : Arch) (sym : Byte) :
    (buildTree a).node.at (leafIndex sym) = leafEntry a sym := arenaOf_leaf a _ sym

/-- The internal nodes are those of the `N - 1` merges (41_tree.md rule R115). -/
theorem buildTree_at_merge_isSome (a : Arch) {k : Nat} (hk : k < 255) :
    ((buildTree a).node.at (mergeIndex k)).isSome = true ↔ k + 2 ≤ keyCount a := by
  obtain ⟨ns, -, hnode, hlen, -⟩ := buildTree_spec a
  rw [hnode, arenaOf_merge a ns k hk, isSome_getElem?, hlen]
  omega

/-- With fewer than two keys nothing is present but the leaf of a key. -/
theorem buildTree_at_eq_none {a : Arch} {n : NodeIndex} (hN : keyCount a ≤ 1)
    (hn : ∀ sym, n = leafIndex sym → a.freqAt sym = 0) : (buildTree a).node.at n = none := by
  rcases index_cases n with ⟨sym, rfl⟩ | ⟨k, hk, rfl⟩ | h511
  · rw [buildTree_at_leaf, leafEntry_eq_none (hn sym rfl)]
  · rw [← Option.not_isSome_iff_eq_none, buildTree_at_merge_isSome a hk]
    omega
  · exact at_511 _ n h511.ge

/-! ### The root that `BUILD` leaves -/

theorem keys_eq_nil {a : Arch} (h : keyCount a = 0) : keys a = [] :=
  List.length_eq_zero_iff.1 ((length_keys a).trans h)

theorem keys_eq_singleton {a : Arch} {sym : Byte} (h : keyCount a = 1) (hs : a.freqAt sym ≠ 0) :
    keys a = [sym] := by
  obtain ⟨x, hx⟩ := List.length_eq_one_iff.1 ((length_keys a).trans h)
  have hmem : sym ∈ [x] := hx ▸ (mem_keys a sym).2 hs
  rw [hx, List.mem_singleton.1 hmem]

theorem buildTree_root_of_no_key {a : Arch} (h : keyCount a = 0) : (buildTree a).root = none := by
  simp [buildTree, seedQ_eq, keys_eq_nil h, mergeLoop]

/-- The only key is taken out of the collection by no merge: its leaf is the root. -/
theorem buildTree_root_of_one_key {a : Arch} {sym : Byte} (h : keyCount a = 1)
    (hs : a.freqAt sym ≠ 0) : (buildTree a).root = some (leafIndex sym) := by
  simp [buildTree, seedQ_eq, keys_eq_singleton h hs, mergeLoop, extractMin, leastOf]

theorem buildTree_root_of_two_keys {a : Arch} (h : 2 ≤ keyCount a) :
    (buildTree a).root = some (mergeIndex (keyCount a - 2)) := by
  obtain ⟨-, -, -, -, -, -, -, -, -, -, hroot, -⟩ := buildTree_spec a
  exact hroot h

theorem statusReg_root_none {a : Arch} (h : a.root = none) : statusReg .root a = 0 := by
  simp [statusReg, h, rootWord]

/-- `VALID` at bit 9 above `INDEX` (10_state.md rule R34). -/
theorem toNat_statusReg_root {a : Arch} {n : NodeIndex} (h : a.root = some n) :
    (statusReg .root a).toNat = 512 + n.toNat := by
  have hword : statusReg .root a = (1#1 ++ n).zeroExtend 64 := by simp [statusReg, h, rootWord]
  rw [hword, BitVec.toNat_setWidth_of_le (by decide), toNat_append_eq_add]
  simp

theorem exec_build {s : State} (hr : s.ready .table) :
    exec .build s = .next { s with arch := buildTree s.arch } := checked_ready _ hr rfl rfl

/-! ### `RDNODE` -/

theorem toNat_encode_rdnode (idx : NodeIndex) :
    (encode (.rdnode idx)).toNat = 0x0A * 2 ^ 56 + idx.toNat := by
  have himm : (Instr.rdnode idx).operandImm.toNat = idx.toNat :=
    BitVec.toNat_setWidth_of_le (by decide)
  simp [toNat_encode, himm, Instr.opcode, Instr.operandA]

theorem wellFormed_rdnode {idx : NodeIndex} (h : idx.toNat ≤ 510) :
    (Instr.rdnode idx).wellFormed = true := by
  simpa [Instr.wellFormed, BitVec.le_def] using h

theorem exec_rdnode {idx : NodeIndex} {s : State} (hidx : idx.toNat ≤ 510) (hr : s.ready .tree)
    (ht : s.env.takesNext = true) :
    exec (.rdnode idx) s =
      .next { s with env := s.env.afterResponse (nodeWord (s.arch.node.at idx)) } :=
  (checked_ready _ hr (wellFormed_rdnode hidx) rfl).trans (respond_taken ht)

theorem toNat_nodeWord_leaf (w : Weight) (sym : Byte) :
    (nodeWord (some (.leaf w sym))).toNat = 2 ^ 63 + w.toNat * 2 ^ 18 + sym.toNat := by
  have hsym : (sym.zeroExtend 9).toNat = sym.toNat := BitVec.toNat_setWidth_of_le (by decide)
  simp only [nodeWord, toNat_append_eq_add, hsym, BitVec.toNat_ofNat]
  omega

theorem toNat_nodeWord_internal (w : Weight) (l r : NodeIndex) :
    (nodeWord (some (.internal w l r))).toNat =
      2 ^ 63 + 2 ^ 62 + w.toNat * 2 ^ 18 + l.toNat * 2 ^ 9 + r.toNat := by
  simp only [nodeWord, toNat_append_eq_add, BitVec.toNat_ofNat]
  omega

/-- In a tree of the table a leaf stands at the index of its symbol (41_tree.md rule R116). -/
theorem toNat_leaf_of_treeShape {a : Arch} {n : NodeIndex} {w : Weight} {sym : Byte}
    (h : TreeShape a) (hn : a.node.at n = some (.leaf w sym)) : sym.toNat = n.toNat := by
  rcases index_cases n with ⟨x, rfl⟩ | ⟨k, hk, rfl⟩ | h511
  · rw [h.leaves, leafEntry] at hn
    split at hn
    · cases hn
    · cases hn
      exact (toNat_leafIndex sym).symm
  · by_cases hmade : k + 1 < keyCount a
    · obtain ⟨w', l, r, hat, -⟩ := h.merged k hmade
      simp [hat] at hn
    · simp [h.absent k hk (by omega)] at hn
  · simp [at_511 _ n h511.ge] at hn

/-! ### The statements -/

/-- Settles O24: what `extractMin` answers is `extractMin_some`, its order read as numbers; and both
the seed and the leaves that `BUILD` starts from are functions of the table. -/
theorem extractMinIsLeast : Obligations.ExtractMinIsLeast := by
  refine ⟨fun q hq => ?_, fun q rest x h => ?_, fun a b h => ?_⟩
  · cases q with
    | nil => exact absurd rfl hq
    | cons x rest => exact ⟨_, _, extractMin_cons x rest⟩
  · obtain ⟨hmem, hperm, hleast⟩ := extractMin_some h
    exact ⟨hmem, hperm, fun y hy => (hleast y hy).imp_right (before_iff x y).1⟩
  · simp only [buildTree, seedQ_congr h, arenaOf_congr h, and_self]

/-- Settles O27: the leaves are those of the keys and the internal nodes those of the merges, in
every table; the root is read off the collection for no key and one, and off the last merge for
more. -/
theorem buildEdgeCases : Obligations.BuildEdgeCases := by
  intro s t hr ht
  rw [exec_build hr] at ht
  cases ht
  refine ⟨hr.1, fun h0 => ?_, fun sym h1 hs => ?_, fun h2 => ?_⟩
  · have hnone : ∀ sym, s.arch.freqAt sym = 0 := fun sym => by
      simpa [keys_eq_nil h0] using mem_keys s.arch sym
    have hroot := buildTree_root_of_no_key h0
    exact ⟨fun n => buildTree_at_eq_none (by omega) fun sym _ => hnone sym, hroot,
      statusReg_root_none hroot⟩
  · have hroot := buildTree_root_of_one_key h1 hs
    refine ⟨fun n => ?_, hroot, by rw [toNat_statusReg_root hroot, toNat_leafIndex]⟩
    split_ifs with hn
    · rw [hn, buildTree_at_leaf, leafEntry_of_key hs]
    · refine buildTree_at_eq_none h1.le fun x hx => ?_
      by_contra hxs
      have hmem := (mem_keys s.arch x).2 hxs
      rw [keys_eq_singleton h1 hs, List.mem_singleton] at hmem
      exact hn (hx.trans (congrArg leafIndex hmem))
  · have hroot := buildTree_root_of_two_keys h2
    have hle := keyCount_le s.arch
    refine ⟨fun sym => ?_, fun k hk => buildTree_at_merge_isSome s.arch hk, hroot, ?_⟩
    · rw [buildTree_at_leaf, leafEntry_isSome]
    · rw [toNat_statusReg_root hroot, toNat_mergeIndex _ (by omega)]

/-- Settles O29: the response is `nodeWord` of the entry, whose fields add up to the word's value; a
tree of the table keeps leaves at the index of their symbol alone. -/
theorem rdnodeResponds : Obligations.RdnodeResponds := by
  intro idx s hidx
  refine ⟨toNat_encode_rdnode idx, fun hr ht => ⟨_, exec_rdnode hidx hr ht, fun h => ?_, fun w sym h => ?_,
    fun w l r h => ?_⟩, fun hshape w sym h => toNat_leaf_of_treeShape hshape h,
    fun hf hp => exec_badPhase hf (wellFormed_rdnode hidx) (by simpa [accepts] using hp),
    malformedRefused_all _ s⟩
  · rw [h, nodeWord]
  · rw [h, toNat_nodeWord_leaf]
  · rw [h, toNat_nodeWord_internal]

end Sys2Proof.Machine
end

section
/-! The tree that `GEN` walks (41_tree.md rule R112, 42_codegen.md rule R132): in a tree of the
table every choice leads to a smaller index, so paths are short, and every present node lies on
exactly one path from the root. Nothing here depends on how ties were resolved. -/

namespace Sys2Proof.Machine

/-! ### Following choices -/

theorem follow_nil (nodes : Arena) (n : NodeIndex) : follow nodes n [] = some n := rfl

theorem follow_cons_eq_some {nodes : Arena} {n m : NodeIndex} {b : Bool} {rest : List Bool} :
    follow nodes n (b :: rest) = some m ↔ ∃ w l r, nodes.at n = some (.internal w l r) ∧
      follow nodes (if b then r else l) rest = some m := by
  rw [follow]
  split <;> simp_all

theorem follow_append (nodes : Arena) (n : NodeIndex) (path rest : List Bool) :
    follow nodes n (path ++ rest) = (follow nodes n path).bind fun m => follow nodes m rest := by
  induction path generalizing n with
  | nil => rfl
  | cons b path ih =>
    rw [List.cons_append, follow, follow]
    split <;> simp [ih]

/-- The last choice is made at an internal node. -/
theorem follow_concat_eq_some {nodes : Arena} {n m : NodeIndex} {path : List Bool} {b : Bool} :
    follow nodes n (path ++ [b]) = some m ↔ ∃ p w l r, follow nodes n path = some p ∧
      nodes.at p = some (.internal w l r) ∧ (if b then r else l) = m := by
  simp only [follow_append, Option.bind_eq_some_iff, follow_cons_eq_some, follow_nil,
    Option.some.injEq, exists_and_left]

/-- No choice leads on from a leaf. -/
theorem follow_leaf {nodes : Arena} {n m : NodeIndex} {w : Weight} {sym : Byte}
    {path : List Bool} (hn : nodes.at n = some (.leaf w sym)) (h : follow nodes n path = some m) :
    path = [] := by
  cases path with
  | nil => rfl
  | cons b rest =>
    obtain ⟨w', l, r, hat, -⟩ := follow_cons_eq_some.1 h
    simp [hn] at hat

theorem childOf_side {nodes : Arena} {m : NodeIndex} {w : Weight} {l r : NodeIndex}
    (hm : nodes.at m = some (.internal w l r)) (b : Bool) :
    childOf nodes (if b then r else l) m :=
  ⟨w, l, r, hm, by cases b <;> simp⟩

theorem side_inj {l r : NodeIndex} (hlr : l ≠ r) {b c : Bool}
    (h : (if b then r else l) = if c then r else l) : b = c := by
  cases b <;> cases c <;> simp_all [eq_comm]

/-! ### The nodes of a tree of the table -/

section TreeOfTheTable

variable {a : Arch} (h : TreeShape a)
include h

theorem merge_of_internal {n : NodeIndex} {w : Weight} {l r : NodeIndex}
    (hn : a.node.at n = some (.internal w l r)) :
    ∃ k, k + 1 < keyCount a ∧ n = mergeIndex k ∧ MergedFrom a.node k w l r := by
  rcases index_cases n with ⟨sym, rfl⟩ | ⟨k, hk, rfl⟩ | h511
  · rw [h.leaves, leafEntry] at hn
    split at hn <;> cases hn
  · by_cases hmade : k + 1 < keyCount a
    · obtain ⟨w', l', r', hat, hmerged⟩ := h.merged k hmade
      rw [hat] at hn
      cases hn
      exact ⟨k, hmade, rfl, hmerged⟩
    · simp [h.absent k hk (by omega)] at hn
  · simp [at_511 _ n h511.ge] at hn

theorem leafIndex_of_leaf {n : NodeIndex} {w : Weight} {sym : Byte}
    (hn : a.node.at n = some (.leaf w sym)) : n = leafIndex sym :=
  BitVec.eq_of_toNat_eq (by rw [toNat_leafIndex, toNat_leaf_of_treeShape h hn])

theorem leafIndex_isSome {sym : Byte} :
    (a.node.at (leafIndex sym)).isSome = true ↔ a.freqAt sym ≠ 0 := by
  rw [h.leaves, leafEntry_isSome]

theorem at_leafIndex {sym : Byte} (hs : a.freqAt sym ≠ 0) :
    a.node.at (leafIndex sym) = some (.leaf (leafWeight a sym) sym) := by
  rw [h.leaves, leafEntry_of_key hs]

/-- A child is present and has a smaller index than its parent. -/
theorem childOf_earlier {n m : NodeIndex} (hc : childOf a.node n m) :
    (a.node.at n).isSome = true ∧ n.toNat < m.toNat ∧ 256 ≤ m.toNat := by
  obtain ⟨w, l, r, hm, hside⟩ := hc
  obtain ⟨k, hk, rfl, ⟨⟨hl, hr⟩, nl, nr, hnl, hnr, -⟩⟩ := merge_of_internal h hm
  have hle := keyCount_le a
  rw [toNat_mergeIndex k (by omega)]
  rcases hside with rfl | rfl
  · exact ⟨by simp [hnl], hl, by omega⟩
  · exact ⟨by simp [hnr], hr, by omega⟩

/-- From a node among the leaves and the first `d` merges at most `d` choices can follow
(42_codegen.md rule R132); what they reach is present. -/
theorem follow_present {n m : NodeIndex} {path : List Bool} {d : Nat}
    (hn : (a.node.at n).isSome = true) (hd : n.toNat < 256 + d)
    (hm : follow a.node n path = some m) :
    (a.node.at m).isSome = true ∧ path.length ≤ d := by
  induction path generalizing n d with
  | nil =>
    cases hm
    exact ⟨hn, Nat.zero_le _⟩
  | cons b rest ih =>
    obtain ⟨w, l, r, hat, hrest⟩ := follow_cons_eq_some.1 hm
    obtain ⟨hchild, hlt, hmerge⟩ := childOf_earlier h (childOf_side hat b)
    obtain ⟨hpresent, hlen⟩ := ih (d := d - 1) hchild (by omega) hrest
    exact ⟨hpresent, by rw [List.length_cons]; omega⟩

theorem fullyWalked_of_present {n : NodeIndex} {d depth : Nat}
    (hn : (a.node.at n).isSome = true) (hd : n.toNat < 256 + d) (hdepth : d < depth) :
    fullyWalked a.node depth n = true := by
  induction depth generalizing n d with
  | zero => cases hdepth
  | succ depth ih =>
    have hchild : ∀ m, childOf a.node m n → fullyWalked a.node depth m = true := fun m hm => by
      obtain ⟨hpresent, hlt, hmerge⟩ := childOf_earlier h hm
      exact ih (d := d - 1) hpresent (by omega) (by omega)
    rw [fullyWalked]
    split
    · rename_i hat
      simp [hat] at hn
    · rfl
    · rename_i w l r hat
      exact Bool.and_eq_true_iff.2
        ⟨hchild l ⟨w, l, r, hat, .inl rfl⟩, hchild r ⟨w, l, r, hat, .inr rfl⟩⟩

/-! ### The root and the paths from it -/

theorem root_of_two_keys (h2 : 2 ≤ keyCount a) : a.root = some (mergeIndex (keyCount a - 2)) :=
  h.root.2.2 h2

theorem root_of_one_key (h1 : keyCount a = 1) {sym : Byte} (hs : a.freqAt sym ≠ 0) :
    a.root = some (leafIndex sym) := by
  obtain ⟨x, hx, hroot⟩ := h.root.2.1 h1
  have hmem : x ∈ [sym] := keys_eq_singleton h1 hs ▸ (mem_keys a x).2 hx
  rw [hroot, List.mem_singleton.1 hmem]

theorem root_internal (h2 : 2 ≤ keyCount a) {n : NodeIndex} (hroot : a.root = some n) :
    ∃ w l r, a.node.at n = some (.internal w l r) := by
  rw [root_of_two_keys h h2] at hroot
  cases hroot
  obtain ⟨w, l, r, hat, -⟩ := h.merged (keyCount a - 2) (by omega)
  exact ⟨w, l, r, hat⟩

/-- The root is present, among the leaves and the N - 1 merges. -/
theorem root_present {n : NodeIndex} (hroot : a.root = some n) :
    (a.node.at n).isSome = true ∧ n.toNat < 256 + (keyCount a - 1) := by
  obtain ⟨h0, h1, -⟩ := h.root
  have hle := keyCount_le a
  by_cases hN : 2 ≤ keyCount a
  · obtain ⟨w, l, r, hat⟩ := root_internal h hN hroot
    rw [root_of_two_keys h hN] at hroot
    cases hroot
    exact ⟨by simp [hat], by rw [toNat_mergeIndex _ (by omega)]; omega⟩
  · by_cases hone : keyCount a = 1
    · obtain ⟨sym, hs, hat⟩ := h1 hone
      rw [hat] at hroot
      cases hroot
      have hlt := sym.isLt
      exact ⟨(leafIndex_isSome h).2 hs, by rw [toNat_leafIndex]; omega⟩
    · simp [h0 (by omega)] at hroot

/-- A node's only parent (rule R112) and its side there give the last choice; so, from the end
backwards, only one path leads from the root to a node. -/
theorem path_unique {root n : NodeIndex} (hroot : a.root = some root) {p q : List Bool}
    (hp : follow a.node root p = some n) (hq : follow a.node root q = some n) : p = q := by
  obtain ⟨hpresent, hbelow⟩ := root_present h hroot
  induction p using List.reverseRecOn generalizing n q with
  | nil =>
    cases hp
    induction q using List.reverseRecOn with
    | nil => rfl
    | append_singleton q c =>
      obtain ⟨m, w, l, r, -, hat, hc⟩ := follow_concat_eq_some.1 hq
      exact absurd (hc ▸ childOf_side hat c) (h.noParent root m hroot)
  | append_singleton p b ih =>
    obtain ⟨m, w, l, r, hpm, hat, hb⟩ := follow_concat_eq_some.1 hp
    have hchild : childOf a.node n m := hb ▸ childOf_side hat b
    induction q using List.reverseRecOn with
    | nil =>
      cases hq
      exact absurd hchild (h.noParent root m hroot)
    | append_singleton q c =>
      obtain ⟨m', w', l', r', hqm, hat', hc⟩ := follow_concat_eq_some.1 hq
      have hne : a.root ≠ some n := fun hr => h.noParent n m hr hchild
      have hm : m' = m := (h.oneParent n (follow_present h hpresent hbelow hp).1 hne).unique
        (hc ▸ childOf_side hat' c) hchild
      subst hm
      rw [hat] at hat'
      cases hat'
      obtain ⟨k, -, -, ⟨-, nl, nr, -, -, -, hlr, -⟩⟩ := merge_of_internal h hat
      rw [ih hpm hqm, side_inj hlr (hb.trans hc.symm)]

/-- Every present node is reached from the root: its parent has a greater index, and so on up. -/
theorem exists_path {root n : NodeIndex} (hroot : a.root = some root)
    (hn : (a.node.at n).isSome = true) : ∃ path, follow a.node root path = some n := by
  induction hd : 512 - n.toNat using Nat.strong_induction_on generalizing n with
  | _ d ih =>
    by_cases hr : a.root = some n
    · rw [hroot] at hr
      cases hr
      exact ⟨[], rfl⟩
    · obtain ⟨m, hchild, -⟩ := h.oneParent n hn hr
      have hlt := (childOf_earlier h hchild).2.1
      have hm := m.isLt
      obtain ⟨w, l, r, hat, hside⟩ := hchild
      obtain ⟨path, hpath⟩ := ih (512 - m.toNat) (by omega) (by simp [hat]) rfl
      obtain rfl | rfl := hside
      · exact ⟨path ++ [false], follow_concat_eq_some.2 ⟨m, w, _, r, hpath, hat, rfl⟩⟩
      · exact ⟨path ++ [true], follow_concat_eq_some.2 ⟨m, w, l, _, hpath, hat, rfl⟩⟩

end TreeOfTheTable

end Sys2Proof.Machine
end

section
/-! The code-map generator (42_codegen.md): what the walk of a tree of the table binds, what the
code map then holds, and the two reads of it. -/

namespace Sys2Proof.Machine

/-! ### What the walk binds -/

/-- The walk binds every path that leads to a leaf, behind the code so far. -/
theorem mem_walk_of_path {nodes : Arena} {depth : Nat} {n m : NodeIndex} {code path : List Bool}
    {w : Weight} {sym : Byte} (hfull : fullyWalked nodes depth n = true) (hne : code ++ path ≠ [])
    (hm : follow nodes n path = some m) (hleaf : nodes.at m = some (.leaf w sym)) :
    (sym, code ++ path) ∈ walk nodes depth n code := by
  induction depth generalizing n code path with
  | zero => cases hfull
  | succ depth ih =>
    cases path with
    | nil =>
      cases hm
      rw [List.append_nil] at hne
      simp [walk_leaf hleaf, hne]
    | cons b rest =>
      obtain ⟨v, l, r, hat, hrest⟩ := follow_cons_eq_some.1 hm
      simp only [fullyWalked, hat, Bool.and_eq_true] at hfull
      obtain ⟨hl, hr⟩ := hfull
      rw [List.append_cons] at hne ⊢
      rw [walk_internal hat, List.mem_append]
      cases b with
      | false => exact .inl (ih hl hne hrest)
      | true => exact .inr (ih hr hne hrest)

/-- The walk from an internal root binds exactly the paths to the leaves. -/
theorem mem_walk_root_iff {nodes : Arena} {depth : Nat} {n : NodeIndex} {path : List Bool}
    {sym : Byte} {v : Weight} {l r : NodeIndex} (hat : nodes.at n = some (.internal v l r))
    (hfull : fullyWalked nodes depth n = true) :
    (sym, path) ∈ walk nodes depth n [] ↔
      ∃ m w, follow nodes n path = some m ∧ nodes.at m = some (.leaf w sym) := by
  constructor
  · intro h
    cases depth with
    | zero => cases hfull
    | succ depth =>
      rw [walk_internal hat, List.mem_append] at h
      rcases h with h | h
      all_goals
        obtain ⟨rest, m, w, rfl, hm, hleaf⟩ := path_of_mem_walk (by simp) h
        exact ⟨m, w, follow_cons_eq_some.2 ⟨v, l, r, hat, hm⟩, hleaf⟩
  · rintro ⟨m, w, hm, hleaf⟩
    have hne : path ≠ [] := by
      rintro rfl
      cases hm
      simp [hat] at hleaf
    exact mem_walk_of_path (code := []) hfull hne hm hleaf

/-- The walk of a left child and the walk of a right child bind different codes, so nothing is bound
twice. -/
theorem nodup_walk (nodes : Arena) (depth : Nat) (n : NodeIndex) (code : List Bool) :
    (walk nodes depth n code).Nodup := by
  induction depth generalizing n code with
  | zero => exact List.nodup_nil
  | succ depth ih =>
    rw [walk]
    split
    · exact List.nodup_nil
    · exact List.nodup_singleton _
    · refine List.nodup_append.2 ⟨ih _ _, ih _ _, fun x hx y hy hxy => ?_⟩
      subst hxy
      obtain ⟨p, -, -, hp, -⟩ := path_of_mem_walk (by simp) hx
      obtain ⟨q, -, -, hq, -⟩ := path_of_mem_walk (by simp) hy
      simp [hp] at hq

/-- Where a walk splits, its two halves share the room of the code so far; so the codes below a node
fill exactly that room (42_codegen.md rule R128, last point). A leaf met with the empty code is left
out: its code is not the empty one. -/
theorem kraft_walk {nodes : Arena} {depth : Nat} {n : NodeIndex} {code : List Bool}
    (hne : code = [] → ∀ w sym, nodes.at n ≠ some (.leaf w sym))
    (hfull : fullyWalked nodes depth n = true) (hlen : code.length + depth ≤ 256) :
    ((walk nodes depth n code).map fun b => 2 ^ (255 - b.2.length)).sum =
      2 ^ (255 - code.length) := by
  induction depth generalizing n code with
  | zero => cases hfull
  | succ depth ih =>
    cases hat : nodes.at n with
    | none => simp [fullyWalked, hat] at hfull
    | some x =>
      cases x with
      | leaf w sym =>
        have hcode : code ≠ [] := fun h => hne h w sym hat
        simp [walk_leaf hat, hcode]
      | internal w l r =>
        simp only [fullyWalked, hat, Bool.and_eq_true] at hfull
        obtain ⟨hl, hr⟩ := hfull
        have hdepth : 1 ≤ depth := by
          cases depth with
          | zero => cases hl
          | succ d => exact Nat.succ_pos d
        have hhalf : 255 - code.length = 255 - (code.length + 1) + 1 := by omega
        rw [walk_internal hat, List.map_append, List.sum_append,
          ih (by simp) hl (by simp; omega), ih (by simp) hr (by simp; omega), hhalf, pow_succ]
        simp only [List.length_append, List.length_singleton]
        omega

/-! ### The bindings of a tree of the table -/

theorem bindings_of_root {a : Arch} {n : NodeIndex} (hroot : a.root = some n) :
    bindings a = walk a.node walkDepth n [] := by
  simp [bindings, hroot]

section TreeOfTheTable

variable {a : Arch} (h : TreeShape a)
include h

theorem fullyWalked_root {n : NodeIndex} (hroot : a.root = some n) :
    fullyWalked a.node walkDepth n = true := by
  obtain ⟨hpresent, hbelow⟩ := root_present h hroot
  have hle := keyCount_le a
  exact fullyWalked_of_present h hpresent hbelow (by unfold walkDepth; omega)

theorem bindings_of_one_key (h1 : keyCount a = 1) {sym : Byte} (hs : a.freqAt sym ≠ 0) :
    bindings a = [(sym, [false])] := by
  rw [bindings_of_root (root_of_one_key h h1 hs)]
  exact walk_leaf (at_leafIndex h hs) _ _

/-- What is bound, by the number of keys: nothing; the one-bit code 0 of the only key; or, to each
symbol, the paths from the root to its leaf (42_codegen.md rules R126 and R127). -/
theorem bindings_cases :
    (keys a = [] ∧ bindings a = []) ∨
    (∃ sym, keys a = [sym] ∧ bindings a = [(sym, [false])]) ∨
    (2 ≤ keyCount a ∧ ∃ n, a.root = some n ∧ ∀ sym path,
      (sym, path) ∈ bindings a ↔ follow a.node n path = some (leafIndex sym)) := by
  obtain ⟨h0, h1, h2⟩ := h.root
  rcases Nat.lt_trichotomy (keyCount a) 1 with hN | hN | hN
  · have hnone : keyCount a = 0 := by omega
    exact .inl ⟨keys_eq_nil hnone, by simp [bindings, h0 hnone]⟩
  · obtain ⟨sym, hs, -⟩ := h1 hN
    exact .inr (.inl ⟨sym, keys_eq_singleton hN hs, bindings_of_one_key h hN hs⟩)
  · have hroot := h2 hN
    refine .inr (.inr ⟨hN, _, hroot, fun sym path => ?_⟩)
    obtain ⟨w, l, r, hat⟩ := root_internal h hN hroot
    rw [bindings_of_root hroot, mem_walk_root_iff hat (fullyWalked_root h hroot)]
    constructor
    · rintro ⟨m, v, hm, hleaf⟩
      rw [hm, leafIndex_of_leaf h hleaf]
    · intro hm
      obtain ⟨hpresent, hbelow⟩ := root_present h hroot
      have hs := (leafIndex_isSome h).1 (follow_present h hpresent hbelow hm).1
      exact ⟨_, _, hm, at_leafIndex h hs⟩

theorem mem_bindings_iff (h2 : 2 ≤ keyCount a) {n : NodeIndex} (hroot : a.root = some n)
    {sym : Byte} {path : List Bool} :
    (sym, path) ∈ bindings a ↔ follow a.node n path = some (leafIndex sym) := by
  have hlen := length_keys a
  rcases bindings_cases h with ⟨hk, -⟩ | ⟨_, hk, -⟩ | ⟨-, m, hm, hmem⟩
  · rw [hk, List.length_nil] at hlen
    omega
  · rw [hk, List.length_singleton] at hlen
    omega
  · rw [hroot] at hm
    cases hm
    exact hmem sym path

/-- Each key is bound, once, and nothing else is. -/
theorem symbols_perm_keys : ((bindings a).map Prod.fst).Perm (keys a) := by
  rcases bindings_cases h with ⟨hk, hb⟩ | ⟨sym, hk, hb⟩ | ⟨-, n, hroot, hmem⟩
  · rw [hk, hb]
    exact .nil
  · rw [hk, hb]
    exact .refl _
  · have hnd : ((bindings a).map Prod.fst).Nodup := by
      refine List.Nodup.map_on ?_ (by rw [bindings_of_root hroot]; exact nodup_walk _ _ _ _)
      rintro ⟨x, p⟩ hx ⟨y, q⟩ hy hxy
      obtain rfl : x = y := hxy
      rw [path_unique h hroot ((hmem x p).1 hx) ((hmem x q).1 hy)]
    refine (List.perm_ext_iff_of_nodup hnd (nodup_keys a)).2 fun sym => ?_
    rw [mem_keys, ← leafIndex_isSome h, List.mem_map]
    obtain ⟨hpresent, hbelow⟩ := root_present h hroot
    constructor
    · rintro ⟨⟨x, p⟩, hx, rfl⟩
      exact (follow_present h hpresent hbelow ((hmem x p).1 hx)).1
    · intro hs
      obtain ⟨path, hpath⟩ := exists_path h hroot hs
      exact ⟨(sym, path), (hmem sym path).2 hpath, rfl⟩

theorem exists_binding_iff {sym : Byte} :
    (∃ code, (sym, code) ∈ bindings a) ↔ a.freqAt sym ≠ 0 := by
  rw [← mem_keys, ← (symbols_perm_keys h).mem_iff]
  simp

/-- No bound code continues another: nothing follows a leaf (42_codegen.md rule R128). -/
theorem bindings_prefixFree {x y : Byte} {p q : List Bool}
    (hx : (x, p) ∈ bindings a) (hy : (y, q) ∈ bindings a) (hpq : p <+: q) : x = y := by
  rcases bindings_cases h with ⟨-, hb⟩ | ⟨sym, -, hb⟩ | ⟨-, n, -, hmem⟩
  · simp [hb] at hx
  · simp only [hb, List.mem_singleton, Prod.mk.injEq] at hx hy
    rw [hx.1, hy.1]
  · have hleaf := at_leafIndex h ((exists_binding_iff h).1 ⟨p, hx⟩)
    obtain ⟨rest, rfl⟩ := hpq
    have hq := (hmem y _).1 hy
    rw [follow_append, (hmem x p).1 hx, Option.bind_some] at hq
    obtain rfl := follow_leaf hleaf hq
    exact leafIndex_inj (Option.some.inj hq)

/-- With two or more keys the bound codes fill the binary tree. -/
theorem kraft_bindings (h2 : 2 ≤ keyCount a) :
    ((bindings a).map fun b => 2 ^ (255 - b.2.length)).sum = 2 ^ 255 := by
  have hroot := root_of_two_keys h h2
  obtain ⟨w, l, r, hat⟩ := root_internal h h2 hroot
  rw [bindings_of_root hroot]
  exact kraft_walk (fun _ => by simp [hat]) (fullyWalked_root h hroot) (by simp [walkDepth])

/-! ### The code map -/

theorem codeAt_generate {sym : Byte} {code : List Bool} (hmem : (sym, code) ∈ bindings a) :
    (generateCodes a).codeAt sym = Code.ofList code :=
  getElem_bindAll_mem _ _ _ _ hmem ((symbols_perm_keys h).nodup_iff.2 (nodup_keys a))

theorem codeAt_generate_absent {sym : Byte} (hs : a.freqAt sym = 0) :
    (generateCodes a).codeAt sym = Code.absent := by
  rcases codeAt_generate_cases a sym with ⟨habsent, -⟩ | ⟨code, hmem, -⟩
  · exact habsent
  · exact absurd hs ((exists_binding_iff h).1 ⟨code, hmem⟩)

theorem codeAt_generate_one_key (h1 : keyCount a = 1) {sym : Byte} (hs : a.freqAt sym ≠ 0) :
    (generateCodes a).codeAt sym = Code.ofList [false] :=
  codeAt_generate h (by rw [bindings_of_one_key h h1 hs]; exact List.mem_cons_self)

theorem codeBits_generate {sym : Byte} {code : List Bool} (hmem : (sym, code) ∈ bindings a) :
    codeBits (generateCodes a) sym = code := by
  rw [codeBits, codeAt_generate h hmem, toList_ofList (length_of_mem_bindings hmem).2]

theorem toNat_clen_generate {sym : Byte} {code : List Bool} (hmem : (sym, code) ∈ bindings a) :
    ((generateCodes a).clen sym).toNat = code.length := by
  rw [← length_codeBits, codeBits_generate h hmem]

/-- Exactly the keys have a code (42_codegen.md rule R128): no bound code is empty. -/
theorem clen_generate_ne_zero {sym : Byte} :
    (generateCodes a).clen sym ≠ 0 ↔ a.freqAt sym ≠ 0 := by
  constructor
  · refine mt fun hs => ?_
    rw [Arch.clen, codeAt_generate_absent h hs, Code.absent]
  · intro hs hzero
    obtain ⟨code, hmem⟩ := (exists_binding_iff h).2 hs
    have hlen := toNat_clen_generate h hmem
    have hpos := (length_of_mem_bindings hmem).1
    rw [hzero] at hlen
    exact absurd hlen (Nat.ne_of_lt hpos)

/-- The sum over the keys is the sum over the bindings. -/
theorem kraftSum_generate :
    kraftSum (generateCodes a) = ((bindings a).map fun b => 2 ^ (255 - b.2.length)).sum := by
  have hkeys : kraftSum (generateCodes a) =
      ((keys a).map fun sym => 2 ^ (255 - ((generateCodes a).clen sym).toNat)).sum := by
    rw [kraftSum, List.sum_map_ite]
    simp [keys, bne, BEq.beq, freqAt_congr (generateCodes_freq a)]
  rw [hkeys, ← ((symbols_perm_keys h).map _).sum_eq, List.map_map]
  refine congrArg List.sum (List.map_congr_left fun b hb => ?_)
  rw [Function.comp_apply, toNat_clen_generate h hb]

theorem codeMapValid_generate : CodeMapValid (generateCodes a) where
  coverage _ := clen_generate_ne_zero h
  prefixFree x y hne hx hy hpre := by
    obtain ⟨p, hp⟩ := (exists_binding_iff h).2 ((clen_generate_ne_zero h).1 hx)
    obtain ⟨q, hq⟩ := (exists_binding_iff h).2 ((clen_generate_ne_zero h).1 hy)
    rw [codeBits_generate h hp, codeBits_generate h hq] at hpre
    exact hne (bindings_prefixFree h hp hq hpre)
  complete h2 := (kraftSum_generate h).trans (kraft_bindings h h2)
  single h1 := by
    obtain ⟨sym, hs, -⟩ := h.root.2.1 h1
    rw [kraftSum_generate h, bindings_of_one_key h h1 hs, List.map_singleton, List.sum_singleton,
      List.length_singleton]

end TreeOfTheTable

/-! ### The commands past the checks -/

theorem exec_gen {s : State} (hr : s.ready .tree) :
    exec .gen s = .next { s with arch := generateCodes s.arch } := checked_ready _ hr rfl rfl

theorem gen_next {s t : State} (hr : s.ready .tree) (ht : exec .gen s = .next t) :
    t = { s with arch := generateCodes s.arch } := by
  rw [exec_gen hr] at ht
  cases ht
  rfl

theorem exec_rdclen {sym : Byte} {s : State} (hr : s.ready .codes ∨ s.ready .done)
    (ht : s.env.takesNext = true) :
    exec (.rdclen sym) s =
      .next { s with env := s.env.afterResponse ((s.arch.clen sym).zeroExtend 64) } := by
  rcases hr with hr | hr
  all_goals exact (checked_ready _ hr rfl rfl).trans (respond_taken ht)

theorem exec_rdcode {sym : Byte} {chunk : BitVec 2} {s : State}
    (hr : s.ready .codes ∨ s.ready .done) (ht : s.env.takesNext = true) :
    exec (.rdcode sym chunk) s =
      .next { s with env := s.env.afterResponse (codeChunk (s.arch.cbits sym) chunk) } := by
  rcases hr with hr | hr
  all_goals exact (checked_ready _ hr rfl rfl).trans (respond_taken ht)

/-- In phases `TABLE` and `TREE` there is no code map to read (30_encoding.md rule R88). -/
theorem exec_codeRead_badPhase {i : Instr} {s : State} (hr : s.ready .table ∨ s.ready .tree)
    (hw : i.wellFormed = true) (htable : accepts i .table = false)
    (htree : accepts i .tree = false) :
    exec i s = .next (raiseFault .badPhase (encode i) s) := by
  rcases hr with ⟨hf, hp⟩ | ⟨hf, hp⟩
  · exact exec_badPhase hf hw (hp ▸ htable)
  · exact exec_badPhase hf hw (hp ▸ htree)

/-! ### Reading a chunk of a code -/

theorem getLsbD_codeChunk (bits : BitVec 256) (chunk : BitVec 2) {j : Nat} (hj : j < 64) :
    (codeChunk bits chunk).getLsbD j = bits.getLsbD (192 - 64 * chunk.toNat + j) := by
  simp [codeChunk, hj]

/-- Beyond the length a code in canonical form reads as 0, like its list of bits. -/
theorem getD_codeBits {a : Arch} {sym : Byte} (hc : (a.codeAt sym).canonical) {j : Nat}
    (hj : j < 256) : (codeBits a sym).getD j false = (a.cbits sym).getLsbD (255 - j) := by
  by_cases hlen : j < (a.codeAt sym).len.toNat
  · rw [List.getD_eq_getElem _ _ (by rwa [codeBits, length_toList])]
    simp [codeBits, Code.toList, Arch.cbits]
  · rw [List.getD_eq_default _ _ (by rw [codeBits, length_toList]; omega)]
    exact (hc j (by omega) hj).symm

/-! ### The statements -/

/-- Settles O30: `GEN` runs `generateCodes`, which empties the arena, and phase `CODES` refuses
`RDNODE`. -/
theorem genDiscardsTheTree : Obligations.GenDiscardsTheTree := by
  intro s hr
  exact ⟨_, exec_gen hr, rfl, at_empty, fun idx hidx =>
    exec_badPhase hr.1 (wellFormed_rdnode hidx) rfl⟩

/-- Settles O31: the walk gives the only key the code 0 (`codeAt_generate_one_key`); no bound code
is empty, and only keys are bound. -/
theorem singleKeyGetsTheCodeZero : Obligations.SingleKeyGetsTheCodeZero := by
  intro s t hr hshape ht
  obtain rfl := gen_next hr ht
  refine ⟨fun sym hs h1 => ?_, fun sym hs => ?_, fun sym hs => codeAt_generate_absent hshape hs⟩
  · have hcode := codeAt_generate_one_key hshape h1 hs
    refine ⟨?_, ?_, ?_⟩
    · rw [codeBits, hcode, toList_ofList (by decide)]
    · rw [Arch.clen, hcode]
      rfl
    · rw [Arch.cbits, hcode]
      simp [Code.ofList, packBits]
  · have hne := (clen_generate_ne_zero hshape).2 hs
    exact Nat.pos_of_ne_zero fun h0 => hne (BitVec.eq_of_toNat_eq h0)

/-- Settles O32: the bindings are the paths from the root to the leaves, one for each key, and the
code map stores each without loss. -/
theorem genMakesAPrefixFreeCode : Obligations.GenMakesAPrefixFreeCode := by
  intro s t hr hshape ht
  obtain rfl := gen_next hr ht
  refine ⟨codeMapValid_generate hshape, fun n hroot => ?_, fun sym n path h2 hroot => ?_,
    fun sym => length_codeBits _ sym, fun sym hs h1 => ?_⟩
  · rw [leavesBelow, ← bindings_of_root hroot, (symbols_perm_keys hshape).length_eq, length_keys]
  · rw [← mem_bindings_iff hshape h2 hroot]
    constructor
    · intro hmem
      exact ⟨(clen_generate_ne_zero hshape).2 ((exists_binding_iff hshape).1 ⟨path, hmem⟩),
        codeBits_generate hshape hmem⟩
    · rintro ⟨hne, hbits⟩
      obtain ⟨code, hmem⟩ :=
        (exists_binding_iff hshape).2 ((clen_generate_ne_zero hshape).1 hne)
      rw [codeBits_generate hshape hmem] at hbits
      exact hbits ▸ hmem
  · rw [Arch.clen, codeAt_generate_one_key hshape h1 hs]
    rfl

/-- Settles O33: the root stands among the leaves and the first N - 1 merges, and every choice leads
to an earlier node. -/
theorem codeLengthBound : Obligations.CodeLengthBound := by
  intro s t hr hshape ht
  obtain rfl := gen_next hr ht
  refine ⟨fun h2 sym => ?_, fun n hroot => fullyWalked_root hshape hroot⟩
  by_cases hs : s.arch.freqAt sym = 0
  · rw [Arch.clen, codeAt_generate_absent hshape hs]
    exact Nat.zero_le _
  · obtain ⟨code, hmem⟩ := (exists_binding_iff hshape).2 hs
    have hroot := root_of_two_keys hshape h2
    obtain ⟨hpresent, hbelow⟩ := root_present hshape hroot
    rw [toNat_clen_generate hshape hmem]
    exact (follow_present hshape hpresent hbelow
      ((mem_bindings_iff hshape h2 hroot).1 hmem)).2

/-- Settles O35: the response is the slice of `cbits`; its bit 63 - j is bit 255 - (64·chunk + j) of
`cbits`, where canonical form places code bit 64·chunk + j. -/
theorem rdcodeResponds : Obligations.RdcodeResponds := by
  intro sym chunk s
  have himm : (Instr.rdcode sym chunk).operandImm.toNat = chunk.toNat :=
    BitVec.toNat_setWidth_of_le (by decide)
  refine ⟨by rw [toNat_encode, himm]; rfl, fun hr ht => ⟨_, exec_rdcode hr ht,
    fun j hj => getLsbD_codeChunk _ _ hj, fun hc j hj => ?_⟩,
    fun hr => exec_codeRead_badPhase hr rfl rfl rfl, malformedRefused_all _ s⟩
  have hchunk := chunk.isLt
  have hplace : 192 - 64 * chunk.toNat + (63 - j) = 255 - (64 * chunk.toNat + j) := by omega
  rw [getLsbD_codeChunk _ _ (by omega), getD_codeBits hc (by omega), hplace]

/-- Settles O34: the response is the length zero-extended, so its value is the length's. -/
theorem rdclenResponds : Obligations.RdclenResponds := by
  intro sym s
  exact ⟨toNat_encode_noImm rfl, fun hr ht => ⟨_, exec_rdclen hr ht,
    BitVec.toNat_setWidth_of_le (by decide)⟩,
    fun hr => exec_codeRead_badPhase hr rfl rfl rfl, malformedRefused_all _ s⟩

end Sys2Proof.Machine
end

section
/-! The bit-packer (43_pack.md): one bit shifted in, and the byte that `FLUSH` completes with zeros. -/

namespace Sys2Proof.Machine

/-! ### One bit (rule R141) -/

theorem shiftIn_room {b : Bool} {pk : Packer} {e : Env} (h : pk.nheld ≠ 7) :
    shiftIn b pk e =
      .going { pk with
        acc := shiftedAcc b pk, bitcnt := pk.bitcnt + 1, nheld := pk.nheld + 1 } e :=
  if_neg h

theorem shiftIn_eighth_accepted {b : Bool} {pk : Packer} {e : Env} (h : pk.nheld = 7)
    (ha : e.sinkAccepts 1 = true) :
    shiftIn b pk e =
      .going { pk with acc := 0, nheld := 0, bitcnt := pk.bitcnt + 1, outlen := pk.outlen + 1 }
        (e.afterBytes [shiftedAcc b pk]) := by
  rw [shiftIn, if_pos h, sinkWrite_ok ha]

theorem shiftIn_eighth_failed {b : Bool} {pk : Packer} {e : Env} {later : List SinkAnswer}
    (h : pk.nheld = 7) (hs : e.sink = .fail :: later) :
    shiftIn b pk e = .failed { e with sink := later } := by
  rw [shiftIn, if_pos h, sinkWrite_fail hs]

/-! ### `FLUSH` past the checks (rule R143) -/

/-- Bit 7 - i of the padded byte: the held bit i places below the oldest one, or padding. -/
theorem getLsbD_paddedByte (pk : Packer) {i : Nat} (hi : i < 8) :
    (paddedByte pk).getLsbD (7 - i) =
      if i < pk.nheld.toNat then pk.acc.getLsbD (pk.nheld.toNat - 1 - i) else false := by
  have hlt := nheld_lt pk
  rw [paddedByte, padCount, BitVec.getLsbD_shiftLeft]
  split
  · have hplace : 7 - i - (8 - pk.nheld.toNat) = pk.nheld.toNat - 1 - i := by omega
    have habove : ¬ 7 - i < 8 - pk.nheld.toNat := by omega
    simp [hplace, habove, show 7 - i < 8 by omega]
  · have hbelow : 7 - i < 8 - pk.nheld.toNat := by omega
    simp [hbelow]

/-- The padded byte is the held bits, oldest highest, with zeros below. -/
theorem byteBits_paddedByte (pk : Packer) :
    byteBits (paddedByte pk) = heldBits pk ++ List.replicate (8 - pk.nheld.toNat) false := by
  have hlt := nheld_lt pk
  have hlen : (byteBits (paddedByte pk)).length =
      (heldBits pk ++ List.replicate (8 - pk.nheld.toNat) false).length := by
    rw [length_byteBits, List.length_append, length_heldBits, List.length_replicate]
    omega
  refine List.ext_getElem hlen fun i hi _ => ?_
  rw [length_byteBits] at hi
  simp [byteBits, heldBits, getLsbD_paddedByte pk hi, List.getElem_append]

theorem exec_flush_empty {s : State} (hr : s.ready .codes) (h : s.arch.pk.nheld = 0) :
    exec .flush s =
      .next { s with arch := { s.arch with
        pk := { s.arch.pk with padbits := 0 }, phase := .done } } :=
  (checked_ready _ hr rfl rfl).trans (if_pos h)

theorem exec_flush_accepted {s : State} (hr : s.ready .codes) (h : s.arch.pk.nheld ≠ 0)
    (ha : s.env.sinkAccepts 1 = true) :
    exec .flush s =
      .next
        { arch := { s.arch with pk := flushedPacker s.arch.pk, phase := .done }
          env := s.env.afterBytes [paddedByte s.arch.pk] } := by
  refine (checked_ready _ hr rfl rfl).trans ?_
  rw [if_neg h, sinkWrite_ok ha]

theorem exec_flush_failed {s : State} {later : List SinkAnswer} (hr : s.ready .codes)
    (h : s.arch.pk.nheld ≠ 0) (hs : s.env.sink = .fail :: later) :
    exec .flush s = .next (raiseSinkFail (encode .flush) { s.env with sink := later } s) := by
  refine (checked_ready _ hr rfl rfl).trans ?_
  rw [if_neg h, sinkWrite_fail hs]

/-! ### The statements -/

/-- Settles O38: `FLUSH` past the checks is the padded byte offered to the sink, whose bits are the
held ones and then zeros; the padding it counts is `8 - NHELD`. -/
theorem flushPadsAndCloses : Obligations.FlushPadsAndCloses := by
  refine ⟨rfl, fun s => ⟨exec_flush_empty, fun hr h ha => ?_, fun later hr h hs => ?_,
    fun hf hp => exec_badPhase hf rfl (by simpa [accepts] using hp), malformedRefused_all _ s⟩⟩
  · exact ⟨_, byteBits_paddedByte _, exec_flush_accepted hr h ha⟩
  · exact ⟨_, exec_flush_failed hr h hs, rfl, hr.2⟩

/-- Settles O36: the bit is held while there is room, and the eighth sends the byte of the held bits
and itself. -/
theorem shiftInStep : Obligations.ShiftInStep := fun b pk _ =>
  ⟨toNat_shiftedAcc b pk, shiftIn_room, byteBits_shifted b pk, shiftIn_eighth_accepted,
    fun _ => shiftIn_eighth_failed⟩

end Sys2Proof.Machine
end

section
/-! The system commands (44_system.md): `CLEAR` as a return to reset, and the layouts of the status
registers that `RDREG` responds with (10_state.md rule R34). -/

namespace Sys2Proof.Machine

/-! ### `CLEAR` (rule R160) -/

theorem clearArch_of_clean {a : Arch} (hf : a.fault = false) :
    clearArch a = { Arch.reset with cause := a.cause, finfo := a.finfo } := by
  rw [clearArch, hf]
  rfl

/-- The fault registers `CLEAR` keeps stand at their reset values already (10_state.md rule R24). -/
theorem clearArch_eq_reset {a : Arch} (hf : a.fault = false) (hrec : FaultRecord a) :
    clearArch a = Arch.reset := by
  obtain ⟨hcause, hfinfo⟩ := hrec.clean hf
  rw [clearArch_of_clean hf, hcause, hfinfo]
  rfl

theorem exec_clear {s : State} (hf : s.arch.fault = false) :
    exec .clear s = .next { s with arch := clearArch s.arch } := checked_accepted _ hf rfl rfl

/-! ### `RDREG` (rule R161) -/

/-- `RDREG` passes the checks in every state. -/
theorem exec_rdreg (reg : StatusReg) (s : State) :
    exec (.rdreg reg) s = respond (statusReg reg s.arch) s := by
  cases hf : s.arch.fault with
  | true => exact exec_rdreg_faulted reg hf
  | false => exact checked_accepted _ hf rfl rfl

/-- `FAULT` stands above the two bits of `PHASE`, and `CAUSE` above a zero bit. -/
theorem toNat_statusReg_status (a : Arch) :
    (statusReg .status a).toNat =
      a.phase.code.toNat + 4 * a.fault.toNat + 16 * a.cause.code.toNat := by
  have hword : (statusReg .status a).toNat = (statusWord a).toNat :=
    BitVec.toNat_setWidth_of_le (by decide)
  simp only [hword, statusWord, toNat_append_eq_add, BitVec.toNat_ofBool, BitVec.toNat_ofNat]
  omega

/-- `NHELD` stands above the eight bits of `ACC`, and `PADBITS` above a zero bit. -/
theorem toNat_statusReg_packst (a : Arch) :
    (statusReg .packst a).toNat =
      a.pk.acc.toNat + 256 * a.pk.nheld.toNat + 4096 * a.pk.padbits.toNat := by
  have hword : (statusReg .packst a).toNat = (packstWord a.pk).toNat :=
    BitVec.toNat_setWidth_of_le (by decide)
  simp only [hword, packstWord, toNat_append_eq_add, BitVec.toNat_ofNat]
  omega

/-! ### The statements -/

/-- Settles O43: `CLEAR` runs `clearArch` in every phase, which with `FAULT` = 0 is reset but for
`CAUSE` and `FINFO`; the record of no fault says that these are 0 (`clearArch_eq_reset`). -/
theorem clearStartsOver : Obligations.ClearStartsOver := by
  refine ⟨rfl, fun s => ⟨fun hf => ?_, fun hf hrec => ?_, fun hf => exec_dropped hf rfl,
    malformedRefused_all _ s⟩⟩
  · rw [exec_clear hf, clearArch_of_clean hf]
  · rw [exec_clear hf, clearArch_eq_reset hf hrec]

/-- Settles O44: `RDREG` responds in every state (`exec_rdreg`); the registers of several fields are
read field by field, the derived ones lose no bit, and the others are whole words of the state. -/
theorem rdregResponds : Obligations.RdregResponds := by
  intro reg s
  refine ⟨toNat_encode_noImm rfl, fun ht => ⟨statusReg reg s.arch,
    (exec_rdreg reg s).trans (respond_taken ht), ?_⟩, malformedRefused_all _ s⟩
  cases reg with
  | status =>
    refine ⟨rfl, (toNat_statusReg_status _).trans ?_⟩
    congr 2
    · cases s.arch.phase <;> rfl
    · cases s.arch.cause <;> rfl
  | nsym => exact ⟨rfl, toNat_statusReg_nsym _⟩
  | totalw => exact ⟨rfl, toNat_statusReg_totalw _⟩
  | root =>
    refine ⟨rfl, ?_⟩
    cases hroot : s.arch.root with
    | none => rw [statusReg_root_none hroot]; rfl
    | some n => exact toNat_statusReg_root hroot
  | packst => exact ⟨rfl, toNat_statusReg_packst _⟩
  | finfo | inlen | bitcnt | outlen => exact ⟨rfl, rfl⟩

end Sys2Proof.Machine
end

section
/-! The faulted block (60_exceptions.md): what a faulted block does with a word and with a step
(rules R173 and R183), and the two forms of fault entry (rules R172 and R181). -/

namespace Sys2Proof.Machine

/-! ### A word and a step while `FAULT` = 1 (rules R173 and R183) -/

theorem takeWord_rdreg {w : CmdWord} {r : StatusReg} (s : State) (h : decode w = .ok (.rdreg r)) :
    takeWord w s = respond (statusReg r s.arch) s := by
  rw [takeWord_ok s h, exec_rdreg]

/-- A faulted block drops the word, or it responds to an `RDREG`. -/
theorem takeWord_faulted {w : CmdWord} {s t : State} (hf : s.arch.fault = true)
    (h : takeWord w s = .next t) :
    t = s ∨ ∃ r, t = { s with env := s.env.afterResponse (statusReg r s.arch) } := by
  by_cases hd : ∃ r, decode w = .ok (.rdreg r)
  · obtain ⟨r, hr⟩ := hd
    exact .inr ⟨r, respond_next ((takeWord_rdreg s hr).symm.trans h)⟩
  · rw [takeWord_dropped hf (not_exists.mp hd)] at h
    exact .inl (Host.Outcome.next.inj h).symm

theorem takeWord_faulted_arch {w : CmdWord} {s t : State} (hf : s.arch.fault = true)
    (h : takeWord w s = .next t) : t.arch = s.arch := by
  rcases takeWord_faulted hf h with rfl | ⟨r, rfl⟩ <;> rfl

theorem takeWord_faulted_out {w : CmdWord} {s t : State} (hf : s.arch.fault = true)
    (h : takeWord w s = .next t) : t.env.out = s.env.out := by
  rcases takeWord_faulted hf h with rfl | ⟨r, rfl⟩ <;> rfl

/-- A command cut short takes nothing back from the sink (70_reset_and_hazards.md rule R202). -/
theorem out_prefix_cutByReset (s : State) (r : Result) : s.env.out <+: (cutByReset s r).env.out :=
  List.prefix_append _ _

/-! ### Fault entry (rules R172 and R181) -/

/-- The two forms of fault entry by a command `i` from `s`: the three writes alone, or `SINK_FAIL`
after some bytes were accepted. -/
inductive Raised (i : Instr) (s : State) : State → Prop
  | precise (c : Cause) : c ≠ .sinkFail → Raised i s (raiseFault c (encode i) s)
  | sinkFail (bytes : List Byte) (later : List SinkAnswer) :
      Raised i s
        (raiseSinkFail (encode i) { s.env with out := s.env.out ++ bytes, sink := later } s)

/-- A rule that ends with a fault not there before has entered it in one of the two forms. -/
theorem ran_raised {i : Instr} {s t : State} (h : Ran s i t) (hs : s.arch.fault = false)
    (ht : t.arch.fault = true) : Raised i s t := by
  cases h with
  | countAtMax | packNoCode | packOverflow => exact .precise _ (by decide)
  | packFailed sym bytes later => exact .sinkFail bytes later
  | flushFailed later => simpa using Raised.sinkFail (i := .flush) (s := s) [] later
  | _ => exact absurd (ht.symm.trans hs) (by decide)

/-- A command that ends with a fault it raised has entered it in one of the two forms. -/
theorem exec_raised {i : Instr} {s t : State} (h : exec i s = .next t) (hs : s.arch.fault = false)
    (ht : t.arch.fault = true) : Raised i s t := by
  rcases exec_cases h with ⟨hbad, -⟩ | ⟨hbad, -⟩ | ⟨-, -, rfl⟩ | ⟨-, -, -, rfl⟩ | ⟨-, -, -, hran⟩
  · simp [hs] at hbad
  · simp [hs] at hbad
  · exact .precise _ (by decide)
  · exact .precise _ (by decide)
  · exact ran_raised hran hs ht

/-! ### The statements -/

/-- Settles O10: past the decoder only `RDREG` runs while `FAULT` = 1, and a response touches neither
the block nor `OUT` (`takeWord_faulted`). -/
theorem faultedBlockDropsEveryOtherWord : Obligations.FaultedBlockDropsEveryOtherWord :=
  fun _ s hf => ⟨fun _ => takeWord_rdreg s, takeWord_dropped hf,
    fun _ h => ⟨takeWord_faulted_arch hf h, takeWord_faulted_out hf h⟩⟩

/-- Settles O11: each of the two forms of fault entry (`exec_raised`) leaves the rest of the state as
it says, and the faulted block then drops every command but `RDREG`. -/
theorem faultEntryIsPrecise : Obligations.FaultEntryIsPrecise := by
  intro i s t hs h ht
  refine ⟨fun hc => ?_, fun hc => ?_, ht, fun j hj => exec_dropped ht hj⟩
  · cases exec_raised h hs ht with
    | precise c => rfl
    | sinkFail => exact absurd rfl hc
  · cases exec_raised h hs ht with
    | precise c hne => exact absurd hc hne
    | sinkFail bytes later => exact ⟨rfl, rfl, rfl, rfl, List.prefix_append _ _⟩

/-- Settles O12, by the host's next action: a faulted block waits, takes a word that changes nothing
of it, or is reset. -/
theorem onlyResetLeavesTheFaultedState : Obligations.OnlyResetLeavesTheFaultedState := by
  intro s t hf h
  cases hin : s.env.inputs with
  | nil =>
    rw [step_waits hin] at h
    cases h
    exact ⟨List.prefix_rfl, .inl rfl, fun _ hr => by cases hr⟩
  | cons ev rest =>
    cases ev with
    | command w =>
      rw [step_command hin] at h
      refine ⟨?_, .inl (takeWord_faulted_arch (s := s.withInputs rest) hf h),
        fun _ hr => by cases hr⟩
      rw [takeWord_faulted_out (s := s.withInputs rest) hf h, withInputs_out]
    | reset =>
      rw [step_reset hin] at h
      cases h
      exact ⟨List.prefix_rfl, .inr ⟨rfl, .inl ⟨rest, rfl⟩⟩, fun _ _ => rfl⟩
    | cutShort w =>
      rw [step_cutShort hin] at h
      cases h
      exact ⟨out_prefix_cutByReset _ _, .inr ⟨rfl, .inr ⟨w, rest, rfl⟩⟩, fun _ _ => rfl⟩

end Sys2Proof.Machine
end

section
/-! The faults of the bit-packer (60_exceptions.md rules R178, R180 and R181): how a run of bits
comes to its next write, and `PACK` past its checks. -/

namespace Sys2Proof.Machine

/-! ### A run of bits up to a write (43_pack.md rules R140 and R141) -/

theorem shiftAll_append {x : List Bool} {p q : Packer} {e f : Env}
    (h : shiftAll x p e = .going q f) (y : List Bool) : shiftAll (x ++ y) p e = shiftAll y q f := by
  induction x generalizing p e with
  | nil =>
    cases h
    rfl
  | cons b rest ih =>
    rw [List.cons_append, shiftAll]
    rw [shiftAll] at h
    cases hs : shiftIn b p e with
    | going p' e' =>
      rw [hs] at h
      exact ih h
    | failed | stuck =>
      rw [hs] at h
      cases h

/-- Bits that complete more than `m` bytes, the first `m` accepted: the run comes to a bit that
completes the next byte, the accepted bytes being the first `8 m` bits of the stream. -/
theorem shiftAll_reaches_write {bits : List Bool} {pk : Packer} {e : Env} {m : Nat}
    (hm : m < (pk.nheld.toNat + bits.length) / 8) (ha : e.sinkAccepts m = true) :
    ∃ (bytes : List Byte) (pk' : Packer) (b : Bool) (rest : List Bool), bytes.length = m ∧
      bytes.flatMap byteBits = (heldBits pk ++ bits).take (8 * m) ∧ pk'.nheld = 7 ∧
      shiftAll bits pk e = shiftAll (b :: rest) pk' (e.afterBytes bytes) := by
  have hheld := nheld_lt pk
  obtain ⟨k, hk⟩ : ∃ k, pk.nheld.toNat + k = 8 * m + 7 := ⟨8 * m + 7 - pk.nheld.toNat, by omega⟩
  have hlt : k < bits.length := by omega
  have hlen : (bits.take k).length = k := List.length_take_of_le hlt.le
  obtain ⟨pk', bytes, hrun, hp⟩ := shiftAll_accepted (bits.take k) pk e (by
    rwa [hlen, hk, show (8 * m + 7) / 8 = m by omega])
  have hbytes : bytes.length = m := by rw [hp.written, hlen, hk]; omega
  refine ⟨bytes, pk', bits[k], bits.drop (k + 1), hbytes, ?_, BitVec.eq_of_toNat_eq ?_, ?_⟩
  · have hstream : heldBits pk ++ bits =
        bytes.flatMap byteBits ++ (heldBits pk' ++ bits.drop k) := by
      rw [← List.append_assoc, hp.stream, List.append_assoc, List.take_append_drop]
    rw [hstream, List.take_left' (by rw [length_flatMap_byteBits, hbytes])]
  · rw [hp.held, hlen, hk, Nat.mul_add_mod]
    rfl
  · rw [← List.drop_eq_getElem_cons hlt, ← shiftAll_append hrun, List.take_append_drop]

theorem sinkAccepts_replicate {e : Env} {m : Nat} {more : List SinkAnswer}
    (h : e.sink = List.replicate m .ok ++ more) : e.sinkAccepts m = true := by
  rw [Env.sinkAccepts, h, List.take_left' List.length_replicate]
  simp

/-- The write after `m` accepted ones fails: the run stops there, with what was accepted in
`OUT`. -/
theorem shiftAll_failed {bits : List Bool} {pk : Packer} {e : Env} {m : Nat}
    {later : List SinkAnswer} (hm : m < (pk.nheld.toNat + bits.length) / 8)
    (hs : e.sink = List.replicate m .ok ++ .fail :: later) :
    ∃ bytes : List Byte, bytes.length = m ∧
      bytes.flatMap byteBits = (heldBits pk ++ bits).take (8 * m) ∧
      shiftAll bits pk e = .failed { e with out := e.out ++ bytes, sink := later } := by
  obtain ⟨bytes, pk', b, rest, hlen, hbits, h7, hrun⟩ :=
    shiftAll_reaches_write hm (sinkAccepts_replicate hs)
  have hnext : (e.afterBytes bytes).sink = .fail :: later := by
    rw [afterBytes_sink, hs, hlen, List.drop_left' List.length_replicate]
  refine ⟨bytes, hlen, hbits, ?_⟩
  rw [hrun, shiftAll, shiftIn_eighth_failed h7 hnext]
  rfl

/-! ### `PACK` past the checks (43_pack.md rule R140) -/

theorem counterOverflow_eq_false {pk : Packer} {len : BitVec 8}
    (hin : pk.inlen.toNat ≠ 2 ^ 64 - 1) (hbit : pk.bitcnt.toNat + len.toNat ≤ 2 ^ 64 - 1) :
    counterOverflow pk len = false := by
  have hne : pk.inlen ≠ BitVec.allOnes 64 := fun h => hin (by rw [h, BitVec.toNat_allOnes])
  rw [counterOverflow, Bool.or_eq_false_iff]
  exact ⟨beq_eq_false_iff_ne.mpr hne, decide_eq_false (Nat.not_lt.mpr hbit)⟩

theorem exec_pack_noCode {sym : Byte} {s : State} (hr : s.ready .codes)
    (h : s.arch.clen sym = 0) :
    exec (.pack sym) s = .next (raiseFault .noCode (encode (.pack sym)) s) :=
  (checked_ready _ hr rfl rfl).trans (if_pos h)

/-- `PACK` of a coded symbol, the counters not at their end, is the run of the code's bits. -/
theorem exec_pack_run {sym : Byte} {s : State} (hr : s.ready .codes) (h : s.arch.clen sym ≠ 0)
    (ho : counterOverflow s.arch.pk (s.arch.clen sym) = false) :
    exec (.pack sym) s =
      finishPack (encode (.pack sym)) s (shiftAll (codeBits s.arch sym) s.arch.pk s.env) := by
  refine (checked_ready _ hr rfl rfl).trans ((if_neg h).trans ?_)
  rw [ho]
  rfl

/-! ### The statements -/

/-- Settles O15: the code is looked up before the counters are (`exec_pack_noCode`). -/
theorem packWithoutACodeRaisesNoCode : Obligations.PackWithoutACodeRaisesNoCode :=
  fun _ _ hr h => ⟨exec_pack_noCode hr h, fieldA_commandWord _ _ _⟩

/-- Settles O17: the bits of the code run until the failed write (`shiftAll_failed`), which is how
`PACK` then ends; `FLUSH` has one write, and that one fails. -/
theorem failedWriteStopsTheCommand : Obligations.FailedWriteStopsTheCommand := by
  refine ⟨fun sym s m later hr hcode hin hbit hm hs => ?_, fun s later hr h hs =>
    exec_flush_failed hr h hs⟩
  rw [← length_codeBits] at hm
  obtain ⟨bytes, hlen, hbits, hrun⟩ := shiftAll_failed hm hs
  refine ⟨bytes, hlen, hbits, ?_⟩
  rw [exec_pack_run hr hcode (counterOverflow_eq_false hin hbit), hrun]
  rfl

end Sys2Proof.Machine
end

section
/-! Reset during a command (70_reset_and_hazards.md rule R202): a command only appends to `OUT`, so
the bytes it would have written are what it appends, and a cut keeps a prefix of them. -/

namespace Sys2Proof.Machine

/-! ### What a command appends to `OUT` -/

theorem ran_out_prefix {s t : State} {i : Instr} (h : Ran s i t) : s.env.out <+: t.env.out := by
  cases h with
  | pack | packFailed | flush => exact List.prefix_append _ _
  | _ => exact List.prefix_rfl

theorem exec_out_prefix {s t : State} {i : Instr} (h : exec i s = .next t) :
    s.env.out <+: t.env.out := by
  rcases exec_env_or_ran h with he | hran
  · rw [he]
  · exact ran_out_prefix hran

theorem takeMalformed_env {w : CmdWord} {s t : State} (h : takeMalformed w s = .next t) :
    t.env = s.env := by
  rcases takeMalformed_cases h with ⟨-, rfl⟩ | ⟨-, rfl⟩ <;> rfl

theorem takeWord_out_prefix {w : CmdWord} {s t : State} (h : takeWord w s = .next t) :
    s.env.out <+: t.env.out := by
  cases hd : decode w with
  | ok i => exact exec_out_prefix ((takeWord_ok s hd).symm.trans h)
  | error e => rw [takeMalformed_env ((takeWord_error s hd).symm.trans h)]

/-! ### What a cut command leaves in `OUT` -/

theorem cutByReset_out_prefix (s : State) (r : Result) :
    (cutByReset s r).env.out <+: s.env.out ++ acceptedBytes s r :=
  (List.prefix_append_right_inj _).mpr (List.take_prefix _ _)

/-- The bytes of a command that only appends to `OUT` lead to the `OUT` it would have reached. -/
theorem out_append_acceptedBytes_next {s u : State} (h : s.env.out <+: u.env.out) :
    s.env.out ++ acceptedBytes s (.next u) = u.env.out :=
  List.prefix_iff_eq_append.mp h

theorem cutByReset_out_of_responseNeverTaken (s : State) (v : RspWord) :
    (cutByReset s (.fault (.responseNeverTaken v))).env.out = s.env.out := by
  simp [cutByReset, acceptedBytes]

/-! ### The statement -/

/-- Settles O46: the step is `cutByReset`, whose `OUT` keeps a prefix of the command's bytes
(`cutByReset_out_prefix`); which bytes these are depends on how the command, left alone, would have
ended. -/
theorem resetCutsACommandShort : Obligations.ResetCutsACommandShort := by
  intro s w rest hin
  refine ⟨_, step_cutShort hin, rfl, rfl, rfl, out_prefix_cutByReset _ _, fun u hu => ?_,
    fun bytes hstuck => ?_, fun v hread => ?_⟩
  · change takeWord w (s.withInputs rest) = _ at hu
    rw [hu, ← out_append_acceptedBytes_next (takeWord_out_prefix hu)]
    exact cutByReset_out_prefix _ _
  · change takeWord w (s.withInputs rest) = _ at hstuck
    rw [hstuck]
    exact cutByReset_out_prefix _ _
  · change takeWord w (s.withInputs rest) = _ at hread
    rw [hread]
    exact cutByReset_out_of_responseNeverTaken _ _

end Sys2Proof.Machine
end

section
/-! The decoder and the encoder undo each other, and both follow the opcode map (30_encoding.md
rules R81 to R84). -/

namespace Sys2Proof

/-! ### The word of a command -/

@[simp] theorem fieldOp_encode (i : Instr) : fieldOp (encode i) = i.opcode :=
  fieldOp_commandWord _ _ _

@[simp] theorem fieldA_encode (i : Instr) : fieldA (encode i) = i.operandA :=
  fieldA_commandWord _ _ _

@[simp] theorem fieldZ_encode (i : Instr) : fieldZ (encode i) = 0 := fieldZ_commandWord _ _ _

@[simp] theorem fieldImm_encode (i : Instr) : fieldImm (encode i) = i.operandImm :=
  fieldImm_commandWord _ _ _

/-- The low bits of a zero-extended operand are the operand. -/
theorem extract_zeroExtend {n k : Nat} (h : k ≤ n) (x : BitVec k) :
    (x.zeroExtend n).extractLsb' 0 k = x := by
  refine BitVec.eq_of_toNat_eq ?_
  simp [BitVec.toNat_setWidth_of_le h]

/-- The opcode picks the format, and the format reads the operands back from the fields the encoder
put them in. -/
theorem decode_encode {i : Instr} (hw : i.wellFormed = true) : decode (encode i) = .ok i := by
  unfold decode
  rw [fieldOp_encode]
  cases i with
  | clear | build | gen | flush =>
    exact decodeZ_eq_ok.mpr ⟨fieldZ_encode _, ⟨fieldA_encode _, fieldImm_encode _⟩, rfl⟩
  | count sym | pack sym | rdfreq sym | rdclen sym =>
    exact decodeS_eq_ok.mpr ⟨fieldZ_encode _, fieldImm_encode _, by rw [fieldA_encode]; rfl⟩
  | ldfreq sym cnt =>
    exact decodeLdfreq_eq_ok.mpr ⟨fieldZ_encode _, by rw [fieldA_encode, fieldImm_encode]; rfl⟩
  | rdreg reg =>
    exact decodeRdreg_eq_ok.mpr ⟨fieldZ_encode _, fieldImm_encode _, reg,
      by rw [fieldA_encode]; exact statusReg_ofNumber_number reg, rfl⟩
  | rdnode idx =>
    have hidx : idx.toNat ≤ 510 := by simpa [Instr.wellFormed, BitVec.le_def] using hw
    refine decodeRdnode_eq_ok.mpr ⟨fieldZ_encode _, ⟨fieldA_encode _, ?_⟩, ?_⟩
    · rw [fieldImm_encode, Instr.operandImm, BitVec.toNat_setWidth_of_le (by decide)]
      omega
    · rw [fieldImm_encode, Instr.operandImm, extract_zeroExtend (by decide)]
  | rdcode sym chunk =>
    refine decodeRdcode_eq_ok.mpr ⟨fieldZ_encode _, ?_, ?_⟩
    · rw [fieldImm_encode, Instr.operandImm, BitVec.toNat_setWidth_of_le (by decide)]
      exact chunk.isLt
    · rw [fieldA_encode, fieldImm_encode, Instr.operandImm, extract_zeroExtend (by decide)]
      rfl

/-! ### The row of a command -/

theorem row_of_instr (i : Instr) :
    ∃ r ∈ opcodeMap, r.mnemonic = i.mnemonic ∧ fieldOp r.pattern = i.opcode := by
  cases i <;> simp [opcodeMap, Instr.mnemonic, Instr.opcode, fieldOp]

/-- A word that decodes is covered by the row of the command it decodes to. -/
theorem row_of_decode {w : CmdWord} {i : Instr} (h : decode w = .ok i) :
    ∃ r ∈ opcodeMap, r.mnemonic = i.mnemonic ∧ r.covers w = true := by
  obtain ⟨hop, -, hz, -⟩ := fields_of_decode h
  obtain ⟨-, hlegal⟩ := (decode_ok_iff w).mp ⟨i, h⟩
  obtain ⟨r, hr, hmnem, hpat⟩ := row_of_instr i
  have hrow : fieldOp w = fieldOp r.pattern := hop.trans hpat.symm
  exact ⟨r, hr, hmnem, (covers_iff_operandsLegal hr w).mpr ⟨hrow, hz, hrow ▸ hlegal⟩⟩

/-! ### The statements -/

/-- Settles O2, command by command (`decode_encode`). -/
theorem decodeOfEncodeIsTheCommand : Obligations.DecodeOfEncodeIsTheCommand :=
  fun _ => decode_encode

/-- Settles O3: a word that decodes has the fields of its command, and a word is its fields. -/
theorem encodeOfDecodeIsTheWord : Obligations.EncodeOfDecodeIsTheWord :=
  fun _ _ h => ⟨encode_of_decode h, wellFormed_of_decode h⟩

/-- Settles O4: the row is that of the opcode (`row_of_decode`); the fields are those the formats
read. -/
theorem decoderFollowsTheOpcodeMap : Obligations.DecoderFollowsTheOpcodeMap := by
  intro w i h
  obtain ⟨hop, ha, hz, himm, -⟩ := fields_of_decode h
  exact ⟨row_of_decode h, hop, ha, hz, himm⟩

/-- Settles O1, by running the decoder on the twelve words. -/
theorem specWordsDecode : Obligations.SpecWordsDecode :=
  ⟨rfl, rfl, rfl, rfl, rfl, rfl, rfl, rfl, rfl, rfl, rfl, rfl⟩

end Sys2Proof
end

section
/-! One step (30_encoding.md section 6, 10_state.md section 11), and what a command does to the
block, seen field by field. -/

namespace Sys2Proof.Machine

/-! ### The histories -/

theorem exec_rsp_prefix {i : Instr} {s t : State} (h : exec i s = .next t) :
    s.env.rsp <+: t.env.rsp := by
  by_cases heq : t.env.rsp = s.env.rsp
  · rw [heq]
  · rw [(exec_rsp h heq).2]
    exact List.prefix_append _ _

theorem takeWord_rsp_prefix {w : CmdWord} {s t : State} (h : takeWord w s = .next t) :
    s.env.rsp <+: t.env.rsp := by
  cases hd : decode w with
  | ok i => exact exec_rsp_prefix ((takeWord_ok s hd).symm.trans h)
  | error e => rw [takeMalformed_env ((takeWord_error s hd).symm.trans h)]

/-! ### What a command does to the block -/

/-- A piece of the block that no fault entry touches and that a command has changed: its phase
accepted the command, which ran. -/
theorem ran_of_changed {α : Type} (f : Arch → α) {i : Instr} {s t : State}
    (hfault : ∀ c w, f (raiseFault c w s).arch = f s.arch) (h : exec i s = .next t)
    (hne : f t.arch ≠ f s.arch) : accepts i s.arch.phase = true ∧ Ran s i t := by
  rcases exec_cases h with ⟨-, rfl⟩ | ⟨-, -, hread, hran⟩ | ⟨-, -, rfl⟩ | ⟨-, -, -, rfl⟩ |
    ⟨-, -, ha, hran⟩
  · exact absurd rfl hne
  · rw [ran_read hread hran] at hne
    exact absurd rfl hne
  · exact absurd (hfault _ _) hne
  · exact absurd (hfault _ _) hne
  · exact ⟨ha, hran⟩

theorem ran_freq {i : Instr} {s t : State} (h : Ran s i t) :
    t.arch.freq = s.arch.freq ∨ i = .clear ∨ (∃ sym, i = .count sym) ∨
      ∃ sym cnt, i = .ldfreq sym cnt := by
  cases h with
  | clear => exact .inr (.inl rfl)
  | count sym => exact .inr (.inr (.inl ⟨sym, rfl⟩))
  | ldfreq sym cnt => exact .inr (.inr (.inr ⟨sym, cnt, rfl⟩))
  | _ => exact .inl rfl

theorem ran_tree {i : Instr} {s t : State} (h : Ran s i t) :
    (t.arch.node, t.arch.root) = (s.arch.node, s.arch.root) ∨ i = .clear ∨ i = .build ∨
      i = .gen := by
  cases h with
  | clear | build | gen => simp
  | _ => exact .inl rfl

theorem ran_cmap {i : Instr} {s t : State} (h : Ran s i t) :
    t.arch.cmap = s.arch.cmap ∨ i = .clear ∨ i = .gen := by
  cases h with
  | clear | gen => simp
  | _ => exact .inl rfl

theorem ran_pk {i : Instr} {s t : State} (h : Ran s i t) :
    t.arch.pk = s.arch.pk ∨ i = .clear ∨ (∃ sym, i = .pack sym) ∨ i = .flush := by
  cases h with
  | clear => exact .inr (.inl rfl)
  | pack sym | packFailed sym => exact .inr (.inr (.inl ⟨sym, rfl⟩))
  | flushNothing | flush | flushFailed => exact .inr (.inr (.inr rfl))
  | _ => exact .inl rfl

theorem ran_padbits {i : Instr} {s t : State} (h : Ran s i t) :
    t.arch.pk.padbits = s.arch.pk.padbits ∨ i = .clear ∨ i = .flush ∨
      ((∃ sym, i = .pack sym) ∧ t.arch.cause = .sinkFail) := by
  cases h with
  | clear => exact .inr (.inl rfl)
  | flushNothing | flush | flushFailed => exact .inr (.inr (.inl rfl))
  | packFailed sym => exact .inr (.inr (.inr ⟨⟨sym, rfl⟩, rfl⟩))
  | pack _ _ _ _ _ hp => exact .inl hp.padbits
  | _ => exact .inl rfl

theorem ran_phase_writer {i : Instr} {s t : State} (h : Ran s i t) :
    t.arch.phase = s.arch.phase ∨ i = .build ∨ i = .gen ∨ i = .flush ∨ i = .clear := by
  cases h with
  | clear | build | gen | flushNothing | flush => simp
  | _ => exact .inl rfl

/-- A rule leaves the fault registers alone, or it enters a fault. -/
theorem ran_faultRegisters {i : Instr} {s t : State} (h : Ran s i t) :
    (t.arch.fault, t.arch.cause, t.arch.finfo) = (s.arch.fault, s.arch.cause, s.arch.finfo) ∨
      (t.arch.fault = true ∧ t.arch.cause ≠ .noFault) := by
  cases h with
  | countAtMax | packNoCode | packOverflow | packFailed | flushFailed =>
    exact .inr ⟨rfl, by simp⟩
  | _ => exact .inl rfl

/-- A command leaves the fault registers alone, or it enters a fault where there was none. -/
theorem exec_faultRegisters {i : Instr} {s t : State} (h : exec i s = .next t) :
    (t.arch.fault, t.arch.cause, t.arch.finfo) = (s.arch.fault, s.arch.cause, s.arch.finfo) ∨
      (s.arch.fault = false ∧ t.arch.fault = true ∧ t.arch.cause ≠ .noFault) := by
  rcases exec_cases h with ⟨-, rfl⟩ | ⟨-, -, hread, hran⟩ | ⟨hf, -, rfl⟩ | ⟨hf, -, -, rfl⟩ |
    ⟨hf, -, -, hran⟩
  · exact .inl rfl
  · rw [ran_read hread hran]
    exact .inl rfl
  · exact .inr ⟨hf, rfl, by simp⟩
  · exact .inr ⟨hf, rfl, by simp⟩
  · exact (ran_faultRegisters hran).imp_right fun hraised => ⟨hf, hraised⟩

/-! ### The statements -/

/-- Settles O6: a presented word is taken, and one that decodes is run. -/
theorem stepRunsTheDecodedCommand : Obligations.StepRunsTheDecodedCommand :=
  fun _ _ _ _ hin hd => (step_command hin).trans (takeWord_ok _ hd)

/-- Settles O7, by the host's next action. -/
theorem stepWithoutACommand : Obligations.StepWithoutACommand := fun _ =>
  ⟨step_waits, fun _ _ _ hin hd => (step_command hin).trans (takeWord_error _ hd),
    fun _ hin => step_reset hin⟩

/-- Settles O55, by the host's next action: a word only appends to either history, and a reset, also
one that cuts a command, keeps what they hold. -/
theorem historiesOnlyGrow : Obligations.HistoriesOnlyGrow := by
  intro s t h
  cases hin : s.env.inputs with
  | nil =>
    rw [step_waits hin] at h
    cases h
    exact ⟨List.prefix_rfl, List.prefix_rfl⟩
  | cons ev rest =>
    cases ev with
    | command w =>
      rw [step_command hin] at h
      exact ⟨takeWord_out_prefix (s := s.withInputs rest) h,
        takeWord_rsp_prefix (s := s.withInputs rest) h⟩
    | reset =>
      rw [step_reset hin] at h
      cases h
      exact ⟨List.prefix_rfl, List.prefix_rfl⟩
    | cutShort w =>
      rw [step_cutShort hin] at h
      cases h
      exact ⟨out_prefix_cutByReset _ _, List.prefix_rfl⟩

/-- Settles O53: what a command changes was changed by its rule, in a phase that accepts it
(`ran_of_changed`), and each structure has its own list of rules that write it. -/
theorem writersOfEachStructure : Obligations.WritersOfEachStructure := by
  intro i s t h
  refine ⟨fun hne => ?_, fun hne => ?_, fun hne => ?_, fun hne => ?_, fun hne => ?_, fun hne => ?_,
    fun hne => ?_⟩
  · obtain ⟨ha, hran⟩ := ran_of_changed Arch.freq (fun _ _ => rfl) h hne
    rcases (ran_freq hran).resolve_left hne with rfl | ⟨sym, rfl⟩ | ⟨sym, cnt, rfl⟩
    · exact .inl rfl
    · exact .inr ⟨by simpa [accepts] using ha, .inl ⟨sym, rfl⟩⟩
    · exact .inr ⟨by simpa [accepts] using ha, .inr ⟨sym, cnt, rfl⟩⟩
  · have hpair : (t.arch.node, t.arch.root) ≠ (s.arch.node, s.arch.root) := by
      simpa [imp_iff_not_or] using hne
    obtain ⟨ha, hran⟩ := ran_of_changed (fun a => (a.node, a.root)) (fun _ _ => rfl) h hpair
    rcases (ran_tree hran).resolve_left hpair with rfl | rfl | rfl
    · exact .inl rfl
    · exact .inr (.inl ⟨by simpa [accepts] using ha, rfl⟩)
    · exact .inr (.inr ⟨by simpa [accepts] using ha, rfl⟩)
  · obtain ⟨ha, hran⟩ := ran_of_changed Arch.cmap (fun _ _ => rfl) h hne
    rcases (ran_cmap hran).resolve_left hne with rfl | rfl
    · exact .inl rfl
    · exact .inr ⟨by simpa [accepts] using ha, rfl⟩
  · obtain ⟨ha, hran⟩ := ran_of_changed Arch.pk (fun _ _ => rfl) h hne
    rcases (ran_pk hran).resolve_left hne with rfl | ⟨sym, rfl⟩ | rfl
    · exact .inl rfl
    · exact .inr ⟨by simpa [accepts] using ha, .inl ⟨sym, rfl⟩⟩
    · exact .inr ⟨by simpa [accepts] using ha, .inr rfl⟩
  · obtain ⟨ha, hran⟩ := ran_of_changed (fun a => a.pk.padbits) (fun _ _ => rfl) h hne
    rcases (ran_padbits hran).resolve_left hne with rfl | rfl | ⟨⟨sym, rfl⟩, hc⟩
    · exact .inl rfl
    · exact .inr ⟨by simpa [accepts] using ha, .inl rfl⟩
    · exact .inr ⟨by simpa [accepts] using ha, .inr hc⟩
  · obtain ⟨-, hran⟩ := ran_of_changed Arch.phase (fun _ _ => rfl) h hne
    exact (ran_phase_writer hran).resolve_left hne
  · rcases exec_faultRegisters h with hkept | ⟨hf, ht, -⟩
    · simp only [Prod.mk.injEq] at hkept
      simp [hkept] at hne
    · exact ⟨hf, ht⟩

end Sys2Proof.Machine
end

section
/-! The tree that `BUILD` makes (41_tree.md rules R111 to R115): every merge joins the two least
nodes then in the priority collection, and the collection is read off the finished arena. -/

namespace Sys2Proof.Machine

/-! ### The priority collection, read off the finished arena -/

/-- What is in the collection once the nodes `pre` are made can be told from any arena that further
merges lead to. -/
theorem mem_live_iff {a : Arch} {pre more : List Node} {q : List QItem} (hlen : pre.length ≤ 255)
    (h : Live a pre q) {w : Weight} {n : NodeIndex} :
    (w, n) ∈ q ↔ ∃ x, inQueueAt (arenaOf a (pre ++ more)) pre.length n x ∧ x.weight = w := by
  rw [h.mem]
  constructor
  · rintro ⟨x, hx, hw, hfree⟩
    exact ⟨x, ⟨arenaOf_bound hx, arenaOf_append_some hx, fun j hj hc =>
      hfree j hj ((childOf_append hj (by omega)).1 hc)⟩, hw⟩
  · rintro ⟨x, ⟨hb, hx, hfree⟩, hw⟩
    exact ⟨x, (arenaOf_append hb).symm.trans hx, hw, fun j hj hc =>
      hfree j hj ((childOf_append hj (by omega)).2 hc)⟩

/-- Merge `k` makes a node of weight `w` with the children `l` and `r`, which are `nl` and `nr`: the
two least nodes then in the collection, the first on the left (41_tree.md rule R111). -/
structure JoinsTwoLeast (nodes : Arena) (k : Nat) (w : Weight) (l r : NodeIndex) (nl nr : Node) :
    Prop where
  left : inQueueAt nodes k l nl
  right : inQueueAt nodes k r nr
  distinct : l ≠ r
  sum : w.toNat = nl.weight.toNat + nr.weight.toNat
  leastLeft : ∀ n x, inQueueAt nodes k n x → n ≠ l →
    QItem.before (nl.weight, l) (x.weight, n) = true
  leastRight : ∀ n x, inQueueAt nodes k n x → n ≠ l → n ≠ r →
    QItem.before (nr.weight, r) (x.weight, n) = true

theorem joinsTwoLeast_of_mergeAt {a : Arch} {ns : List Node} {k : Nat} (hk : k < ns.length)
    (hlen : ns.length ≤ 255) (h : MergeAt a ns k) :
    ∃ w l r nl nr, (arenaOf a ns).at (mergeIndex k) = some (.internal w l r) ∧
      JoinsTwoLeast (arenaOf a ns) k w l r nl nr := by
  obtain ⟨q, q1, q2, ⟨wx, l⟩, ⟨wy, r⟩, hlive, hx, hy, hnode, hsum⟩ := h.taken
  have htake : (ns.take k).length = k := List.length_take_of_le hk.le
  have hmem : ∀ w n, (w, n) ∈ q ↔ ∃ x, inQueueAt (arenaOf a ns) k n x ∧ x.weight = w := by
    intro w n
    have hiff := mem_live_iff (more := ns.drop k) (by omega) hlive (w := w) (n := n)
    rwa [List.take_append_drop, htake] at hiff
  obtain ⟨hxq, hxperm, hxleast⟩ := extractMin_some hx
  obtain ⟨hyq, hyperm, hyleast⟩ := extractMin_some hy
  have hcons : ∀ p, p ∈ q ↔ p = (wx, l) ∨ p ∈ q1 := fun p => by
    rw [hxperm.mem_iff, List.mem_cons]
  have hnodup : ((wx, l) :: (wy, r) :: q2 |>.map Prod.snd).Nodup :=
    ((hxperm.trans (hyperm.cons _)).map _).nodup_iff.1 hlive.nodup
  have hlr : l ≠ r := by
    rw [List.map_cons, List.nodup_cons] at hnodup
    exact fun e => hnodup.1 (List.mem_cons.2 (.inl e))
  obtain ⟨nl, hnl, rfl⟩ := (hmem wx l).1 hxq
  obtain ⟨nr, hnr, rfl⟩ := (hmem wy r).1 ((hcons _).2 (.inr hyq))
  refine ⟨_, l, r, nl, nr, ?_, hnl, hnr, hlr, hsum, fun n x hn hnel => ?_,
    fun n x hn hnel hner => ?_⟩
  · rw [arenaOf_merge a ns k (by omega), hnode]
  · refine (hxleast (x.weight, n) ((hmem _ _).2 ⟨x, hn, rfl⟩)).resolve_left fun e => hnel ?_
    exact congrArg Prod.snd e
  · have hin : (x.weight, n) ∈ q1 :=
      ((hcons _).1 ((hmem _ _).2 ⟨x, hn, rfl⟩)).resolve_left fun e => hnel (congrArg Prod.snd e)
    exact (hyleast _ hin).resolve_left fun e => hner (congrArg Prod.snd e)

/-! ### The tree that `BUILD` leaves -/

theorem buildTree_merge (a : Arch) {k : Nat} (hk : k + 1 < keyCount a) :
    ∃ w l r nl nr, (buildTree a).node.at (mergeIndex k) = some (.internal w l r) ∧
      JoinsTwoLeast (buildTree a).node k w l r nl nr := by
  obtain ⟨ns, -, hnode, hlen, -, -, -, -, -, -, -, hmerge⟩ := buildTree_spec a
  have hle := keyCount_le a
  rw [hnode]
  exact joinsTwoLeast_of_mergeAt (by omega) (by omega) (hmerge k (by omega))

/-- When the last merge is made only the root is left in the collection, with the whole weight. -/
theorem buildTree_end (a : Arch) (n : NodeIndex) :
    ((buildTree a).root = some n ↔ ∃ x, inQueueAt (buildTree a).node (keyCount a - 1) n x) ∧
      ∀ x, inQueueAt (buildTree a).node (keyCount a - 1) n x → x.weight.toNat = totalWeight a := by
  obtain ⟨ns, last, hnode, hlen, hlive, hone, -, -, hweight, hroot, -⟩ := buildTree_spec a
  have hle := keyCount_le a
  have hmem : ∀ w, (w, n) ∈ last ↔
      ∃ x, inQueueAt (buildTree a).node (keyCount a - 1) n x ∧ x.weight = w := by
    intro w
    have hiff := mem_live_iff (more := []) (by omega) hlive (w := w) (n := n)
    rwa [List.append_nil, ← hnode, hlen] at hiff
  have hlast : ∀ p, p ∈ last → last = [p] := by
    intro p
    match last, hone with
    | [], _ => simp
    | [y], _ => simp [eq_comm]
  refine ⟨⟨fun h => ?_, fun ⟨x, hx⟩ => ?_⟩, fun x hx => ?_⟩
  · rw [hroot, Option.map_eq_some_iff] at h
    obtain ⟨⟨w, m⟩, hhead, rfl⟩ := h
    obtain ⟨x, hx, -⟩ := (hmem w).1 (List.mem_of_mem_head? hhead)
    exact ⟨x, hx⟩
  · rw [hroot, hlast _ ((hmem _).2 ⟨x, hx, rfl⟩)]
    rfl
  · rw [hlast _ ((hmem _).2 ⟨x, hx, rfl⟩)] at hweight
    simpa [queueWeight] using hweight

theorem buildTree_bound {a : Arch} {n : NodeIndex} {x : Node}
    (h : (buildTree a).node.at n = some x) : n.toNat < 256 + (keyCount a - 1) := by
  obtain ⟨ns, -, hnode, hlen, -⟩ := buildTree_spec a
  rw [hnode] at h
  exact hlen ▸ arenaOf_bound h

/-- Every internal node is the node of a merge, with that merge's children. -/
theorem buildTree_internal {a : Arch} {n : NodeIndex} {w : Weight} {l r : NodeIndex}
    (h : (buildTree a).node.at n = some (.internal w l r)) :
    ∃ k nl nr, k + 1 < keyCount a ∧ n = mergeIndex k ∧
      JoinsTwoLeast (buildTree a).node k w l r nl nr := by
  rcases index_cases n with ⟨sym, rfl⟩ | ⟨k, hk, rfl⟩ | h511
  · rw [buildTree_at_leaf, leafEntry] at h
    split at h <;> cases h
  · have hmade := (buildTree_at_merge_isSome a hk).1 (by rw [h]; rfl)
    obtain ⟨w', l', r', nl, nr, hat, hjoin⟩ := buildTree_merge a (k := k) (by omega)
    rw [hat] at h
    cases h
    exact ⟨k, nl, nr, by omega, rfl, hjoin⟩
  · rw [at_511 _ n h511.ge] at h
    cases h

theorem childOf_buildTree {a : Arch} {n m : NodeIndex} (h : childOf (buildTree a).node n m) :
    ∃ k x, k + 1 < keyCount a ∧ m = mergeIndex k ∧ inQueueAt (buildTree a).node k n x := by
  obtain ⟨w, l, r, hat, hside⟩ := h
  obtain ⟨k, nl, nr, hk, hm, hjoin⟩ := buildTree_internal hat
  obtain rfl | rfl := hside
  · exact ⟨k, nl, hk, hm, hjoin.left⟩
  · exact ⟨k, nr, hk, hm, hjoin.right⟩

/-- A child leaves the collection, so no later merge takes it again. -/
theorem parent_unique {a : Arch} {n m m' : NodeIndex} (h : childOf (buildTree a).node n m)
    (h' : childOf (buildTree a).node n m') : m = m' := by
  obtain ⟨k, x, -, rfl, -, -, hfree⟩ := childOf_buildTree h
  obtain ⟨k', x', -, rfl, -, -, hfree'⟩ := childOf_buildTree h'
  rcases Nat.lt_trichotomy k k' with hlt | rfl | hlt
  · exact absurd h (hfree' k hlt)
  · rfl
  · exact absurd h' (hfree k' hlt)

/-- A node that is no child is still in the collection at the end: it is the root. -/
theorem exists_parent {a : Arch} {n : NodeIndex}
    (hn : ((buildTree a).node.at n).isSome = true) (hroot : (buildTree a).root ≠ some n) :
    ∃ m, childOf (buildTree a).node n m := by
  obtain ⟨x, hx⟩ := Option.isSome_iff_exists.1 hn
  by_contra hnone
  exact hroot ((buildTree_end a n).1.2 ⟨x, buildTree_bound hx, hx, fun j _ hc => hnone ⟨_, hc⟩⟩)

theorem buildTree_root_no_parent {a : Arch} {n m : NodeIndex}
    (hroot : (buildTree a).root = some n) : ¬childOf (buildTree a).node n m := by
  intro hc
  obtain ⟨k, -, hk, rfl, -⟩ := childOf_buildTree hc
  obtain ⟨x, -, -, hfree⟩ := (buildTree_end a n).1.1 hroot
  exact hfree k (by omega) hc

theorem JoinsTwoLeast.before {nodes : Arena} {k : Nat} {w : Weight} {l r : NodeIndex}
    {nl nr : Node} (h : JoinsTwoLeast nodes k w l r nl nr) :
    QItem.before (nl.weight, l) (nr.weight, r) = true :=
  h.leastLeft r nr h.right h.distinct.symm

theorem JoinsTwoLeast.mergedFrom {nodes : Arena} {k : Nat} {w : Weight} {l r : NodeIndex}
    {nl nr : Node} (h : JoinsTwoLeast nodes k w l r nl nr) : MergedFrom nodes k w l r where
  earlier := ⟨h.left.1, h.right.1⟩
  children := by
    refine ⟨nl, nr, h.left.2.1, h.right.2.1, h.sum, h.distinct, ?_⟩
    rcases (before_iff _ _).1 h.before with hlt | ⟨heq, -⟩
    · exact hlt.le
    · exact (congrArg BitVec.toNat heq).le

theorem treeShape_buildTree (a : Arch) : TreeShape (buildTree a) where
  leaves := buildTree_at_leaf a
  merged k hk := by
    obtain ⟨w, l, r, nl, nr, hat, hjoin⟩ := buildTree_merge a hk
    exact ⟨w, l, r, hat, hjoin.mergedFrom⟩
  absent k hk hN := by
    have hN : keyCount a ≤ k + 1 := hN
    rw [← Option.not_isSome_iff_eq_none, buildTree_at_merge_isSome a hk]
    omega
  oneParent n hn hroot :=
    existsUnique_of_exists_of_unique (exists_parent hn hroot) fun _ _ => parent_unique
  noParent _ _ := buildTree_root_no_parent
  root := by
    refine ⟨buildTree_root_of_no_key, fun h1 => ?_, buildTree_root_of_two_keys⟩
    obtain ⟨sym, hkeys⟩ := List.length_eq_one_iff.1 ((length_keys a).trans h1)
    have hs : a.freqAt sym ≠ 0 := (mem_keys a sym).1 (hkeys ▸ List.mem_singleton_self sym)
    exact ⟨sym, hs, buildTree_root_of_one_key h1 hs⟩
  total n x hroot hx := by
    obtain ⟨y, hy⟩ := (buildTree_end a n).1.1 hroot
    obtain rfl : x = y := Option.some.inj (hx.symm.trans hy.2.1)
    exact (buildTree_end a n).2 x hy

theorem tiesByIndex_buildTree (a : Arch) : TiesByIndex (buildTree a).node := by
  intro n w l r nl nr hat hl hr heq
  obtain ⟨k, nl', nr', -, -, hjoin⟩ := buildTree_internal hat
  obtain rfl : nl = nl' := Option.some.inj (hl.symm.trans hjoin.left.2.1)
  obtain rfl : nr = nr' := Option.some.inj (hr.symm.trans hjoin.right.2.1)
  rcases (before_iff _ _).1 hjoin.before with hlt | ⟨-, hlt⟩
  · exact absurd (congrArg BitVec.toNat heq) hlt.ne
  · exact hlt

/-! ### The weight of a node -/

theorem toNat_leafWeight (a : Arch) (sym : Byte) :
    (leafWeight a sym).toNat = (a.freqAt sym).toNat := BitVec.toNat_setWidth_of_le (by decide)

/-- A node weighs what the leaves bound below it weigh, whatever code the walk comes with. -/
theorem weight_eq_sum_walk {a : Arch} (h : TreeShape a) {n : NodeIndex} {x : Node} {depth d : Nat}
    {code : List Bool} (hn : a.node.at n = some x) (hd : n.toNat < 256 + d) (hdepth : d < depth) :
    x.weight.toNat =
      (((walk a.node depth n code).map Prod.fst).map fun sym => (a.freqAt sym).toNat).sum := by
  induction depth generalizing n x d code with
  | zero => cases hdepth
  | succ depth ih =>
    cases x with
    | leaf w sym =>
      have hs := h.leaves sym
      rw [← leafIndex_of_leaf h hn, hn, leafEntry] at hs
      split at hs <;> cases hs
      simp [walk_leaf hn, Node.weight, toNat_leafWeight]
    | internal w l r =>
      have hlower : ∀ m, childOf a.node m n → m.toNat < 256 + (d - 1) ∧ d - 1 < depth := by
        intro m hm
        obtain ⟨-, hlt, hmerge⟩ := childOf_earlier h hm
        omega
      obtain ⟨k, -, -, ⟨-, nl, nr, hl, hr, hsum, -⟩⟩ := merge_of_internal h hn
      obtain ⟨hlb, hld⟩ := hlower l ⟨w, l, r, hn, .inl rfl⟩
      obtain ⟨hrb, hrd⟩ := hlower r ⟨w, l, r, hn, .inr rfl⟩
      rw [walk_internal hn, List.map_append, List.map_append, List.sum_append, ← ih hl hlb hld,
        ← ih hr hrb hrd]
      exact hsum

/-! ### The statements -/

/-- Settles O25: `BUILD` runs `buildTree`, whose merges give the shape (`treeShape_buildTree`) and
the order of tied children (`tiesByIndex_buildTree`). -/
theorem buildMakesTheTree : Obligations.BuildMakesTheTree := fun s hr =>
  ⟨_, exec_build hr, treeShape_buildTree s.arch, tiesByIndex_buildTree s.arch, rfl⟩

/-- Settles O26: the two that `ExtractMin` took are the least of the collection, which the finished
arena still shows (`buildTree_merge`). -/
theorem buildMergesTheTwoLeast : Obligations.BuildMergesTheTwoLeast := by
  intro a k w l r hk hat
  obtain ⟨w', l', r', nl, nr, hat', hjoin⟩ := buildTree_merge a hk
  rw [hat] at hat'
  cases hat'
  exact ⟨nl, nr, hjoin.left, hjoin.right, fun n x hn =>
    ⟨hjoin.leastLeft n x hn, hjoin.leastRight n x hn⟩⟩

/-- Settles O28: a merge adds the weights of its children, down to the leaves
(`weight_eq_sum_walk`); the leaves below the root are the symbols bound by the walk. -/
theorem weightIsTheSumOfTheLeavesBelow : Obligations.WeightIsTheSumOfTheLeavesBelow := by
  refine fun a h => ⟨fun n w l r hn => ?_, fun n hroot => ?_⟩
  · obtain ⟨k, hk, rfl, -⟩ := merge_of_internal h hn
    have hle := keyCount_le a
    exact weight_eq_sum_walk h hn (d := 255) (by rw [toNat_mergeIndex k (by omega)]; omega)
      (by decide)
  · rw [leavesBelow, ← bindings_of_root hroot]
    exact symbols_perm_keys h

end Sys2Proof.Machine
end

section
/-! The invariants between commands: what reset has, and what every step keeps (10_state.md rules
R24, R28 to R30 and R42, 41_tree.md rule R112, 42_codegen.md rule R128, 43_pack.md rule R146). -/

namespace Sys2Proof.Machine

/-! ### One induction for every invariant -/

/-- What holds at reset, is kept by fault entry and is kept by the rule of every accepted command is
kept by every step. -/
theorem step_keeps_of_ran {P : Arch → Prop} (hreset : P Arch.reset)
    (hfault : ∀ c w s, c ≠ .noFault → s.arch.fault = false → P s.arch → P (raiseFault c w s).arch)
    (hran : ∀ i s t, s.arch.fault = false → accepts i s.arch.phase = true → P s.arch →
      Ran s i t → P t.arch)
    {s t : State} (hs : P s.arch) (h : step s = .next t) : P t.arch := by
  refine step_keeps hreset (fun i s t hs h => ?_)
    (fun w s hs hf => hfault _ w s (by decide) hf hs) hs h
  rcases exec_cases h with ⟨-, rfl⟩ | ⟨-, -, hread, hran⟩ | ⟨hf, -, rfl⟩ | ⟨hf, -, -, rfl⟩ |
    ⟨hf, -, ha, hran'⟩
  · exact hs
  · rw [ran_read hread hran]
    exact hs
  · exact hfault _ _ s (by decide) hf hs
  · exact hfault _ _ s (by decide) hf hs
  · exact hran i s t hf ha hs hran'

/-! ### The fault registers -/

theorem faultRecord_reset : FaultRecord Arch.reset := ⟨fun _ => ⟨rfl, rfl⟩, fun h => by cases h⟩

theorem faultRecord_congr {a b : Arch}
    (h : (b.fault, b.cause, b.finfo) = (a.fault, a.cause, a.finfo)) (ha : FaultRecord a) :
    FaultRecord b := by
  simp only [Prod.mk.injEq] at h
  obtain ⟨hf, hc, hi⟩ := h
  exact ⟨by rw [hf, hc, hi]; exact ha.clean, by rw [hf, hc]; exact ha.faulted⟩

theorem faultRecord_of_faulted {a : Arch} (hf : a.fault = true) (hc : a.cause ≠ .noFault) :
    FaultRecord a :=
  ⟨fun h => absurd hf (by simp [h]), fun _ => hc⟩

/-! ### The phases -/

theorem phaseDiscipline_of_empty {a : Arch} (hnode : a.node = Arena.empty) (hroot : a.root = none)
    (hcmap : a.cmap = CodeMap.empty) (hpk : a.pk = Packer.zero) : PhaseDiscipline a :=
  ⟨fun _ => ⟨hnode, hroot⟩, fun _ => hcmap, fun _ => hpk⟩

theorem ran_keeps_phaseDiscipline {i : Instr} {s t : State} (ha : accepts i s.arch.phase = true)
    (hs : PhaseDiscipline s.arch) (h : Ran s i t) : PhaseDiscipline t.arch := by
  obtain ⟨htree, hcodes, hpacking⟩ := hs
  cases h with
  | clear => exact phaseDiscipline_of_empty rfl rfl rfl rfl
  | build =>
    have hp : s.arch.phase = .table := by simpa [accepts] using ha
    exact ⟨fun h => absurd rfl h, fun _ => hcodes (.inl hp), fun _ => hpacking (.inl hp)⟩
  | gen => exact ⟨fun _ => ⟨rfl, rfl⟩, by simp, by simp⟩
  | pack | packFailed | flushFailed =>
    have hp : s.arch.phase = .codes := by simpa [accepts] using ha
    exact ⟨htree, hcodes, by simp [hp]⟩
  | flushNothing | flush =>
    have hp : s.arch.phase = .codes := by simpa [accepts] using ha
    exact ⟨fun _ => htree (by simp [hp]), by simp, by simp⟩
  | _ => exact ⟨htree, hcodes, hpacking⟩

/-! ### Codes in canonical form -/

theorem codesCanonical_of_empty {a : Arch} (h : a.cmap = CodeMap.empty) : CodesCanonical a := by
  intro sym
  have habsent : a.codeAt sym = Code.absent := by simp [Arch.codeAt, h, CodeMap.empty]
  exact habsent ▸ canonical_absent

/-- The walk binds no code that is longer than an entry can hold. -/
theorem codesCanonical_generate (a : Arch) : CodesCanonical (generateCodes a) := by
  intro sym
  rcases codeAt_generate_cases a sym with ⟨habsent, -⟩ | ⟨code, hmem, hcode⟩
  · exact habsent ▸ canonical_absent
  · exact hcode ▸ canonical_ofList (length_of_mem_bindings hmem).2

theorem ran_keeps_codesCanonical {i : Instr} {s t : State} (hs : CodesCanonical s.arch)
    (h : Ran s i t) : CodesCanonical t.arch := by
  cases h with
  | clear => exact codesCanonical_of_empty rfl
  | gen => exact codesCanonical_generate s.arch
  | _ => exact hs

/-! ### The packer registers -/

theorem packerExact_of_zero {a : Arch} (h : a.pk = Packer.zero) : PackerExact a where
  held := by simp [h, Packer.zero]
  accSmall := by simp [h, Packer.zero]
  written := by simp [h, Packer.zero]
  padding := by simp [h, Packer.zero]
  early _ := h

theorem packerExact_congr {a b : Arch} (ha : PackerExact a) (hpk : b.pk = a.pk)
    (hphase : b.phase = a.phase) : PackerExact b := by
  obtain ⟨hheld, hacc, hwritten, hpad, hearly⟩ := ha
  constructor <;> simpa only [hpk, hphase]

/-- `PACK` advances `BITCNT`, `NHELD` and `OUTLEN` together, none of them past its end. -/
theorem packerExact_pack {a : Arch} {len : BitVec 8} {bits : List Bool} {bytes : List Byte}
    {pk : Packer} (ha : PackerExact a) (hp : a.phase = .codes) (hbits : bits.length = len.toNat)
    (ho : counterOverflow a.pk len = false) (hpacked : Packed bits a.pk bytes pk) (n : BitVec 64) :
    PackerExact { a with pk := { pk with inlen := n } } := by
  obtain ⟨hheld, hacc, hwritten, hpad, -⟩ := ha
  simp only [hp, if_true, reduceCtorEq, if_false] at hheld hwritten hpad
  have hcount : a.pk.bitcnt.toNat + len.toNat < 2 ^ 64 := by
    simp [counterOverflow] at ho
    omega
  have hbitcnt : pk.bitcnt.toNat = a.pk.bitcnt.toNat + bits.length := by
    rw [hpacked.bitcnt, BitVec.toNat_add, BitVec.toNat_ofNat]
    omega
  have houtlen : pk.outlen.toNat = a.pk.outlen.toNat + bytes.length := by
    rw [hpacked.outlen, BitVec.toNat_add, BitVec.toNat_ofNat, hpacked.written]
    omega
  have hb := hpacked.written
  have hh := hpacked.held
  refine ⟨?_, hpacked.small hacc, ?_, ?_, by simp [hp]⟩
  all_goals simp only [hp, if_true, reduceCtorEq, if_false]
  · omega
  · omega
  · rw [hpacked.padbits, hpad]

/-- `FLUSH` with no bit held: the stream ends at a byte boundary. -/
theorem packerExact_flushNothing {a : Arch} (ha : PackerExact a) (hp : a.phase = .codes)
    (h0 : a.pk.nheld = 0) :
    PackerExact { a with pk := { a.pk with padbits := 0 }, phase := .done } := by
  obtain ⟨hheld, hacc, hwritten, -, -⟩ := ha
  simp only [hp, if_true, reduceCtorEq, if_false] at hheld hwritten
  have hnone : a.pk.nheld.toNat = 0 := congrArg BitVec.toNat h0
  refine ⟨by simp [h0], hacc, ?_, ?_, by simp⟩
  · simp only [if_true]
    omega
  · simp [← hheld, hnone]

/-- `FLUSH` with bits held writes one more byte. -/
theorem packerExact_flush {a : Arch} (ha : PackerExact a) (hp : a.phase = .codes)
    (h0 : a.pk.nheld ≠ 0) :
    PackerExact { a with pk := flushedPacker a.pk, phase := .done } := by
  obtain ⟨hheld, -, hwritten, -, -⟩ := ha
  simp only [hp, if_true, reduceCtorEq, if_false] at hheld hwritten
  have hlt := nheld_lt a.pk
  have hbits := a.pk.bitcnt.isLt
  have hpos : a.pk.nheld.toNat ≠ 0 := fun e => h0 (BitVec.eq_of_toNat_eq e)
  refine ⟨by simp [flushedPacker], by simp [flushedPacker], ?_, ?_, by simp⟩
  · have hone : (1 : BitVec 64).toNat = 1 := rfl
    simp only [flushedPacker, if_true, BitVec.toNat_add, hone]
    omega
  · simp only [flushedPacker, padCount, if_true, BitVec.toNat_ofNat]
    omega

theorem packerTrusted_of_clean {a : Arch} (h : a.fault = false) : packerTrusted a := by
  simp [packerTrusted, h]

theorem ran_keeps_packerExact {i : Instr} {s t : State} (ha : accepts i s.arch.phase = true)
    (hs : PackerExact s.arch) (h : Ran s i t) (ht : packerTrusted t.arch) :
    PackerExact t.arch := by
  cases h with
  | clear => exact packerExact_of_zero rfl
  | build =>
    have hp : s.arch.phase = .table := by simpa [accepts] using ha
    exact packerExact_of_zero (hs.early (.inl hp))
  | gen =>
    have hp : s.arch.phase = .tree := by simpa [accepts] using ha
    exact packerExact_of_zero (hs.early (.inr hp))
  | pack sym pk bytes _ ho hpacked =>
    have hp : s.arch.phase = .codes := by simpa [accepts] using ha
    exact packerExact_pack hs hp (length_codeBits _ _) ho hpacked _
  | flushNothing h0 => exact packerExact_flushNothing hs (by simpa [accepts] using ha) h0
  | flush h0 => exact packerExact_flush hs (by simpa [accepts] using ha) h0
  | packFailed | flushFailed => exact absurd ⟨rfl, rfl⟩ ht
  | _ => exact packerExact_congr hs rfl rfl

/-! ### The tree and the code map -/

theorem treeShape_raiseFault {c : Cause} {w : CmdWord} {s : State} (h : TreeShape s.arch) :
    TreeShape (raiseFault c w s).arch :=
  ⟨h.leaves, h.merged, h.absent, h.oneParent, h.noParent, h.root, h.total⟩

theorem codeMapValid_congr {a b : Arch} (h : CodeMapValid a) (hfreq : b.freq = a.freq)
    (hcmap : b.cmap = a.cmap) : CodeMapValid b := by
  obtain ⟨hcov, hprefix, hcomplete, hsingle⟩ := h
  constructor <;>
    simpa only [kraftSum, keyCount, codeBits, Arch.clen, Arch.codeAt, Arch.freqAt, hfreq, hcmap]

theorem codingSound_of_table {a : Arch} (h : a.phase = .table) : CodingSound a :=
  ⟨by simp [h], by simp [h], by simp [h]⟩

theorem codingSound_of_codes {a : Arch} (h : a.phase = .codes ∨ a.phase = .done)
    (hvalid : CodeMapValid a) : CodingSound a := by
  have htree : a.phase ≠ .tree := by rcases h with h | h <;> simp [h]
  exact ⟨fun e => absurd e htree, fun e => absurd e htree, fun _ => hvalid⟩

theorem codingSound_raiseFault {c : Cause} {w : CmdWord} {s : State} (h : CodingSound s.arch) :
    CodingSound (raiseFault c w s).arch :=
  ⟨fun hp => treeShape_raiseFault (h.tree hp), h.ties,
    fun hp => codeMapValid_congr (h.codes hp) rfl rfl⟩

/-- `PACK` and `FLUSH`, however they end, leave the code map and the table alone. -/
theorem codingSound_pack {a b : Arch} (hs : CodingSound a) (ha : a.phase = .codes)
    (hb : b.phase = .codes ∨ b.phase = .done) (hfreq : b.freq = a.freq) (hcmap : b.cmap = a.cmap) :
    CodingSound b :=
  codingSound_of_codes hb (codeMapValid_congr (hs.codes (.inl ha)) hfreq hcmap)

theorem ran_keeps_codingSound {i : Instr} {s t : State} (ha : accepts i s.arch.phase = true)
    (hs : CodingSound s.arch) (h : Ran s i t) : CodingSound t.arch := by
  cases h with
  | clear => exact codingSound_of_table rfl
  | count | ldfreq => exact codingSound_of_table (by simpa [accepts] using ha)
  | build =>
    exact ⟨fun _ => treeShape_buildTree s.arch, fun _ => tiesByIndex_buildTree s.arch, by simp⟩
  | gen =>
    have hp : s.arch.phase = .tree := by simpa [accepts] using ha
    exact codingSound_of_codes (.inl rfl) (codeMapValid_generate (hs.tree hp))
  | pack | packFailed | flushFailed =>
    have hp : s.arch.phase = .codes := by simpa [accepts] using ha
    exact codingSound_pack hs hp (.inl hp) rfl rfl
  | flushNothing | flush =>
    exact codingSound_pack hs (by simpa [accepts] using ha) (.inr rfl) rfl rfl
  | countAtMax | packNoCode | packOverflow => exact codingSound_raiseFault hs
  | read => exact hs

/-! ### The reset state -/

theorem keyCount_reset : keyCount Arch.reset = 0 := by
  simp [← length_keys, keys]

theorem totalWeight_reset : totalWeight Arch.reset = 0 := by
  simp [totalWeight_eq]

theorem statusReg_reset (r : StatusReg) : statusReg r Arch.reset = 0 := by
  cases r with
  | nsym => exact BitVec.eq_of_toNat_eq ((toNat_statusReg_nsym _).trans keyCount_reset)
  | totalw => exact BitVec.eq_of_toNat_eq ((toNat_statusReg_totalw _).trans totalWeight_reset)
  | _ => rfl

/-! ### The statements -/

/-- Settles O45: every piece of state is a literal of `Arch.reset`, the tables are empty, and the
two derived registers count nothing. -/
theorem resetValues : Obligations.ResetValues := by
  refine ⟨rfl, rfl, rfl, rfl, freqAt_reset, at_empty, rfl, fun sym => ?_, rfl, rfl, rfl, rfl, rfl,
    rfl, rfl, statusReg_reset⟩
  change (Arch.reset.codeAt sym).len = 0 ∧ (Arch.reset.codeAt sym).bits = 0
  rw [codeAt_reset]
  exact ⟨rfl, rfl⟩

/-- Settles O47, invariant by invariant. -/
theorem invariantsHoldAtReset : Obligations.InvariantsHoldAtReset where
  fault := faultRecord_reset
  phase := phaseDiscipline_of_empty rfl rfl rfl rfl
  canonical := codesCanonical_of_empty rfl
  packer _ := packerExact_of_zero rfl
  coding := codingSound_of_table rfl

/-- Settles O48: a command leaves the fault registers alone or enters a fault where there was none
(`ran_faultRegisters`). -/
theorem stepKeepsTheFaultRecord : Obligations.StepKeepsTheFaultRecord := by
  refine fun s t hs h => step_keeps_of_ran faultRecord_reset
    (fun c w s hc _ _ => faultRecord_of_faulted rfl hc) (fun i s t _ _ hs hran => ?_) hs h
  rcases ran_faultRegisters hran with hkept | ⟨hf, hc⟩
  · exact faultRecord_congr hkept hs
  · exact faultRecord_of_faulted hf hc

/-- Settles O49: `BUILD` makes the tree that `GEN` discards, and only phases `CODES` and `DONE` come
after a code map. -/
theorem stepKeepsPhaseDiscipline : Obligations.StepKeepsPhaseDiscipline := fun _ _ hs h =>
  step_keeps_of_ran (phaseDiscipline_of_empty rfl rfl rfl rfl)
    (fun _ _ _ _ _ hs => ⟨hs.noTree, hs.noCodes, hs.noPacking⟩)
    (fun _ _ _ _ ha hs hran => ran_keeps_phaseDiscipline ha hs hran) hs h

/-- Settles O50: before a command runs no fault is recorded, so the registers are exact; `PACK` and
`FLUSH` advance them together, and a failed write ends the trust in them. -/
theorem stepKeepsThePackerExact : Obligations.StepKeepsThePackerExact := fun _ _ hs h =>
  step_keeps_of_ran (P := fun a => packerTrusted a → PackerExact a)
    (fun _ => packerExact_of_zero rfl)
    (fun _ _ _ _ hf hs _ => packerExact_congr (hs (packerTrusted_of_clean hf)) rfl rfl)
    (fun _ _ _ hf ha hs hran => ran_keeps_packerExact ha (hs (packerTrusted_of_clean hf)) hran) hs h

/-- Settles O51: only `GEN` writes codes, and each fits its entry (`codesCanonical_generate`). -/
theorem stepKeepsCodesCanonical : Obligations.StepKeepsCodesCanonical := fun _ _ hs h =>
  step_keeps_of_ran (codesCanonical_of_empty rfl) (fun _ _ _ _ _ hs => hs)
    (fun _ _ _ _ _ hs hran => ran_keeps_codesCanonical hs hran) hs h

/-- Settles O52: `BUILD` leaves a tree of the table (`treeShape_buildTree`), `GEN` makes its code
map out of one (`codeMapValid_generate`), and nothing but `CLEAR` writes table, tree or code map in
a later phase. -/
theorem stepKeepsCodingSound : Obligations.StepKeepsCodingSound := fun _ _ hs h =>
  step_keeps_of_ran (codingSound_of_table rfl) (fun _ _ _ _ _ hs => codingSound_raiseFault hs)
    (fun _ _ _ _ ha hs hran => ran_keeps_codingSound ha hs hran) hs h

end Sys2Proof.Machine
end

section
/-! Sequences of `COUNT`, and the two registers derived from the table (40_frequency.md section 1,
10_state.md section 8). -/

namespace Sys2Proof.Machine

theorem totalWeight_le (a : Arch) : totalWeight a ≤ 256 * (2 ^ 32 - 1) := by
  rw [totalWeight_eq]
  refine (List.sum_le_card_nsmul _ (2 ^ 32 - 1) fun c hc => ?_).trans_eq ?_
  · obtain ⟨sym, -, rfl⟩ := List.mem_map.1 hc
    exact Nat.le_pred_of_lt (a.freqAt sym).isLt
  · rw [List.length_map, length_allSymbols, smul_eq_mul]

/-! ### Commands one after another -/

theorem execAll_cons {i : Instr} {s t : State} (h : exec i s = .next t) (rest : List Instr) :
    execAll (i :: rest) s = execAll rest t := by
  rw [execAll, h]

theorem execAll_append {xs : List Instr} {s t : State} (h : execAll xs s = .next t)
    (ys : List Instr) : execAll (xs ++ ys) s = execAll ys t := by
  induction xs generalizing s with
  | nil =>
    cases h
    rfl
  | cons i rest ih =>
    rw [List.cons_append, execAll]
    rw [execAll] at h
    cases hi : exec i s with
    | next u =>
      rw [hi] at h
      exact ih h
    | fault | refused =>
      rw [hi] at h
      cases h

/-- After one `COUNT` each symbol still has as far to go as it occurs in the rest of the input. -/
theorem count_then_rest {a : Arch} {x : Byte} (h : (a.freqAt x).toNat < 2 ^ 32 - 1)
    (rest : List Byte) (sym : Byte) :
    ((a.setFreq x (a.freqAt x + 1)).freqAt sym).toNat + rest.count sym =
      (a.freqAt sym).toNat + (x :: rest).count sym := by
  by_cases hsym : sym = x
  · subst hsym
    rw [freqAt_setFreq_same, (count_registers h).1, List.count_cons_self]
    omega
  · rw [freqAt_setFreq_other _ _ _ _ hsym, List.count_cons_of_ne (Ne.symm hsym)]

/-! ### The statements -/

/-- Settles O22: neither register loses a bit, and both run over the table in the order of
symbol. -/
theorem derivedRegistersAreExact : Obligations.DerivedRegistersAreExact := fun a =>
  ⟨toNat_statusReg_nsym a, keyCount_le a, toNat_statusReg_totalw a, totalWeight_le a,
    (length_keys a).symm, totalWeight_eq a⟩

/-- Settles O23, by induction on the input: no count comes to its maximum on the way, so each
`COUNT` adds one. -/
theorem countingBytesAddsTheirOccurrences : Obligations.CountingBytesAddsTheirOccurrences := by
  intro input
  induction input with
  | nil => exact fun s _ _ => ⟨s, rfl, fun _ => rfl, rfl⟩
  | cons x rest ih =>
    intro s hr hfit
    have hlt : (s.arch.freqAt x).toNat < 2 ^ 32 - 1 := by
      have hx := hfit x
      rw [List.count_cons_self] at hx
      omega
    have hne : s.arch.freqAt x ≠ BitVec.allOnes 32 := fun h => hlt.ne ((toNat_eq_max_iff _).mpr h)
    have hnext := count_then_rest hlt rest
    obtain ⟨t, ht, hcount, hframe⟩ :=
      ih { s with arch := s.arch.setFreq x (s.arch.freqAt x + 1) } hr
        fun sym => by rw [hnext sym]; exact hfit sym
    refine ⟨t, ?_, fun sym => (hcount sym).trans (hnext sym), hframe⟩
    rw [List.map_cons, execAll_cons (exec_count_belowMax hr hne), ht]

end Sys2Proof.Machine
end

section
/-! Which faults a command can raise, what the packer registers of a faulted block matter to, and
ports that are never answered (60_exceptions.md sections 2 and 6, 70_reset_and_hazards.md section
4). -/

namespace Sys2Proof.Machine

/-! ### The faults of a command's row (60_exceptions.md rule R171) -/

theorem badPhase_mem_mayRaise {i : Instr} {p : Phase} (h : accepts i p = false) :
    .badPhase ∈ mayRaise i := by
  cases i with
  | clear | rdreg | rdfreq => cases h
  | _ => simp [mayRaise]

theorem ran_mayRaise {i : Instr} {s t : State} (h : Ran s i t) (hs : s.arch.fault = false)
    (ht : t.arch.fault = true) : t.arch.cause ∈ mayRaise i := by
  cases h with
  | countAtMax | packNoCode | packOverflow | packFailed | flushFailed => simp [mayRaise]
  | _ => exact absurd (ht.symm.trans hs) (by decide)

theorem exec_mayRaise {i : Instr} {s t : State} (hw : i.wellFormed = true)
    (hs : s.arch.fault = false) (h : exec i s = .next t) (ht : t.arch.fault = true) :
    t.arch.cause ∈ mayRaise i := by
  cases ha : accepts i s.arch.phase with
  | false =>
    rw [exec_badPhase hs hw ha] at h
    cases h
    exact badPhase_mem_mayRaise ha
  | true => exact ran_mayRaise (exec_accepted hs hw ha h) hs ht

/-! ### The packer registers of a faulted block (60_exceptions.md rule R181) -/

/-- The same state with other values in the packer registers. -/
def State.withPacker (s : State) (pk : Packer) : State :=
  { s with arch := { s.arch with pk := pk } }

/-- Registers 0 to 4 hold nothing of the packer (10_state.md rule R34). -/
theorem statusReg_withPacker {r : StatusReg} (hr : r ∈ [.status, .finfo, .nsym, .totalw, .root])
    (a : Arch) (pk : Packer) : statusReg r { a with pk := pk } = statusReg r a := by
  cases r with
  | inlen | bitcnt | outlen | packst => simp at hr
  | _ => rfl

/-- Whether a response is taken does not depend on the block. -/
theorem respond_withArch {v : RspWord} {s t : State} (h : respond v s = .next t) (a : Arch) :
    respond v { s with arch := a } = .next { t with arch := a } := by
  unfold respond at *
  dsimp only
  split at h <;> cases h <;> simp_all

theorem takeWord_faulted_withPacker {w : CmdWord} {s t : State} (hf : s.arch.fault = true)
    (hread : ∀ r, decode w = .ok (.rdreg r) → r ∈ [.status, .finfo, .nsym, .totalw, .root])
    (h : takeWord w s = .next t) (pk : Packer) :
    takeWord w (s.withPacker pk) = .next { t with arch := (s.withPacker pk).arch } := by
  by_cases hd : ∃ r, decode w = .ok (.rdreg r)
  · obtain ⟨r, hr⟩ := hd
    rw [takeWord_rdreg _ hr] at h ⊢
    rw [State.withPacker, statusReg_withPacker (hread r hr)]
    exact respond_withArch h _
  · rw [takeWord_dropped hf (not_exists.mp hd)] at h
    cases h
    exact takeWord_dropped hf (not_exists.mp hd)

theorem acceptedBytes_respond (v : RspWord) (s : State) : acceptedBytes s (respond v s) = [] := by
  unfold respond
  split <;> simp [acceptedBytes]

/-- A faulted block writes no byte that a reset could cut. -/
theorem acceptedBytes_faulted {s : State} (w : CmdWord) (hf : s.arch.fault = true) :
    acceptedBytes s (takeWord w s) = [] := by
  by_cases hd : ∃ r, decode w = .ok (.rdreg r)
  · obtain ⟨r, hr⟩ := hd
    rw [takeWord_rdreg s hr, acceptedBytes_respond]
  · rw [takeWord_dropped hf (not_exists.mp hd)]
    simp [acceptedBytes]

/-- A reset that cuts a word of a faulted block comes to the same, whatever the block held. -/
theorem cutByReset_faulted {s s' : State} (w : CmdWord) (hf : s.arch.fault = true)
    (hf' : s'.arch.fault = true) (henv : s'.env = s.env) :
    cutByReset s' (takeWord w s') = cutByReset s (takeWord w s) := by
  rw [cutByReset, cutByReset, acceptedBytes_faulted w hf, acceptedBytes_faulted w hf', henv]

theorem observe_withPacker {u t : State} (henv : u.env = t.env)
    (harch : u.arch = { t.arch with pk := u.arch.pk }) : u.observe = t.observe := by
  rw [State.observe, State.observe, State.faultPin, State.faultPin, henv, harch]

/-- A step of a faulted block that reads no packer register is the same step with any packer
registers. -/
theorem step_faulted_withPacker {s t : State} (pk : Packer) (hf : s.arch.fault = true)
    (h : step s = .next t)
    (hread : ∀ w rest r, s.env.inputs = .command w :: rest → decode w = .ok (.rdreg r) →
      r ∈ [.status, .finfo, .nsym, .totalw, .root]) :
    ∃ u, step (s.withPacker pk) = .next u ∧ u.env = t.env ∧
      u.arch = { t.arch with pk := u.arch.pk } := by
  cases hin : s.env.inputs with
  | nil =>
    rw [step_waits hin] at h
    cases h
    exact ⟨_, step_waits (s := s.withPacker pk) hin, rfl, rfl⟩
  | cons ev rest =>
    cases ev with
    | command w =>
      rw [step_command hin] at h
      have hother := takeWord_faulted_withPacker (s := s.withInputs rest) hf
        (fun r hr => hread w rest r hin hr) h pk
      have harch : t.arch = s.arch := takeWord_faulted_arch (s := s.withInputs rest) hf h
      exact ⟨_, (step_command (s := s.withPacker pk) hin).trans hother, rfl, by rw [harch]; rfl⟩
    | reset =>
      rw [step_reset hin] at h
      cases h
      exact ⟨_, step_reset (s := s.withPacker pk) hin, rfl, rfl⟩
    | cutShort w =>
      have hother := cutByReset_faulted (s := s.withInputs rest)
        (s' := (s.withPacker pk).withInputs rest) w hf hf rfl
      rw [step_cutShort hin, ← hother] at h
      cases h
      exact ⟨_, step_cutShort (s := s.withPacker pk) hin, rfl, rfl⟩

/-! ### Ports that are never answered (70_reset_and_hazards.md rule R214) -/

theorem exec_read {i : Instr} (h : isRead i = true) (s : State) :
    exec i s = checked i s (respond (readValue i s.arch) s) := by
  cases i with
  | rdreg | rdfreq | rdnode | rdclen | rdcode => rfl
  | _ => cases h

theorem bytesSince_append (e : Env) (bytes : List Byte) (later : List SinkAnswer) :
    bytesSince e { e with out := e.out ++ bytes, sink := later } = bytes :=
  List.drop_left

theorem exec_flush_stuck {s : State} {later : List SinkAnswer} (hr : s.ready .codes)
    (h : s.arch.pk.nheld ≠ 0) (hs : s.env.sink = .never :: later) :
    exec .flush s = .fault (.sinkNeverReady []) := by
  refine (checked_ready _ hr rfl rfl).trans ?_
  rw [if_neg h, sinkWrite_never hs]
  simp [bytesSince]

theorem shiftIn_eighth_stuck {b : Bool} {pk : Packer} {e : Env} {later : List SinkAnswer}
    (h : pk.nheld = 7) (hs : e.sink = .never :: later) :
    shiftIn b pk e = .stuck { e with sink := later } := by
  rw [shiftIn, if_pos h, sinkWrite_never hs]

/-- The write after `m` accepted ones is never taken: the run stops there, with what was accepted in
`OUT`. -/
theorem shiftAll_stuck {bits : List Bool} {pk : Packer} {e : Env} {m : Nat}
    {later : List SinkAnswer} (hm : m < (pk.nheld.toNat + bits.length) / 8)
    (hs : e.sink = List.replicate m .ok ++ .never :: later) :
    ∃ bytes : List Byte, bytes.length = m ∧
      shiftAll bits pk e = .stuck { e with out := e.out ++ bytes, sink := later } := by
  obtain ⟨bytes, pk', b, rest, hlen, -, h7, hrun⟩ :=
    shiftAll_reaches_write hm (sinkAccepts_replicate hs)
  have hnext : (e.afterBytes bytes).sink = .never :: later := by
    rw [afterBytes_sink, hs, hlen, List.drop_left' List.length_replicate]
  refine ⟨bytes, hlen, ?_⟩
  rw [hrun, shiftAll, shiftIn_eighth_stuck h7 hnext]
  rfl

theorem counterOverflow_eq_true {pk : Packer} {len : BitVec 8}
    (h : pk.inlen.toNat = 2 ^ 64 - 1 ∨ 2 ^ 64 - 1 < pk.bitcnt.toNat + len.toNat) :
    counterOverflow pk len = true := by
  rw [counterOverflow, Bool.or_eq_true, beq_iff_eq, decide_eq_true_iff]
  exact h.imp_left fun hin => BitVec.eq_of_toNat_eq (hin.trans BitVec.toNat_allOnes.symm)

/-! ### The statements -/

/-- Settles O14: a phase that refuses the command has `BAD_PHASE` in its row, and the rule raises
only what its row lists (`ran_mayRaise`). -/
theorem faultsEachCommandCanRaise : Obligations.FaultsEachCommandCanRaise := by
  refine ⟨fun i s t hw hs h ht => exec_mayRaise hw hs h ht, fun w e s t hd hf h => ?_⟩
  rw [takeWord_malformed hd hf] at h
  cases h
  exact ⟨rfl, rfl⟩

/-- Settles O13: a faulted block drops the word or responds with a register that holds nothing of
the packer, and a reset puts the packer back (`step_faulted_withPacker`). -/
theorem packerOfAFaultedBlockIsSeenOnlyInItsRegisters :
    Obligations.PackerOfAFaultedBlockIsSeenOnlyInItsRegisters := by
  intro s t pk hf h hread
  obtain ⟨u, hu, henv, harch⟩ := step_faulted_withPacker pk hf h hread
  exact ⟨u, hu, observe_withPacker henv harch, henv, harch⟩

/-- Settles O16: the counters are checked after the code is found and before its bits are shifted
in. -/
theorem packPastTheCountersRaisesCntOvf : Obligations.PackPastTheCountersRaisesCntOvf :=
  fun _ _ hr hcode ho => (checked_ready _ hr rfl rfl).trans
    ((if_neg hcode).trans (if_pos (counterOverflow_eq_true ho)))

/-- Settles O18: the response or the byte is offered at the port (`shiftAll_stuck` for `PACK`),
which answers `never`. -/
theorem unansweredPortIsStuck : Obligations.UnansweredPortIsStuck := by
  refine ⟨fun i s hread hw hf ha ht => ⟨readValue i s.arch, ?_⟩,
    fun s later hr h hs => exec_flush_stuck hr h hs,
    fun sym s m later hr hcode hin hbit hm hs => ?_⟩
  · rw [exec_read hread, checked_accepted _ hf hw ha, respond_never ht]
  · rw [← length_codeBits] at hm
    obtain ⟨bytes, hlen, hrun⟩ := shiftAll_stuck hm hs
    refine ⟨bytes, hlen, ?_⟩
    rw [exec_pack_run hr hcode (counterOverflow_eq_false hin hbit), hrun, finishPack,
      bytesSince_append]

end Sys2Proof.Machine
end

section
/-! The output as a stream of bits (20_memory.md rule R61, 43_pack.md section 5): the bit order of
the bytes, what `PACK` and `FLUSH` append, and what the encoded bits say about the input. -/

namespace Sys2Proof.Machine

/-! ### The bit order (20_memory.md rule R61) -/

theorem getD_byteBits (b : Byte) {i : Nat} (hi : i < 8) :
    (byteBits b).getD i false = b.getLsbD (7 - i) := by
  rw [List.getD_eq_getElem _ _ (by rwa [length_byteBits])]
  simp [byteBits]

/-- Bit `8j + i` of the bytes read from bit 7 down is bit `7 - i` of byte `j`. -/
theorem getD_flatMap_byteBits (bytes : List Byte) (j : Nat) {i : Nat} (hi : i < 8) :
    (bytes.flatMap byteBits).getD (8 * j + i) false = (bytes.getD j 0).getLsbD (7 - i) := by
  induction bytes generalizing j with
  | nil => simp
  | cons b rest ih =>
    rw [List.flatMap_cons]
    cases j with
    | zero =>
      rw [List.getD_append _ _ _ _ (by rw [length_byteBits]; omega), Nat.mul_zero, Nat.zero_add,
        getD_byteBits b hi, List.getD_cons_zero]
    | succ j =>
      rw [List.getD_append_right _ _ _ _ (by rw [length_byteBits]; omega), length_byteBits,
        show 8 * (j + 1) + i - 8 = 8 * j + i by omega, ih, List.getD_cons_succ]

/-- Zeros at the end cannot be told from what a list reads as beyond its end. -/
theorem getD_append_replicate_false (bits : List Bool) (n k : Nat) :
    (bits ++ List.replicate n false).getD k false = bits.getD k false := by
  by_cases hk : k < bits.length
  · rw [List.getD_append _ _ _ _ hk]
  · rw [List.getD_append_right _ _ _ _ (by omega), List.getD_eq_default bits _ (by omega)]
    by_cases hn : k - bits.length < n
    · exact List.getD_replicate _ hn
    · exact List.getD_eq_default _ _ (by rw [List.length_replicate]; omega)

theorem packedAs_iff_padded (bytes : List Byte) (bits : List Bool) :
    PackedAs bytes bits ↔
      ∃ n < 8, bytes.flatMap byteBits = bits ++ List.replicate n false := by
  have hlen := length_flatMap_byteBits bytes
  constructor
  · rintro ⟨hcount, hplaced⟩
    have htotal : (bytes.flatMap byteBits).length =
        (bits ++ List.replicate (8 * bytes.length - bits.length) false).length := by
      rw [hlen, List.length_append, List.length_replicate]
      omega
    refine ⟨8 * bytes.length - bits.length, by omega, List.ext_getElem htotal fun k hk hk' => ?_⟩
    rw [← List.getD_eq_getElem _ false hk, ← List.getD_eq_getElem _ false hk',
      getD_append_replicate_false, ← Nat.div_add_mod k 8,
      getD_flatMap_byteBits _ _ (Nat.mod_lt _ (by decide)), hplaced _ _ (Nat.mod_lt _ (by decide))]
  · rintro ⟨n, hn, hbits⟩
    have htotal := congrArg List.length hbits
    rw [hlen, List.length_append, List.length_replicate] at htotal
    refine ⟨by omega, fun j i hi => ?_⟩
    rw [← getD_flatMap_byteBits _ _ hi, hbits, getD_append_replicate_false]

/-! ### `PACK` of a sequence (43_pack.md rules R140 and R147) -/

/-- The packer never looks at `INLEN`. -/
theorem Packed.withInlen {bits : List Bool} {bytes : List Byte} {pk pk' : Packer}
    (h : Packed bits pk bytes pk') (n : BitVec 64) :
    Packed bits { pk with inlen := n } bytes { pk' with inlen := n } :=
  ⟨h.written, h.stream, h.held, h.small, h.bitcnt, rfl, h.outlen, h.padbits⟩

theorem Packed.toNat_bitcnt {bits : List Bool} {bytes : List Byte} {pk pk' : Packer}
    (h : Packed bits pk bytes pk') (hfit : pk.bitcnt.toNat + bits.length < 2 ^ 64) :
    pk'.bitcnt.toNat = pk.bitcnt.toNat + bits.length := by
  rw [h.bitcnt, BitVec.toNat_add, BitVec.toNat_ofNat]
  omega

/-- The sink that accepts `m + n` bytes accepts `n` after the first `m`. -/
theorem sinkAccepts_afterBytes {e : Env} {bytes : List Byte} {n : Nat}
    (h : e.sinkAccepts (bytes.length + n) = true) : (e.afterBytes bytes).sinkAccepts n = true := by
  unfold Env.sinkAccepts at *
  rw [List.all_eq_true] at *
  rw [afterBytes_sink, List.take_drop]
  exact fun x hx => h x (List.mem_of_mem_drop hx)

theorem exec_pack_accepted {sym : Byte} {s : State} (hr : s.ready .codes)
    (hcode : s.arch.clen sym ≠ 0) (hin : s.arch.pk.inlen.toNat ≠ 2 ^ 64 - 1)
    (hbit : s.arch.pk.bitcnt.toNat + (codeBits s.arch sym).length ≤ 2 ^ 64 - 1)
    (ha : s.env.sinkAccepts
      ((s.arch.pk.nheld.toNat + (codeBits s.arch sym).length) / 8) = true) :
    ∃ pk bytes, exec (.pack sym) s =
        .next { arch := { s.arch with pk := { pk with inlen := s.arch.pk.inlen + 1 } }
                env := s.env.afterBytes bytes } ∧
      Packed (codeBits s.arch sym) s.arch.pk bytes pk := by
  obtain ⟨pk, bytes, hrun, hp⟩ := shiftAll_accepted _ _ _ ha
  rw [length_codeBits] at hbit
  refine ⟨pk, bytes, ?_, hp⟩
  rw [exec_pack_run hr hcode (counterOverflow_eq_false hin hbit), hrun, finishPack, hp.inlen]

theorem encodedBits_cons (a : Arch) (x : Byte) (rest : List Byte) :
    encodedBits a (x :: rest) = codeBits a x ++ encodedBits a rest := List.flatMap_cons

/-- Packing some covered bytes, every write accepted, is one run of the packer over their encoded
bits, and `INLEN` counts the bytes. -/
theorem execAll_pack (input : List Byte) {s : State} (hr : s.ready .codes)
    (hcode : ∀ x ∈ input, s.arch.clen x ≠ 0)
    (hin : s.arch.pk.inlen.toNat + input.length < 2 ^ 64)
    (hbit : s.arch.pk.bitcnt.toNat + (encodedBits s.arch input).length < 2 ^ 64)
    (ha : s.env.sinkAccepts
      ((s.arch.pk.nheld.toNat + (encodedBits s.arch input).length) / 8) = true) :
    ∃ pk bytes, execAll (input.map .pack) s =
        .next { arch := { s.arch with
                  pk := { pk with inlen := s.arch.pk.inlen + BitVec.ofNat 64 input.length } }
                env := s.env.afterBytes bytes } ∧
      Packed (encodedBits s.arch input) s.arch.pk bytes pk := by
  induction input generalizing s with
  | nil =>
    refine ⟨s.arch.pk, [], ?_, packed_nil _⟩
    rw [afterBytes_nil]
    simp [execAll]
  | cons x rest ih =>
    rw [encodedBits_cons, List.length_append] at hbit ha
    rw [List.length_cons] at hin
    obtain ⟨q, bx, hx, hpx⟩ := exec_pack_accepted hr (hcode x List.mem_cons_self) (by omega)
      (by omega) (sinkAccepts_mono (by omega) ha)
    have hinlen : (s.arch.pk.inlen + 1).toNat = s.arch.pk.inlen.toNat + 1 :=
      BitVec.toNat_add_of_lt (by change _ + 1 < _; omega)
    have hbitcnt := hpx.toNat_bitcnt (by omega)
    obtain ⟨pk, br, hrest, hpr⟩ := ih
      (s := { arch := { s.arch with pk := { q with inlen := s.arch.pk.inlen + 1 } }
              env := s.env.afterBytes bx })
      hr (fun y hy => hcode y (List.mem_cons_of_mem _ hy)) (by dsimp only; omega)
      (by change q.bitcnt.toNat + (encodedBits s.arch rest).length < _; omega)
      (sinkAccepts_afterBytes (by
        change s.env.sinkAccepts
          (bx.length + (q.nheld.toNat + (encodedBits s.arch rest).length) / 8) = true
        rw [hpx.written, hpx.held]
        exact sinkAccepts_mono (by omega) ha))
    refine ⟨{ pk with inlen := q.inlen }, bx ++ br, ?_, hpx.trans (hpr.withInlen q.inlen)⟩
    rw [List.map_cons, execAll_cons hx, hrest, afterBytes_append]
    simp [BitVec.add_assoc, Nat.add_comm rest.length 1, BitVec.ofNat_add]

/-! ### `FLUSH` (43_pack.md rules R143 to R145) -/

/-- What `FLUSH` has done to the packer and the stream when its write, if any, was answered `ok`. -/
structure Flushed (pk : Packer) (bytes : List Byte) (pk' : Packer) : Prop where
  written : bytes.length = (pk.nheld.toNat + 7) / 8
  stream : bytes.flatMap byteBits = heldBits pk ++ List.replicate pk'.padbits.toNat false
  padding : pk'.padbits.toNat = (8 - pk.nheld.toNat) % 8
  held : pk'.nheld = 0
  acc : pk.acc.toNat < 2 ^ pk.nheld.toNat → pk'.acc = 0
  bitcnt : pk'.bitcnt = pk.bitcnt
  inlen : pk'.inlen = pk.inlen
  outlen : pk'.outlen = pk.outlen + BitVec.ofNat 64 bytes.length

theorem flushed_nothing {pk : Packer} (h : pk.nheld = 0) :
    Flushed pk [] { pk with padbits := 0 } where
  written := by simp [h]
  stream := by simp [heldBits, h]
  padding := by simp [h]
  held := h
  acc hs := by
    rw [h] at hs
    exact BitVec.eq_of_toNat_eq (Nat.lt_one_iff.1 hs)
  bitcnt := rfl
  inlen := rfl
  outlen := by simp

theorem toNat_padbits_flushed {pk : Packer} (h : pk.nheld ≠ 0) :
    (flushedPacker pk).padbits.toNat = 8 - pk.nheld.toNat := by
  have hpos : pk.nheld.toNat ≠ 0 := fun e => h (BitVec.eq_of_toNat_eq e)
  simp only [flushedPacker, padCount, BitVec.toNat_ofNat]
  omega

theorem flushed_byte {pk : Packer} (h : pk.nheld ≠ 0) :
    Flushed pk [paddedByte pk] (flushedPacker pk) := by
  have hlt := nheld_lt pk
  have hpos : pk.nheld.toNat ≠ 0 := fun e => h (BitVec.eq_of_toNat_eq e)
  have hpad := toNat_padbits_flushed h
  refine ⟨?_, ?_, by omega, rfl, fun _ => rfl, rfl, rfl, rfl⟩
  · rw [List.length_singleton]
    omega
  · rw [List.flatMap_singleton, byteBits_paddedByte, hpad]

theorem exec_flush_closes {s : State} (hr : s.ready .codes)
    (ha : s.env.sinkAccepts ((s.arch.pk.nheld.toNat + 7) / 8) = true) :
    ∃ pk bytes, exec .flush s =
        .next { arch := { s.arch with pk := pk, phase := .done }, env := s.env.afterBytes bytes } ∧
      Flushed s.arch.pk bytes pk := by
  by_cases h : s.arch.pk.nheld = 0
  · exact ⟨_, [], by rw [afterBytes_nil]; exact exec_flush_empty hr h, flushed_nothing h⟩
  · have hpos : s.arch.pk.nheld.toNat ≠ 0 := fun e => h (BitVec.eq_of_toNat_eq e)
    exact ⟨_, _, exec_flush_accepted hr h (sinkAccepts_mono (by omega) ha), flushed_byte h⟩

/-- A run from the empty packer that `FLUSH` closes: the bytes are the bits and then fewer than 8
zeros, and the registers count them (43_pack.md rules R144, R145 and R147). -/
theorem closed_stream {bits : List Bool} {pk pk' : Packer} {bx bf : List Byte} {n : BitVec 64}
    (hp : Packed bits Packer.zero bx pk) (hf : Flushed { pk with inlen := n } bf pk')
    (hfit : bits.length < 2 ^ 64) :
    PackedAs (bx ++ bf) bits ∧ pk'.bitcnt.toNat = bits.length ∧
      pk'.outlen.toNat = (bx ++ bf).length ∧ pk'.padbits.toNat = (8 - bits.length % 8) % 8 ∧
      pk'.acc = 0 := by
  have hheld : pk.nheld.toNat = bits.length % 8 := hp.held.trans (by simp [Packer.zero])
  have hbitcnt : pk.bitcnt.toNat = bits.length := by
    simpa [Packer.zero] using hp.toNat_bitcnt (by simpa [Packer.zero] using hfit)
  have hlen : (bx ++ bf).length < 2 ^ 64 := by
    have hbx := hp.written
    have hbf : bf.length = (pk.nheld.toNat + 7) / 8 := hf.written
    simp only [Packer.zero, BitVec.ofNat_eq_ofNat, BitVec.toNat_ofNat] at hbx
    rw [List.length_append]
    omega
  have hstream : (bx ++ bf).flatMap byteBits = bits ++ List.replicate pk'.padbits.toNat false := by
    have hfs : bf.flatMap byteBits = heldBits pk ++ List.replicate pk'.padbits.toNat false :=
      hf.stream
    rw [List.flatMap_append, hfs, ← List.append_assoc, hp.stream]
    rfl
  refine ⟨(packedAs_iff_padded _ _).2 ⟨_, pk'.padbits.isLt, hstream⟩, by rw [hf.bitcnt, hbitcnt],
    ?_, by rw [hf.padding, hheld], hf.acc (hp.small (by decide))⟩
  have houtlen : pk'.outlen = BitVec.ofNat 64 (bx ++ bf).length := by
    rw [hf.outlen, hp.outlen, List.length_append, BitVec.ofNat_add]
    simp [Packer.zero]
  rw [houtlen, BitVec.toNat_ofNat, Nat.mod_eq_of_lt hlen]

/-- The bits of the last byte below the held ones are zeros. -/
theorem getLsbD_paddedByte_padding {pk : Packer} (h : pk.nheld ≠ 0) {j : Nat}
    (hj : j < (flushedPacker pk).padbits.toNat) : (paddedByte pk).getLsbD j = false := by
  have hpos : pk.nheld.toNat ≠ 0 := fun e => h (BitVec.eq_of_toNat_eq e)
  rw [toNat_padbits_flushed h] at hj
  have hbit := getLsbD_paddedByte pk (i := 7 - j) (by omega)
  rwa [if_neg (by omega), show 7 - (7 - j) = j by omega] at hbit

/-! ### What the encoded bits determine (43_pack.md rule R147) -/

theorem codeBits_ne_nil {a : Arch} {sym : Byte} (h : a.clen sym ≠ 0) : codeBits a sym ≠ [] := by
  intro hnil
  have hlen := length_codeBits a sym
  rw [hnil] at hlen
  exact h (BitVec.eq_of_toNat_eq hlen.symm)

/-- Two codes at the head of the same bits are the code of one symbol: neither may continue the
other. -/
theorem sym_eq_of_same_bits {a : Arch} (hvalid : CodeMapValid a) {c d : Byte} {xs ys : List Bool}
    (hc : a.clen c ≠ 0) (hd : a.clen d ≠ 0) (h : codeBits a c ++ xs = codeBits a d ++ ys) :
    c = d := by
  by_contra hne
  have hcp : codeBits a c <+: codeBits a d ++ ys := by
    rw [← h]
    exact List.prefix_append _ _
  rcases List.prefix_or_prefix_of_prefix hcp (List.prefix_append _ _) with hp | hp
  · exact hvalid.prefixFree c d hne hc hd hp
  · exact hvalid.prefixFree d c (Ne.symm hne) hd hc hp

/-! ### The empty input (40_frequency.md section 5) -/

theorem buildTree_of_no_key {a : Arch} (hnone : keyCount a = 0) (hnode : a.node = Arena.empty)
    (hroot : a.root = none) : buildTree a = { a with phase := .tree } := by
  have hkeys : ∀ sym, a.freqAt sym = 0 := fun sym => by
    simpa [keys_eq_nil hnone] using mem_keys a sym
  have hempty : (buildTree a).node = a.node := arena_ext fun n _ => by
    rw [hnode, at_empty, buildTree_at_eq_none (by omega) fun sym _ => hkeys sym]
  have hnoroot : (buildTree a).root = a.root := (buildTree_root_of_no_key hnone).trans hroot.symm
  calc buildTree a
      = { a with node := (buildTree a).node, root := (buildTree a).root, phase := .tree } := rfl
    _ = { a with phase := .tree } := by rw [hempty, hnoroot]

theorem generateCodes_of_no_root {a : Arch} (hnode : a.node = Arena.empty) (hroot : a.root = none)
    (hcmap : a.cmap = CodeMap.empty) : generateCodes a = { a with phase := .codes } := by
  rw [generateCodes, bindings, hroot, List.foldl_nil, ← hnode, ← hcmap, ← hroot]

theorem exec_build_of_no_key {s : State} (hr : s.ready .table) (hnone : keyCount s.arch = 0)
    (hnode : s.arch.node = Arena.empty) (hroot : s.arch.root = none) :
    exec .build s = .next { s with arch := { s.arch with phase := .tree } } := by
  rw [exec_build hr, buildTree_of_no_key hnone hnode hroot]

theorem exec_gen_of_no_root {s : State} (hr : s.ready .tree) (hnode : s.arch.node = Arena.empty)
    (hroot : s.arch.root = none) (hcmap : s.arch.cmap = CodeMap.empty) :
    exec .gen s = .next { s with arch := { s.arch with phase := .codes } } := by
  rw [exec_gen hr, generateCodes_of_no_root hnode hroot hcmap]

theorem exec_flush_of_zero {s : State} (hr : s.ready .codes) (hpk : s.arch.pk = Packer.zero) :
    exec .flush s = .next { s with arch := { s.arch with phase := .done } } := by
  have hsame : { s.arch.pk with padbits := 0 } = s.arch.pk := by rw [hpk]; rfl
  rw [exec_flush_empty hr (by rw [hpk]; rfl), hsame]

/-! ### The statements -/

/-- Settles O56 (`packedAs_iff_padded`). -/
theorem bitOrderOfTheOutput : Obligations.BitOrderOfTheOutput := packedAs_iff_padded

/-- Settles O37: past its checks `PACK` is a run of the packer over the code's bits, every write
accepted. -/
theorem packAppendsTheCode : Obligations.PackAppendsTheCode := by
  intro sym s hr hcode hin hbit ha
  rw [← length_codeBits] at hbit ha ⊢
  obtain ⟨pk, bytes, hexec, hp⟩ := exec_pack_accepted hr hcode hin hbit ha
  have hlt := s.arch.pk.inlen.isLt
  exact ⟨_, bytes, hexec, hp.written, hp.stream, hp.held, hp.small, hp.toNat_bitcnt (by omega),
    BitVec.toNat_add_of_lt (by change _ + 1 < _; omega), hp.outlen, hp.padbits⟩

/-- Settles O39: the packer stays exact (`ran_keeps_packerExact`) and in phase `DONE` that is the
claim; the last byte is the held bits above zeros. -/
theorem outputLengthAndPadding : Obligations.OutputLengthAndPadding := by
  intro s t hr hexact h ht
  have hacc : accepts .flush s.arch.phase = true := by rw [hr.2]; rfl
  have hran := exec_accepted hr.1 rfl hacc h
  have hdone : t.arch.phase = .done := exec_phase h hr.1 ht
  have hclosed := ran_keeps_packerExact hacc hexact hran (packerTrusted_of_clean ht)
  refine ⟨by rw [hclosed.written, if_pos hdone], by rw [hclosed.padding, if_pos hdone],
    fun b hb j hj => ?_⟩
  cases hran with
  | flushNothing => simp at hj
  | flush h0 =>
    rw [← List.singleton_inj.1 (List.append_cancel_left hb)]
    exact getLsbD_paddedByte_padding h0 hj
  | flushFailed => simp at ht
  | read _ hread => cases hread

/-- Settles O40: the packs are one run of the packer (`execAll_pack`), `FLUSH` pads what is held
(`exec_flush_closes`), and together the bytes are the encoded bits and then fewer than 8 zeros. -/
theorem packedStreamIsTheEncoding : Obligations.PackedStreamIsTheEncoding := by
  intro input s hr hzero hcode hin hbit ha
  obtain ⟨pk, bx, hpack, hp⟩ := execAll_pack input hr hcode
    (by simpa [hzero, Packer.zero] using hin) (by simpa [hzero, Packer.zero] using hbit)
    (sinkAccepts_mono (by simp [hzero, Packer.zero]; omega) ha)
  rw [hzero] at hp hpack
  have hheld := hp.held
  have hwritten := hp.written
  have hzeroheld : Packer.zero.nheld.toNat = 0 := rfl
  rw [hzeroheld, Nat.zero_add] at hheld hwritten
  obtain ⟨pk', bf, hflush, hf⟩ := exec_flush_closes
    (s := { arch := { s.arch with
              pk := { pk with inlen := Packer.zero.inlen + BitVec.ofNat 64 input.length } }
            env := s.env.afterBytes bx }) hr
    (sinkAccepts_afterBytes (by
      refine sinkAccepts_mono ?_ ha
      dsimp only
      omega))
  obtain ⟨hbytes, hbitcnt, houtlen, hpad, hacc⟩ := closed_stream hp hf hbit
  refine ⟨pk', bx ++ bf, ?_, hbytes, ?_, hbitcnt, houtlen, hpad, hacc, hf.held⟩
  · rw [execAll_append hpack, execAll_cons hflush, execAll, afterBytes_append]
  · simpa [hf.inlen, Packer.zero] using hin

/-- Settles O41, by induction on the inputs: the codes at the head of equal bits are the code of
one symbol (`sym_eq_of_same_bits`). -/
theorem encodingIsUniquelyDecodable : Obligations.EncodingIsUniquelyDecodable := by
  intro a x y hvalid hx hy h
  induction x generalizing y with
  | nil =>
    cases y with
    | nil => rfl
    | cons d y =>
      rw [encodedBits_cons] at h
      exact absurd (List.append_eq_nil_iff.1 h.symm).1 (codeBits_ne_nil (hy d List.mem_cons_self))
  | cons c x ih =>
    rw [encodedBits_cons] at h
    cases y with
    | nil =>
      exact absurd (List.append_eq_nil_iff.1 h).1 (codeBits_ne_nil (hx c List.mem_cons_self))
    | cons d y =>
      rw [encodedBits_cons] at h
      obtain rfl := sym_eq_of_same_bits hvalid (hx c List.mem_cons_self) (hy d List.mem_cons_self) h
      rw [ih y (fun z hz => hx z (List.mem_cons_of_mem _ hz))
        (fun z hz => hy z (List.mem_cons_of_mem _ hz)) (List.append_cancel_left h)]

/-- Settles O42: with no key `BUILD` makes the empty arena that was there, `GEN` the empty code map,
and `FLUSH` finds no bit held. -/
theorem emptyInputIsNoFault : Obligations.EmptyInputIsNoFault := by
  intro s hr hphase hnone
  obtain ⟨htree, hcodes, hpacking⟩ := hphase
  obtain ⟨hnode, hroot⟩ := htree (by simp [hr.2])
  have hcmap := hcodes (.inl hr.2)
  have hpk := hpacking (.inl hr.2)
  have hbuild := exec_build_of_no_key hr hnone hnode hroot
  have hgen := exec_gen_of_no_root
    (s := { s with arch := { s.arch with phase := .tree } }) ⟨hr.1, rfl⟩ hnode hroot hcmap
  have hflush := exec_flush_of_zero
    (s := { s with arch := { s.arch with phase := .codes } }) ⟨hr.1, rfl⟩ hpk
  exact (execAll_cons hbuild _).trans ((execAll_cons hgen _).trans (execAll_cons hflush _))

end Sys2Proof.Machine
end
